-- ==== Sys2Proof/Word.lean ====
section
/-! DEFINITION. The word types of the engine's port and storages (spec 00_scope.md rules R7, R9). -/

namespace Sys2Proof

/-- A header word, an operand word or a result word: 32 bits (`XLEN`, 00_scope.md R7). -/
abbrev Word := BitVec 32

/-- One byte of a storage (20_memory.md R62). -/
abbrev Byte := BitVec 8

/-- One storage cell: 64 bits (`WORD`, 00_scope.md R7; 20_memory.md R63). -/
abbrev CellWord := BitVec 64

end Sys2Proof
end

