-- ==== Sys2Proof/Config.lean ====
section
/-! DEFINITION. What an instance of the engine fixes (00_scope.md R7) and the free values that stand where the
spec says UNSPECIFIED (10_state.md R25, R30, R33, R50; 93_implementation_defined.md U1, U6, U12). -/

namespace Sys2Proof.Config

/-- The three open parameters of 00_scope.md R7. `XLEN`, `WORD` and `MAXCNT` are fixed by the spec. -/
structure Params where
  wCapMaxBytes : Nat
  rCapMaxBytes : Nat
  nslot        : Nat
  deriving DecidableEq, Repr

/-- The constraints column of 00_scope.md R7. -/
abbrev Params.Legal (p : Params) : Prop :=
  (p.wCapMaxBytes % 8 = 0 ∧ 8 ≤ p.wCapMaxBytes ∧ p.wCapMaxBytes ≤ 2 ^ 28) ∧
  (p.rCapMaxBytes % 8 = 0 ∧ 8 ≤ p.rCapMaxBytes ∧ p.rCapMaxBytes ≤ 2 ^ 28) ∧
  (1 ≤ p.nslot ∧ p.nslot ≤ 16)

/-- The defaults of `BPE-1` (00_scope.md R7, third column). -/
def bpe1 : Params where
  wCapMaxBytes := 65536
  rCapMaxBytes := 65536
  nslot        := 16

/-- FREE VALUE: the writer's cursor after its context is poisoned (10_state.md R25). -/
opaque freeWriterCursor : Nat → Nat

/-- FREE VALUE: the bytes of the writer's storage where the spec calls them UNSPECIFIED (10_state.md R25, R50). -/
opaque freeWriterBytes : Nat → List Host.Cell

/-- FREE VALUE: the reader's byte limit after its context is poisoned (10_state.md R33). -/
opaque freeReaderLimit : Nat → Nat

/-- FREE VALUE: the reader's cursor after its context is poisoned (10_state.md R33). -/
opaque freeReaderCursor : Nat → Nat

/-- FREE VALUE: the bytes of the reader's storage where the spec calls them UNSPECIFIED (10_state.md R33, R50). -/
opaque freeReaderBytes : Nat → List Host.Cell

end Sys2Proof.Config
end

