-- ==== Sys2Proof/Syntax.lean ====
section
/-! DEFINITION. Command packets and the 34 commands (30_encoding.md R90 to R96): one constructor of `Instr`
for each row of the opcode map, in the map's order. -/

namespace Sys2Proof

/-- A command packet: one header word and the operand words that came with it (30_encoding.md R90). -/
structure Packet where
  header : Word
  ops    : List Word
  deriving DecidableEq, Repr

/-- The commands of 30_encoding.md R96. `slot` is the header field `SLOT`, `cnt` the header field `CNT`; every
other argument is a whole operand word (R92, R93). -/
inductive Instr where
  | stat
  | slotbits (slot : Nat)
  | umax (slot : Nat)
  | wopen (capBytes : Word)
  | write (cnt : Nat) (value : Word)
  | wreset
  | wbytelen
  | wbyte (index : Word)
  | wclose
  | ropen
  | rput (byte : Word)
  | read (cnt : Nat)
  | rbytepos
  | rclose
  | bitcnt (min max : Word)
  | scaletou (value srcMin srcMax dstMin dstMax : Word)
  | scalefromu (code srcMin srcMax dstMin dstMax : Word)
  | fcfg (slot : Nat) (max precision : Word)
  | fpack (slot : Nat) (value : Word)
  | funpack (slot : Nat)
  | v2cfg (slot : Nat) (maxX maxY precX precY : Word)
  | v2pack (slot : Nat) (x y : Word)
  | v2unpack (slot : Nat)
  | v3cfg (slot : Nat) (maxX maxY maxZ precX precY precZ : Word)
  | v3pack (slot : Nat) (x y z : Word)
  | v3unpack (slot : Nat)
  | pcfg (slot : Nat) (minX minY minZ maxX maxY maxZ precision : Word)
  | ppack (slot : Nat) (x y z : Word)
  | punpack (slot : Nat)
  | ucfg (slot : Nat) (small medium large : Word)
  | upack (slot : Nat) (value : Word)
  | uunpack (slot : Nat)
  | upackn (slot : Nat) (present value : Word)
  | uunpackn (slot : Nat)
  deriving DecidableEq, Repr

/-- Why a packet is refused before any command runs (30_encoding.md R97 to R100). -/
inductive DecodeFault where
  /-- `OPC` is not in the opcode map (R98). -/
  | illegalOpcode
  /-- `RSV`, or a `SLOT` or `CNT` field the command does not use, is not 0 (R99). -/
  | reservedField
  /-- The operand count differs from the `k` of the opcode (R100). -/
  | operandCount
  deriving DecidableEq, Repr

/-- The three types of an operand word (30_encoding.md R92). -/
inductive OperandType where
  | u32
  | i32
  | f32
  deriving DecidableEq, Repr

/-- One row of the opcode map (30_encoding.md R96): the columns `mnemonic`, `OPC`, `S`, `C`, the operand types
(their number is `k`), `nres`, `match` (here `pattern`) and `mask`. -/
structure OpRow where
  mnemonic : String
  opc      : Nat
  usesSlot : Bool
  usesCnt  : Bool
  operands : List OperandType
  nres     : Nat
  pattern  : Word
  mask     : Word
  deriving DecidableEq, Repr

/-- The mnemonic of a command, as 30_encoding.md R96 spells it. -/
def Instr.mnemonic : Instr → String
  | .stat => "STAT"
  | .slotbits _ => "SLOTBITS"
  | .umax _ => "UMAX"
  | .wopen _ => "WOPEN"
  | .write _ _ => "WRITE"
  | .wreset => "WRESET"
  | .wbytelen => "WBYTELEN"
  | .wbyte _ => "WBYTE"
  | .wclose => "WCLOSE"
  | .ropen => "ROPEN"
  | .rput _ => "RPUT"
  | .read _ => "READ"
  | .rbytepos => "RBYTEPOS"
  | .rclose => "RCLOSE"
  | .bitcnt _ _ => "BITCNT"
  | .scaletou _ _ _ _ _ => "SCALETOU"
  | .scalefromu _ _ _ _ _ => "SCALEFROMU"
  | .fcfg _ _ _ => "FCFG"
  | .fpack _ _ => "FPACK"
  | .funpack _ => "FUNPACK"
  | .v2cfg _ _ _ _ _ => "V2CFG"
  | .v2pack _ _ _ => "V2PACK"
  | .v2unpack _ => "V2UNPACK"
  | .v3cfg _ _ _ _ _ _ _ => "V3CFG"
  | .v3pack _ _ _ _ => "V3PACK"
  | .v3unpack _ => "V3UNPACK"
  | .pcfg _ _ _ _ _ _ _ _ => "PCFG"
  | .ppack _ _ _ _ => "PPACK"
  | .punpack _ => "PUNPACK"
  | .ucfg _ _ _ _ => "UCFG"
  | .upack _ _ => "UPACK"
  | .uunpack _ => "UUNPACK"
  | .upackn _ _ _ => "UPACKN"
  | .uunpackn _ => "UUNPACKN"

end Sys2Proof
end

