-- ==== Sys2Proof/Machine/State.lean ====
section
/-! DEFINITION. The architectural state of the engine (10_state.md), the shapes of a fault and of a response
(60_exceptions.md R281 to R285, 30_encoding.md R94, R95), and the state after reset (10_state.md R50). -/

namespace Sys2Proof.Machine

/-- A storage: `size` bytes (the instance's `W_CAP_MAX_BYTES` or `R_CAP_MAX_BYTES`, 00_scope.md R7) and its bytes by
byte address (20_memory.md R62), rising, with no entry for a byte that holds what an unlisted byte reads as. -/
structure Memory where
  size  : Nat
  cells : List Host.Cell
  deriving DecidableEq, Repr

/-- The writer context `W` (10_state.md R23). -/
structure Writer where
  live   : Bool
  poison : Bool
  cap    : Nat
  wbit   : Nat
  mem    : Memory
  deriving DecidableEq, Repr

/-- The reader context `R` (10_state.md R31). -/
structure Reader where
  live   : Bool
  poison : Bool
  limit  : Nat
  rbit   : Nat
  mem    : Memory
  deriving DecidableEq, Repr

/-- One axis triple of a FloatPacker or vector packer (10_state.md R42). -/
structure Axis where
  max  : Rat
  prec : Rat
  mag  : Nat
  deriving DecidableEq, Repr

/-- The bounds and the code width of one axis of a PositionPacker (10_state.md R44). -/
structure PosAxis where
  min  : Rat
  max  : Rat
  bits : Nat
  deriving DecidableEq, Repr

/-- The content of a descriptor slot: one tagged value (10_state.md R40 to R45). -/
inductive Descriptor where
  /-- no packer (R41) -/
  | empty
  /-- a FloatPacker (R42) -/
  | float (ax : Axis)
  /-- a Vector2Packer: axes x, y (R43) -/
  | vec2 (x y : Axis)
  /-- a Vector3Packer: axes x, y, z (R43) -/
  | vec3 (x y z : Axis)
  /-- a PositionPacker: axes x, y, z and the shared precision (R44) -/
  | pos (x y z : PosAxis) (prec : Rat)
  /-- a UIntVariablePacker: its three widths (R45) -/
  | uvar (small medium large : Nat)
  deriving DecidableEq, Repr

/-- The fault kinds (60_exceptions.md R281). -/
inductive FaultKind where
  | invalidArgument
  | overflow
  | underflow
  | outOfRange
  | disposedResource
  | poisoned
  deriving DecidableEq, Repr

/-- What `raise Kind(info)` and `raise Kind(info, a, b)` carry (00_scope.md R11, 60_exceptions.md R285). -/
structure Raise where
  kind   : FaultKind
  info   : Byte
  detail : Option (Word × Word)
  deriving DecidableEq, Repr

/-- A response packet (30_encoding.md R94): no kind stands for `STATUS` = OK; `NRES` is the number of results. -/
structure Response where
  fault   : Option FaultKind
  info    : Byte
  results : List Word
  deriving DecidableEq, Repr

/-- What the host can do to the engine: present a packet (10_state.md R20) or assert the reset input
(70_reset_and_hazards.md R310). -/
inductive PortEvent where
  | packet (p : Packet)
  | reset
  deriving DecidableEq, Repr

/-- Why a step stops. A fault of the spec is NOT one of these: it is a response, and the machine goes on
(60_exceptions.md R280). -/
inductive Fault where
  /-- Raised by `memRead`, `memWrite` and `memClear` for an access that reaches past the last bit of a storage, an
  address that does not exist (20_memory.md R72). SAFE: the model stops. No state that meets the invariant of
  Sys2Proof/Safety.lean reaches it (`W.cap` and `R.limit` stay within the storages). -/
  | noSuchAddress
  deriving DecidableEq, Repr

/-- Why an instruction has no meaning. -/
inductive Refusal where
  /-- Raised only by an arm of `exec` whose instruction has no meaning yet; there is none. SAFE. -/
  | notModelled (mnemonic : String)
  deriving DecidableEq, Repr

/-- What ends a command early: a fault of the spec (60_exceptions.md R285) or a stop of the model. -/
inductive Stop where
  | raised (f : Raise)
  | fault (e : Fault)
  deriving DecidableEq, Repr

/-- The machine. `w`, `r` and `slots` are the whole of the spec's state (10_state.md R23, R31, R40); the length of
`slots` is `NSLOT`. `port`, `responses` and `freeIdx` are the model's own: the host's pending events, oldest first;
the responses given, oldest first; and the index of the next free value. -/
structure State where
  w         : Writer
  r         : Reader
  slots     : List Descriptor
  port      : List PortEvent
  responses : List Response
  freeIdx   : Nat
  deriving DecidableEq, Repr

/-- The state after reset of an instance with parameters `p` (10_state.md R50). The storages, UNSPECIFIED there, list
nothing (DESIGN CHOICE, unsafe, log 3); the model's own fields start empty (DESIGN CHOICE, logs 1, 2, 5). -/
def State.resetFor (p : Config.Params) : State where
  w := { live := false, poison := false, cap := 0, wbit := 0, mem := ⟨p.wCapMaxBytes, []⟩ }
  r := { live := false, poison := false, limit := 0, rbit := 0, mem := ⟨p.rCapMaxBytes, []⟩ }
  slots := List.replicate p.nslot .empty
  port := []
  responses := []
  freeIdx := 0

/-- The state after reset of `BPE-1` (10_state.md R50, 00_scope.md R7). -/
def State.reset : State := State.resetFor Config.bpe1

end Sys2Proof.Machine
end

