-- ==== Sys2Proof/Machine/Flags.lean ====
section
/-! DEFINITION. The status flags: the four lifecycle bits, the lifecycle state they decide and the status word
(10_state.md R30, R37, R38), the status codes and the response header (60_exceptions.md R281, 30_encoding.md R94). -/

namespace Sys2Proof.Machine

/-- The three lifecycle states of a context (10_state.md R30). -/
inductive Lifecycle where
  | closed
  | live
  | poisoned
  deriving DecidableEq, Repr

/-- The lifecycle state the two flags decide (10_state.md R30). -/
def lifecycle (live poison : Bool) : Lifecycle :=
  if live then (if poison then .poisoned else .live) else .closed

/-- The lifecycle state of the writer (10_state.md R30). -/
def Writer.lifecycle (w : Writer) : Lifecycle := Machine.lifecycle w.live w.poison

/-- The lifecycle state of the reader (10_state.md R30). -/
def Reader.lifecycle (r : Reader) : Lifecycle := Machine.lifecycle r.live r.poison

/-- The status word: bit 0 `W.live`, bit 1 `W.poison`, bit 2 `R.live`, bit 3 `R.poison`, bits 31:4 zero
(10_state.md R37, 48_diagnostics.md R270). -/
def statusWord (s : State) : Word :=
  BitVec.ofNat 32
    (s.w.live.toNat + 2 * s.w.poison.toNat + 4 * s.r.live.toNat + 8 * s.r.poison.toNat)

/-- The `STATUS` code of a fault kind (60_exceptions.md R281). -/
def FaultKind.code : FaultKind → Nat
  | .invalidArgument => 1
  | .overflow => 2
  | .underflow => 3
  | .outOfRange => 4
  | .disposedResource => 5
  | .poisoned => 6

/-- The `STATUS` field of a response: 0 is OK (60_exceptions.md R281). -/
def Response.status (r : Response) : Nat :=
  match r.fault with
  | none => 0
  | some k => k.code

/-- The response header: `STATUS` in bits 3:0, `INFO` in bits 15:8, `NRES` in bits 17:16 (30_encoding.md R94). -/
def Response.header (r : Response) : Word :=
  BitVec.ofNat 32 (r.status + 2 ^ 8 * r.info.toNat + 2 ^ 16 * r.results.length)

/-- The words of a response packet: its header, then its result words (30_encoding.md R94). -/
def Response.words (r : Response) : List Word := r.header :: r.results

end Sys2Proof.Machine
end

