-- ==== Sys2Proof/Machine/Memory.lean ====
section
/-! DEFINITION. The storages: bit, byte and cell addressing, `MemRead`, `MemWrite`, the zeroing of a range, and the
two-cell forms of a primitive write and read (20_memory.md R61 to R68). -/

namespace Sys2Proof.Machine

/-- What a byte that is not listed reads as: DESIGN CHOICE 0, unsafe (log 3). The spec makes it unobservable
(10_state.md R50). -/
def Memory.unlisted : Byte := 0

/-- The byte at an address of a list of rising addresses. -/
def byteAt : List Host.Cell → Nat → Byte
  | [], _ => Memory.unlisted
  | (k, b) :: rest, i => if i < k then Memory.unlisted else if i = k then b else byteAt rest i

/-- The list with the byte at one address replaced, its canonical form kept. -/
def putByte : List Host.Cell → Nat → Byte → List Host.Cell
  | [], i, b => if b = Memory.unlisted then [] else [(i, b)]
  | (k, c) :: rest, i, b =>
    if i < k then (if b = Memory.unlisted then (k, c) :: rest else (i, b) :: (k, c) :: rest)
    else if i = k then (if b = Memory.unlisted then rest else (i, b) :: rest)
    else (k, c) :: putByte rest i b

/-- Addresses strictly rising. -/
def rising : List Host.Cell → Bool
  | [] => true
  | [_] => true
  | (i, _) :: (j, c) :: rest => i < j && rising ((j, c) :: rest)

/-- The canonical form of a storage: addresses strictly rising and inside the storage, and no entry equal to what an
unlisted byte reads as. -/
def Memory.wf (m : Memory) : Bool :=
  rising m.cells && m.cells.all fun c => c.1 < m.size && c.2 != Memory.unlisted

/-- The number of bits of a storage (20_memory.md R72). -/
def Memory.bitSize (m : Memory) : Nat := 8 * m.size

/-- Byte `i` of a buffer (20_memory.md R62). -/
def Memory.byte (m : Memory) (i : Nat) : Byte := byteAt m.cells i

/-- Stream bit `s`: bit `s mod 8` of byte `s div 8` (20_memory.md R62). -/
def Memory.bit (m : Memory) (s : Nat) : Bool := (m.byte (s / 8)).getLsbD (s % 8)

/-- A byte with one of its bits set to a value. -/
def withBit (b : Byte) (k : Nat) (v : Bool) : Byte :=
  if v then b ||| BitVec.twoPow 8 k else b &&& ~~~ BitVec.twoPow 8 k

/-- The storage with one stream bit set to a value. -/
def Memory.setBit (m : Memory) (s : Nat) (v : Bool) : Memory :=
  { m with cells := putByte m.cells (s / 8) (withBit (m.byte (s / 8)) (s % 8) v) }

/-- `MemRead(X, a, n)`: stream bit `a + i` becomes bit `i` of the result (20_memory.md R64). -/
def Memory.read (m : Memory) (a : Nat) : Nat → Nat
  | 0 => 0
  | n + 1 => (m.bit a).toNat + 2 * Memory.read m (a + 1) n

/-- `MemWrite(X, a, n, v)`: stream bit `a + i` becomes bit `i` of `v`, no other bit changes (20_memory.md R65). -/
def Memory.write (m : Memory) (a : Nat) : Nat → Nat → Memory
  | 0, _ => m
  | n + 1, v => Memory.write (m.setBit a (v.testBit 0)) (a + 1) n (v / 2)

/-- Every stream bit `0 .. n-1` becomes 0 (40_writer.md R122, R124; 41_reader.md R141): the whole bytes below, then
the bits of a last partial byte. -/
def Memory.clear (m : Memory) (n : Nat) : Memory :=
  Memory.write { m with cells := m.cells.filter fun c => n / 8 ≤ c.1 } (8 * (n / 8)) (n % 8) 0

/-- A storage of a size from any list of bytes; bytes outside the storage are dropped. -/
def Memory.ofCells (size : Nat) (cells : List Host.Cell) : Memory :=
  { size := size
    cells := cells.foldl (fun acc c => if c.1 < size then putByte acc c.1 c.2 else acc) [] }

/-- Cell `c`: stream bit `64 c + i` is its bit `i` (20_memory.md R63). -/
def Memory.cell (m : Memory) (c : Nat) : CellWord := BitVec.ofNat 64 (m.read (64 * c) 64)

/-- The storage with cell `c` replaced (20_memory.md R63). -/
def Memory.setCell (m : Memory) (c : Nat) (x : CellWord) : Memory := m.write (64 * c) 64 x.toNat

/-- The two-cell write of `n` bits at cursor `c`, `1 ≤ n ≤ 32` (20_memory.md R66). -/
def Memory.cellWrite (m : Memory) (c n v : Nat) : Memory :=
  let d : CellWord := BitVec.ofNat 64 (v % 2 ^ n)
  let w := c / 64
  let o := c % 64
  if o + n ≤ 64 then m.setCell w (m.cell w ||| (d <<< o))
  else
    let k := 64 - o
    let low : CellWord := BitVec.ofNat 64 (v % 2 ^ n % 2 ^ k)
    let m' := m.setCell w (m.cell w ||| (low <<< o))
    m'.setCell (w + 1) (m'.cell (w + 1) ||| (d >>> k))

/-- The two-cell read of `n` bits at cursor `c`, `1 ≤ n ≤ 32` (20_memory.md R67). -/
def Memory.cellRead (m : Memory) (c n : Nat) : Nat :=
  let w := c / 64
  let o := c % 64
  if o + n ≤ 64 then (m.cell w >>> o).toNat % 2 ^ n
  else
    let k := 64 - o
    ((m.cell w >>> o) ||| (m.cell (w + 1) <<< k)).toNat % 2 ^ n

end Sys2Proof.Machine
end

