-- ==== Sys2Proof/WellFormed.lean ====
section
/-! DEFINITION. Which terms of `Instr` a header word can carry: `SLOT` is 4 bits and `CNT` is 6 bits
(30_encoding.md R91). Operand words need no check, they are used whole (R93). -/

namespace Sys2Proof

/-- The value fits the 4-bit field `SLOT` (30_encoding.md R91). -/
abbrev slotFits (slot : Nat) : Bool := slot < 16

/-- The value fits the 6-bit field `CNT` (30_encoding.md R91). -/
abbrev cntFits (cnt : Nat) : Bool := cnt < 64

/-- Every header field of the command fits its place in the header word (30_encoding.md R91). -/
def Instr.wellFormed : Instr → Bool
  | .stat => true
  | .slotbits s => slotFits s
  | .umax s => slotFits s
  | .wopen _ => true
  | .write c _ => cntFits c
  | .wreset => true
  | .wbytelen => true
  | .wbyte _ => true
  | .wclose => true
  | .ropen => true
  | .rput _ => true
  | .read c => cntFits c
  | .rbytepos => true
  | .rclose => true
  | .bitcnt _ _ => true
  | .scaletou _ _ _ _ _ => true
  | .scalefromu _ _ _ _ _ => true
  | .fcfg s _ _ => slotFits s
  | .fpack s _ => slotFits s
  | .funpack s => slotFits s
  | .v2cfg s _ _ _ _ => slotFits s
  | .v2pack s _ _ => slotFits s
  | .v2unpack s => slotFits s
  | .v3cfg s _ _ _ _ _ _ => slotFits s
  | .v3pack s _ _ _ => slotFits s
  | .v3unpack s => slotFits s
  | .pcfg s _ _ _ _ _ _ _ => slotFits s
  | .ppack s _ _ _ => slotFits s
  | .punpack s => slotFits s
  | .ucfg s _ _ _ => slotFits s
  | .upack s _ => slotFits s
  | .uunpack s => slotFits s
  | .upackn s _ _ => slotFits s
  | .uunpackn s => slotFits s

end Sys2Proof
end

