-- ==== Sys2Proof/Decode.lean ====
section
/-! DEFINITION. The opcode map, the decoder and the encoder (30_encoding.md R91 to R102). Decoding is total: every
packet gives a command or the name of the first check it fails (R97). -/

namespace Sys2Proof

/-- `v[hi:lo]` of 00_scope.md R9: the unsigned integer made of bits `hi` down to `lo`. -/
def bitField (v : Word) (hi lo : Nat) : Nat := v.toNat / 2 ^ lo % 2 ^ (hi + 1 - lo)

/-- `OPC`, header bits 7:0 (30_encoding.md R91). -/
def hdrOpc (h : Word) : Nat := bitField h 7 0

/-- `SLOT`, header bits 11:8 (30_encoding.md R91, R93). -/
def hdrSlot (h : Word) : Nat := bitField h 11 8

/-- `CNT`, header bits 17:12 (30_encoding.md R91, R93). -/
def hdrCnt (h : Word) : Nat := bitField h 17 12

/-- `RSV`, header bits 31:18 (30_encoding.md R91). -/
def hdrRsv (h : Word) : Nat := bitField h 31 18

/-- Families 0, 1 and 2 of the opcode map (30_encoding.md R96). -/
def opcodeRowsContexts : List OpRow := [
  ⟨"STAT", 0x01, false, false, [], 1, 0x00000001#32, 0xFFFFFFFF#32⟩,
  ⟨"SLOTBITS", 0x02, true, false, [], 3, 0x00000002#32, 0xFFFFF0FF#32⟩,
  ⟨"UMAX", 0x03, true, false, [], 1, 0x00000003#32, 0xFFFFF0FF#32⟩,
  ⟨"WOPEN", 0x10, false, false, [.u32], 0, 0x00000010#32, 0xFFFFFFFF#32⟩,
  ⟨"WRITE", 0x11, false, true, [.u32], 0, 0x00000011#32, 0xFFFC0FFF#32⟩,
  ⟨"WRESET", 0x12, false, false, [], 0, 0x00000012#32, 0xFFFFFFFF#32⟩,
  ⟨"WBYTELEN", 0x13, false, false, [], 1, 0x00000013#32, 0xFFFFFFFF#32⟩,
  ⟨"WBYTE", 0x14, false, false, [.u32], 1, 0x00000014#32, 0xFFFFFFFF#32⟩,
  ⟨"WCLOSE", 0x15, false, false, [], 0, 0x00000015#32, 0xFFFFFFFF#32⟩,
  ⟨"ROPEN", 0x20, false, false, [], 0, 0x00000020#32, 0xFFFFFFFF#32⟩,
  ⟨"RPUT", 0x21, false, false, [.u32], 0, 0x00000021#32, 0xFFFFFFFF#32⟩,
  ⟨"READ", 0x22, false, true, [], 1, 0x00000022#32, 0xFFFC0FFF#32⟩,
  ⟨"RBYTEPOS", 0x23, false, false, [], 1, 0x00000023#32, 0xFFFFFFFF#32⟩,
  ⟨"RCLOSE", 0x24, false, false, [], 0, 0x00000024#32, 0xFFFFFFFF#32⟩
]

/-- Families 3, 4 and 5 of the opcode map (30_encoding.md R96). -/
def opcodeRowsScalarVector : List OpRow := [
  ⟨"BITCNT", 0x30, false, false, [.i32, .i32], 1, 0x00000030#32, 0xFFFFFFFF#32⟩,
  ⟨"SCALETOU", 0x31, false, false, [.f32, .f32, .f32, .u32, .u32], 1, 0x00000031#32, 0xFFFFFFFF#32⟩,
  ⟨"SCALEFROMU", 0x32, false, false, [.u32, .u32, .u32, .f32, .f32], 1, 0x00000032#32, 0xFFFFFFFF#32⟩,
  ⟨"FCFG", 0x40, true, false, [.f32, .f32], 0, 0x00000040#32, 0xFFFFF0FF#32⟩,
  ⟨"FPACK", 0x41, true, false, [.f32], 0, 0x00000041#32, 0xFFFFF0FF#32⟩,
  ⟨"FUNPACK", 0x42, true, false, [], 1, 0x00000042#32, 0xFFFFF0FF#32⟩,
  ⟨"V2CFG", 0x50, true, false, [.f32, .f32, .f32, .f32], 0, 0x00000050#32, 0xFFFFF0FF#32⟩,
  ⟨"V2PACK", 0x51, true, false, [.f32, .f32], 0, 0x00000051#32, 0xFFFFF0FF#32⟩,
  ⟨"V2UNPACK", 0x52, true, false, [], 2, 0x00000052#32, 0xFFFFF0FF#32⟩,
  ⟨"V3CFG", 0x54, true, false, [.f32, .f32, .f32, .f32, .f32, .f32], 0, 0x00000054#32, 0xFFFFF0FF#32⟩,
  ⟨"V3PACK", 0x55, true, false, [.f32, .f32, .f32], 0, 0x00000055#32, 0xFFFFF0FF#32⟩,
  ⟨"V3UNPACK", 0x56, true, false, [], 3, 0x00000056#32, 0xFFFFF0FF#32⟩
]

/-- Families 6 and 7 of the opcode map (30_encoding.md R96). -/
def opcodeRowsPositionUint : List OpRow := [
  ⟨"PCFG", 0x60, true, false, [.f32, .f32, .f32, .f32, .f32, .f32, .f32], 0, 0x00000060#32, 0xFFFFF0FF#32⟩,
  ⟨"PPACK", 0x61, true, false, [.f32, .f32, .f32], 0, 0x00000061#32, 0xFFFFF0FF#32⟩,
  ⟨"PUNPACK", 0x62, true, false, [], 3, 0x00000062#32, 0xFFFFF0FF#32⟩,
  ⟨"UCFG", 0x70, true, false, [.u32, .u32, .u32], 0, 0x00000070#32, 0xFFFFF0FF#32⟩,
  ⟨"UPACK", 0x71, true, false, [.u32], 0, 0x00000071#32, 0xFFFFF0FF#32⟩,
  ⟨"UUNPACK", 0x72, true, false, [], 1, 0x00000072#32, 0xFFFFF0FF#32⟩,
  ⟨"UPACKN", 0x73, true, false, [.u32, .u32], 0, 0x00000073#32, 0xFFFFF0FF#32⟩,
  ⟨"UUNPACKN", 0x74, true, false, [], 2, 0x00000074#32, 0xFFFFF0FF#32⟩
]

/-- The whole opcode map (30_encoding.md R96). -/
def opcodeMap : List OpRow :=
  opcodeRowsContexts ++ opcodeRowsScalarVector ++ opcodeRowsPositionUint

/-- The row a header's `OPC` names, if any (30_encoding.md R97, step 1). -/
def opcodeRow (h : Word) : Option OpRow := opcodeMap.find? fun row => row.opc == hdrOpc h

/-- The command of an opcode, its header fields and its operand words (30_encoding.md R92, R93, R96); `none` where
the opcode is not in the map or the number of operand words is not its `k`. -/
def buildInstr (opc slot cnt : Nat) (ops : List Word) : Option Instr :=
  match opc, ops with
  | 0x01, [] => some .stat
  | 0x02, [] => some (.slotbits slot)
  | 0x03, [] => some (.umax slot)
  | 0x10, [capBytes] => some (.wopen capBytes)
  | 0x11, [value] => some (.write cnt value)
  | 0x12, [] => some .wreset
  | 0x13, [] => some .wbytelen
  | 0x14, [index] => some (.wbyte index)
  | 0x15, [] => some .wclose
  | 0x20, [] => some .ropen
  | 0x21, [byte] => some (.rput byte)
  | 0x22, [] => some (.read cnt)
  | 0x23, [] => some .rbytepos
  | 0x24, [] => some .rclose
  | 0x30, [min, max] => some (.bitcnt min max)
  | 0x31, [value, srcMin, srcMax, dstMin, dstMax] => some (.scaletou value srcMin srcMax dstMin dstMax)
  | 0x32, [code, srcMin, srcMax, dstMin, dstMax] => some (.scalefromu code srcMin srcMax dstMin dstMax)
  | 0x40, [max, precision] => some (.fcfg slot max precision)
  | 0x41, [value] => some (.fpack slot value)
  | 0x42, [] => some (.funpack slot)
  | 0x50, [maxX, maxY, precX, precY] => some (.v2cfg slot maxX maxY precX precY)
  | 0x51, [x, y] => some (.v2pack slot x y)
  | 0x52, [] => some (.v2unpack slot)
  | 0x54, [maxX, maxY, maxZ, precX, precY, precZ] => some (.v3cfg slot maxX maxY maxZ precX precY precZ)
  | 0x55, [x, y, z] => some (.v3pack slot x y z)
  | 0x56, [] => some (.v3unpack slot)
  | 0x60, [minX, minY, minZ, maxX, maxY, maxZ, precision] => some (.pcfg slot minX minY minZ maxX maxY maxZ precision)
  | 0x61, [x, y, z] => some (.ppack slot x y z)
  | 0x62, [] => some (.punpack slot)
  | 0x70, [small, medium, large] => some (.ucfg slot small medium large)
  | 0x71, [value] => some (.upack slot value)
  | 0x72, [] => some (.uunpack slot)
  | 0x73, [present, value] => some (.upackn slot present value)
  | 0x74, [] => some (.uunpackn slot)
  | _, _ => none

/-- Decoding, in the three steps of 30_encoding.md R97: the opcode (R98), the fields that must be 0 (R99), the
operand count (R100). -/
def decode (p : Packet) : Except DecodeFault Instr :=
  match opcodeRow p.header with
  | none => .error .illegalOpcode
  | some row =>
    if p.header &&& row.mask = row.pattern then
      if p.ops.length = row.operands.length then
        match buildInstr (hdrOpc p.header) (hdrSlot p.header) (hdrCnt p.header) p.ops with
        | some i => .ok i
        | none => .error .operandCount
      else .error .operandCount
    else .error .reservedField

/-- A header word from its fields, `RSV` 0 (30_encoding.md R91). -/
def headerWord (opc slot cnt : Nat) : Word := BitVec.ofNat 32 (opc + 2 ^ 8 * slot + 2 ^ 12 * cnt)

/-- The packet of a command (30_encoding.md R91, R92, R96). -/
def encode : Instr → Packet
  | .stat => ⟨headerWord 0x01 0 0, []⟩
  | .slotbits slot => ⟨headerWord 0x02 slot 0, []⟩
  | .umax slot => ⟨headerWord 0x03 slot 0, []⟩
  | .wopen capBytes => ⟨headerWord 0x10 0 0, [capBytes]⟩
  | .write cnt value => ⟨headerWord 0x11 0 cnt, [value]⟩
  | .wreset => ⟨headerWord 0x12 0 0, []⟩
  | .wbytelen => ⟨headerWord 0x13 0 0, []⟩
  | .wbyte index => ⟨headerWord 0x14 0 0, [index]⟩
  | .wclose => ⟨headerWord 0x15 0 0, []⟩
  | .ropen => ⟨headerWord 0x20 0 0, []⟩
  | .rput byte => ⟨headerWord 0x21 0 0, [byte]⟩
  | .read cnt => ⟨headerWord 0x22 0 cnt, []⟩
  | .rbytepos => ⟨headerWord 0x23 0 0, []⟩
  | .rclose => ⟨headerWord 0x24 0 0, []⟩
  | .bitcnt min max => ⟨headerWord 0x30 0 0, [min, max]⟩
  | .scaletou value srcMin srcMax dstMin dstMax => ⟨headerWord 0x31 0 0, [value, srcMin, srcMax, dstMin, dstMax]⟩
  | .scalefromu code srcMin srcMax dstMin dstMax => ⟨headerWord 0x32 0 0, [code, srcMin, srcMax, dstMin, dstMax]⟩
  | .fcfg slot max precision => ⟨headerWord 0x40 slot 0, [max, precision]⟩
  | .fpack slot value => ⟨headerWord 0x41 slot 0, [value]⟩
  | .funpack slot => ⟨headerWord 0x42 slot 0, []⟩
  | .v2cfg slot maxX maxY precX precY => ⟨headerWord 0x50 slot 0, [maxX, maxY, precX, precY]⟩
  | .v2pack slot x y => ⟨headerWord 0x51 slot 0, [x, y]⟩
  | .v2unpack slot => ⟨headerWord 0x52 slot 0, []⟩
  | .v3cfg slot maxX maxY maxZ precX precY precZ => ⟨headerWord 0x54 slot 0, [maxX, maxY, maxZ, precX, precY, precZ]⟩
  | .v3pack slot x y z => ⟨headerWord 0x55 slot 0, [x, y, z]⟩
  | .v3unpack slot => ⟨headerWord 0x56 slot 0, []⟩
  | .pcfg slot minX minY minZ maxX maxY maxZ precision => ⟨headerWord 0x60 slot 0, [minX, minY, minZ, maxX, maxY, maxZ, precision]⟩
  | .ppack slot x y z => ⟨headerWord 0x61 slot 0, [x, y, z]⟩
  | .punpack slot => ⟨headerWord 0x62 slot 0, []⟩
  | .ucfg slot small medium large => ⟨headerWord 0x70 slot 0, [small, medium, large]⟩
  | .upack slot value => ⟨headerWord 0x71 slot 0, [value]⟩
  | .uunpack slot => ⟨headerWord 0x72 slot 0, []⟩
  | .upackn slot present value => ⟨headerWord 0x73 slot 0, [present, value]⟩
  | .uunpackn slot => ⟨headerWord 0x74 slot 0, []⟩

/-- The packet whose header is the low 32 of the `nbits` bits of `w` and whose operand words follow above it, as
many as the header's opcode takes (none where the opcode is not in the map); bits above `nbits` are 0. -/
def tablePacket (nbits w : Nat) : Packet :=
  let v := w % 2 ^ nbits
  let h : Word := BitVec.ofNat 32 v
  let k := match opcodeRow h with
    | some row => row.operands.length
    | none => 0
  ⟨h, (List.range k).map fun i => BitVec.ofNat 32 (v / 2 ^ (32 * (i + 1)))⟩

/-- What the decoder reads from an instruction whose bits are `w`, numbered as spec/opcode_table.json does. -/
def decodeTableWord (nbits w : Nat) : Option Instr :=
  match decode (tablePacket nbits w) with
  | .ok i => some i
  | .error _ => none

end Sys2Proof
end

