-- ==== Sys2Proof/Machine/Numeric.lean ====
section
/-! DEFINITION. The numeric functions of the spec, all exact (00_scope.md R8, R10): bit lengths, roundings, the
binary32 format at the port (42_scale.md R160 to R162), the scale functions (R163, R164) and `BitCountFromRange`
(46_bitcount.md R240). Outside the domain a rule states, a value here means nothing (log 8). -/

namespace Sys2Proof.Machine

/-- `ceil8(n) = (n + 7) div 8` (00_scope.md R9). -/
def ceil8 (n : Nat) : Nat := (n + 7) / 8

/-- `floor8(n) = n div 8` (00_scope.md R9). -/
def floor8 (n : Nat) : Nat := n / 8

/-- `bitlen(d)`, `d ≥ 1`: the `k` with `2^(k-1) ≤ d < 2^k` (00_scope.md R10). -/
def bitlen (d : Nat) : Nat := Nat.log2 d + 1

/-- `ceilq(q)`: the least integer not below `q` (00_scope.md R10). -/
def ceilq (q : Rat) : Int := ⌈q⌉

/-- `rnd(q) = floor(q + 1/2)`, `q ≥ 0`: to nearest, a tie upward (00_scope.md R10). -/
def rnd (q : Rat) : Nat := ⌊q + 1 / 2⌋.toNat

/-- `rne(q)`, `q ≥ 0`: the nearest integer, a tie to the even one (42_scale.md R162). -/
def rne (q : Rat) : Nat :=
  let f := ⌊q⌋
  let d := q - f
  (if d < 1 / 2 then f else if 1 / 2 < d then f + 1 else if f % 2 = 0 then f else f + 1).toNat

/-- `clamp(q, lo, hi)` (00_scope.md R10). -/
def clamp (q lo hi : Rat) : Rat := if q < lo then lo else if hi < q then hi else q

/-- `2^k` in `Q`, for an exponent of either sign. -/
def pow2 : Int → Rat
  | .ofNat n => mkRat (2 ^ n) 1
  | .negSucc n => mkRat 1 (2 ^ (n + 1))

/-- `(-1)^s * m * 2^k` in `Q`. -/
def scaled (s : Bool) (m : Nat) : Int → Rat
  | .ofNat n => mkRat (if s then -(m * 2 ^ n : Nat) else (m * 2 ^ n : Nat)) 1
  | .negSucc n => mkRat (if s then -(m : Int) else m) (2 ^ (n + 1))

/-- `f32dec(w)` (42_scale.md R160, R161); `none` is `NonFinite`. -/
def f32dec (w : Word) : Option Rat :=
  let s := bitField w 31 31 = 1
  let e := bitField w 30 23
  let m := bitField w 22 0
  if e = 255 then none
  else if e = 0 then some (scaled s m (-149))
  else some (scaled s (2 ^ 23 + m) ((e : Int) - 150))

/-- The `E` with `2^E ≤ a < 2^(E+1)`, `a > 0` (42_scale.md R162). -/
def expo (a : Rat) : Int :=
  let k : Int := (Nat.log2 a.num.toNat : Int) - Nat.log2 a.den
  if pow2 k ≤ a then k else k - 1

/-- A binary32 word from its sign and from what stands below it: `s << 31 | x`, `x < 2^31`. -/
def f32word (neg : Bool) (x : Nat) : Word := BitVec.ofNat 32 ((if neg then 2 ^ 31 else 0) + x)

/-- `f32enc(q)` (42_scale.md R162): the nearest binary32 word, a tie to the even significand, every zero
`0x00000000`. -/
def f32enc (q : Rat) : Word :=
  if q = 0 then 0
  else
    let neg : Bool := q < 0
    let a := |q|
    let E := expo a
    if E < -126 then
      let m := rne (a * pow2 149)
      if m = 0 then 0 else f32word neg m
    else
      let m := rne (a / pow2 (E - 23))
      if m = 2 ^ 24 then f32word neg ((E + 1 + 127).toNat * 2 ^ 23)
      else f32word neg ((E + 127).toNat * 2 ^ 23 + (m - 2 ^ 23))

/-- `ScaleToUInt(v, sMin, sMax, dMin, dMax)` (42_scale.md R163). -/
def scaleToUInt (v sMin sMax : Rat) (dMin dMax : Nat) : Nat :=
  rnd (dMin + (v - sMin) * ((dMax : Rat) - dMin) / (sMax - sMin))

/-- `ScaleFromUInt(c, uMin, uMax, fMin, fMax)` (42_scale.md R164). -/
def scaleFromUInt (c uMin uMax : Nat) (fMin fMax : Rat) : Rat :=
  fMin + ((c : Rat) - uMin) * (fMax - fMin) / ((uMax : Rat) - uMin)

/-- `BitCountFromRange(min, max)`, `min < max` (46_bitcount.md R240). -/
def bitCountFromRange (min max : Int) : Nat := bitlen (max - min).toNat

/-- The largest code of a width: `2^n - 1` (`mask(n)` of 00_scope.md R9; `M` of 10_state.md R42, R44). -/
def maxCode (n : Nat) : Nat := 2 ^ n - 1

end Sys2Proof.Machine
end

