-- ==== Sys2Proof/Machine/Ops.lean ====
section
/-! DEFINITION. The operations every command is written with: reading and writing the state, `raise` and the entry of a
fault (60_exceptions.md R285), poisoning (R288), the storage accesses, the preludes, the primitive write and read
steps (40_writer.md R120, R121, R128; 41_reader.md R140, R142, R148), the slot check (10_state.md R49), the command
port and the reset input. -/

namespace Sys2Proof.Machine

/-- The lines of a command's pseudocode (00_scope.md R11): they run on the state one after the other, and the first
`raise` ends them, the state changes made so far standing (60_exceptions.md R285). -/
abbrev Cmd (α : Type) := EStateM Stop State α

/-! ### Faults -/

/-- `raise Kind(info)` (00_scope.md R11, 60_exceptions.md R285). -/
def raise {α : Type} (kind : FaultKind) (info : Nat) : Cmd α := fun s =>
  .error (.raised ⟨kind, BitVec.ofNat 8 info, none⟩) s

/-- `raise Kind(info, a, b)`: with the two detail words (00_scope.md R11, 60_exceptions.md R284, R285). -/
def raiseWith {α : Type} (kind : FaultKind) (info a b : Nat) : Cmd α := fun s =>
  .error (.raised ⟨kind, BitVec.ofNat 8 info, some (BitVec.ofNat 32 a, BitVec.ofNat 32 b)⟩) s

/-- One check line: `if c : raise Kind(info)`. -/
def raiseIf (c : Prop) [Decidable c] (kind : FaultKind) (info : Nat) : Cmd Unit :=
  if c then raise kind info else pure ()

/-- `INFO` of a fault with no operand at fault (60_exceptions.md R283). -/
def infoNone : Nat := 0xFF

/-- `INFO`: the `CNT` field is outside the command's domain (60_exceptions.md R283). -/
def infoCount : Nat := 0x83

/-- `INFO`: no such slot, or a slot of another kind (60_exceptions.md R283). -/
def infoSlot : Nat := 0x84

/-- `INFO`: the context is already open (60_exceptions.md R283). -/
def infoOpen : Nat := 0x85

/-- The response of a fault: its kind, its `INFO`, and its detail words if it has any (60_exceptions.md R285 (3)). -/
def Raise.response (f : Raise) : Response where
  fault := some f.kind
  info := f.info
  results := match f.detail with
    | none => []
    | some (a, b) => [a, b]

/-- The response of a command that did what its rule says (30_encoding.md R94, R95). -/
def okResponse (results : List Word) : Response := ⟨none, 0, results⟩

/-- The engine answers: the response joins the responses given (30_encoding.md R94). -/
def State.respond (s : State) (r : Response) : State := { s with responses := s.responses ++ [r] }

/-- FAULT ENTRY (60_exceptions.md R285): the response is given and nothing else changes; nothing is saved and the
engine is ready for the next command. There is no return from a fault (R290). -/
def takeFault (f : Raise) (s : State) : State := s.respond f.response

/-- Runs a command's lines to its response: its results, or the fault that ended it. -/
def run (c : Cmd (List Word)) (s : State) : Host.Outcome State Fault Refusal :=
  match c s with
  | .ok results s' => .next (s'.respond (okResponse results))
  | .error (.raised f) s' => .next (takeFault f s')
  | .error (.fault e) _ => .fault e

/-- The fault of a packet that decodes to no command (30_encoding.md R98 to R100). -/
def decodeRaise : DecodeFault → Raise
  | .illegalOpcode => ⟨.invalidArgument, 0x80, none⟩
  | .reservedField => ⟨.invalidArgument, 0x81, none⟩
  | .operandCount => ⟨.invalidArgument, 0x82, none⟩

/-! ### The state -/

/-- The state a line reads. -/
def getState : Cmd State := fun s => .ok s s

/-- `W.f <- v`. -/
def modifyWriter (f : Writer → Writer) : Cmd Unit := fun s => .ok () { s with w := f s.w }

/-- `R.f <- v`. -/
def modifyReader (f : Reader → Reader) : Cmd Unit := fun s => .ok () { s with r := f s.r }

/-- The writer from the moment its poison flag is set: `W.wbit` and `W.mem` are UNSPECIFIED, `W.cap` keeps its value
(10_state.md R25, 60_exceptions.md R288). FREE VALUES, within the types of 10_state.md R23 (log 4). -/
def Writer.poisoned (w : Writer) (n : Nat) : Writer :=
  { w with
    poison := true
    wbit := Config.freeWriterCursor n % (w.cap + 1)
    mem := Memory.ofCells w.mem.size (Config.freeWriterBytes n) }

/-- The reader from the moment its poison flag is set: `R.rbit`, `R.limit` and `R.mem` are UNSPECIFIED
(10_state.md R33, 60_exceptions.md R288). FREE VALUES, within the types of 10_state.md R31 (log 4). -/
def Reader.poisoned (r : Reader) (n : Nat) : Reader :=
  let limit := 8 * (Config.freeReaderLimit n % (r.mem.size + 1))
  { r with
    poison := true
    limit := limit
    rbit := Config.freeReaderCursor n % (limit + 1)
    mem := Memory.ofCells r.mem.size (Config.freeReaderBytes n) }

/-- `W.poison <- 1` (60_exceptions.md R288). -/
def poisonWriter : Cmd Unit := fun s =>
  .ok () { s with w := s.w.poisoned s.freeIdx, freeIdx := s.freeIdx + 1 }

/-- `R.poison <- 1` (60_exceptions.md R288). -/
def poisonReader : Cmd Unit := fun s =>
  .ok () { s with r := s.r.poisoned s.freeIdx, freeIdx := s.freeIdx + 1 }

/-! ### The storages -/

/-- `MemRead(W, a, n)` (20_memory.md R64); an address past the storage does not exist (R72). -/
def memReadW (a n : Nat) : Cmd Nat := fun s =>
  if a + n ≤ s.w.mem.bitSize then .ok (s.w.mem.read a n) s else .error (.fault .noSuchAddress) s

/-- `MemRead(R, a, n)` (20_memory.md R64). -/
def memReadR (a n : Nat) : Cmd Nat := fun s =>
  if a + n ≤ s.r.mem.bitSize then .ok (s.r.mem.read a n) s else .error (.fault .noSuchAddress) s

/-- `MemWrite(W, a, n, v)` (20_memory.md R65). -/
def memWriteW (a n v : Nat) : Cmd Unit := fun s =>
  if a + n ≤ s.w.mem.bitSize then .ok () { s with w := { s.w with mem := s.w.mem.write a n v } }
  else .error (.fault .noSuchAddress) s

/-- `MemWrite(R, a, n, v)` (20_memory.md R65). -/
def memWriteR (a n v : Nat) : Cmd Unit := fun s =>
  if a + n ≤ s.r.mem.bitSize then .ok () { s with r := { s.r with mem := s.r.mem.write a n v } }
  else .error (.fault .noSuchAddress) s

/-- `for every a in 0 .. n-1: bit(W, a) <- 0` (40_writer.md R122, R124). -/
def memClearW (n : Nat) : Cmd Unit := fun s =>
  if n ≤ s.w.mem.bitSize then .ok () { s with w := { s.w with mem := s.w.mem.clear n } }
  else .error (.fault .noSuchAddress) s

/-- `for every a in 0 .. n-1: bit(R, a) <- 0` (41_reader.md R141). -/
def memClearR (n : Nat) : Cmd Unit := fun s =>
  if n ≤ s.r.mem.bitSize then .ok () { s with r := { s.r with mem := s.r.mem.clear n } }
  else .error (.fault .noSuchAddress) s

/-! ### The writer -/

/-- `RequireWriter()` (40_writer.md R120). -/
def requireWriter : Cmd Unit := do
  let s ← getState
  raiseIf (s.w.live = false) .disposedResource infoNone
  raiseIf (s.w.poison = true) .poisoned infoNone

/-- `Reserve(t)`: the whole command's capacity check (40_writer.md R128). -/
def reserve (t : Nat) : Cmd Unit := do
  let s ← getState
  if s.w.wbit + t > s.w.cap then
    poisonWriter
    raiseWith .overflow infoNone t (s.w.cap - s.w.wbit)
  else pure ()

/-- The commit lines of the primitive write step (40_writer.md R121): the low `n` bits of `v` go to the stream at the
cursor, and the cursor advances. -/
def appendBits (v n : Nat) : Cmd Unit := do
  let s ← getState
  memWriteW s.w.wbit n (v % 2 ^ n)
  modifyWriter fun w => { w with wbit := w.wbit + n }

/-- The primitive write step `Write(v, n)` (40_writer.md R121). -/
def writeBits (v n : Nat) : Cmd Unit := do
  if n > 32 then
    poisonWriter
    raise .invalidArgument infoCount
  else if n = 0 then pure ()
  else
    reserve n
    appendBits v n

/-! ### The reader -/

/-- `RequireReader()` (41_reader.md R140). -/
def requireReader : Cmd Unit := do
  let s ← getState
  raiseIf (s.r.live = false) .disposedResource infoNone
  raiseIf (s.r.poison = true) .poisoned infoNone

/-- `Require(t)`: the check that `t` bits are left to read (41_reader.md R148). -/
def require (t : Nat) : Cmd Unit := do
  let s ← getState
  if s.r.rbit + t > s.r.limit then
    poisonReader
    raiseWith .underflow infoNone t (s.r.limit - s.r.rbit)
  else pure ()

/-- The commit lines of the primitive read step (41_reader.md R142): `n` bits from the cursor, which advances. -/
def takeBits (n : Nat) : Cmd Nat := do
  let s ← getState
  let v ← memReadR s.r.rbit n
  modifyReader fun r => { r with rbit := r.rbit + n }
  pure v

/-- The primitive read step `Read(n)` (41_reader.md R142). -/
def readBits (n : Nat) : Cmd Nat := do
  if n = 0 ∨ n > 32 then
    poisonReader
    raise .invalidArgument infoCount
  else
    require n
    takeBits n

/-! ### The slot table -/

/-- `NSLOT`: the length of the slot table (00_scope.md R7, 10_state.md R40). -/
def State.nslot (s : State) : Nat := s.slots.length

/-- The parameters of the instance, which are the sizes of its storages and of its slot table (00_scope.md R7,
10_state.md R48; log 6). -/
def State.params (s : State) : Config.Params := ⟨s.w.mem.size, s.r.mem.size, s.slots.length⟩

/-- The axis of a `FLOAT` descriptor. -/
def Descriptor.asFloat : Descriptor → Option Axis
  | .float ax => some ax
  | _ => none

/-- The axes of a `VEC2` descriptor. -/
def Descriptor.asVec2 : Descriptor → Option (Axis × Axis)
  | .vec2 x y => some (x, y)
  | _ => none

/-- The axes of a `VEC3` descriptor. -/
def Descriptor.asVec3 : Descriptor → Option (Axis × Axis × Axis)
  | .vec3 x y z => some (x, y, z)
  | _ => none

/-- The axes of a `POS` descriptor. -/
def Descriptor.asPos : Descriptor → Option (PosAxis × PosAxis × PosAxis)
  | .pos x y z _ => some (x, y, z)
  | _ => none

/-- The widths of a `UVAR` descriptor. -/
def Descriptor.asUvar : Descriptor → Option (Nat × Nat × Nat)
  | .uvar small medium large => some (small, medium, large)
  | _ => none

/-- The part of slot `slot` that a command can use, if the slot exists and has it. -/
def State.slotAs {α : Type} (s : State) (slot : Nat) (view : Descriptor → Option α) : Option α :=
  match s.slots[slot]? with
  | none => none
  | some d => view d

/-- `RequireSlot(k)` (10_state.md R49), the kind given by the view of a descriptor the command uses. -/
def requireSlot {α : Type} (slot : Nat) (view : Descriptor → Option α) : Cmd α := fun s =>
  match s.slotAs slot view with
  | some d => .ok d s
  | none => raise .invalidArgument infoSlot s

/-- The slot check of a configuration command: `if hdr.SLOT >= NSLOT : raise InvalidArgument(0x84)`. -/
def requireSlotIndex (slot : Nat) : Cmd Unit := do
  let s ← getState
  raiseIf (slot ≥ s.nslot) .invalidArgument infoSlot

/-- `SLOT[hdr.SLOT] <- d`: the whole slot is replaced (10_state.md R46). -/
def setSlot (slot : Nat) (d : Descriptor) : Cmd Unit := fun s =>
  .ok () { s with slots := s.slots.set slot d }

/-! ### The port -/

/-- The next event the host presents, if any, and the state without it (10_state.md R20, 20_memory.md R74). -/
def nextEvent (s : State) : Option (PortEvent × State) :=
  match s.port with
  | [] => none
  | e :: rest => some (e, { s with port := rest })

/-- The reset input (70_reset_and_hazards.md R310): every piece of the spec's state takes the value of 10_state.md R50,
where the storages are UNSPECIFIED: FREE VALUES (log 7). What the host holds, its events still to come and the
responses it has taken, is not state of the engine. -/
def applyReset (s : State) : State where
  w := { live := false, poison := false, cap := 0, wbit := 0,
         mem := Memory.ofCells s.w.mem.size (Config.freeWriterBytes s.freeIdx) }
  r := { live := false, poison := false, limit := 0, rbit := 0,
         mem := Memory.ofCells s.r.mem.size (Config.freeReaderBytes s.freeIdx) }
  slots := List.replicate s.nslot .empty
  port := s.port
  responses := s.responses
  freeIdx := s.freeIdx + 1

/-- The host presents one more event before all others. -/
def presentFirst (e : PortEvent) (s : State) : State := { s with port := e :: s.port }

end Sys2Proof.Machine
end

