-- ==== Sys2Proof/Machine/Operands.lean ====
section
/-! DEFINITION. The operand words of a command (30_encoding.md R92, R93): their values as `u32`, `i32` and `f32`, and
the checks made on them (42_scale.md R168). -/

namespace Sys2Proof.Machine

/-- The value of a `u32` operand word. -/
def u32 (w : Word) : Nat := w.toNat

/-- The value `s32(w)` of an `i32` operand word: two's complement (00_scope.md R11). -/
def s32 (w : Word) : Int := w.toInt

/-- A result word of type `u32` (30_encoding.md R95). -/
def resultWord (v : Nat) : Word := BitVec.ofNat 32 v

/-- `Fin(i)`: the rational value of the `f32` operand word `i`, or InvalidArgument naming it (42_scale.md R168). -/
def finite (i : Nat) (w : Word) : Cmd Rat :=
  match f32dec w with
  | none => raise .invalidArgument i
  | some q => pure q

end Sys2Proof.Machine
end

