-- ==== Sys2Proof/Machine/Diagnostics.lean ====
section
/-! DEFINITION. The diagnostic commands `STAT`, `SLOTBITS`, `UMAX` (48_diagnostics.md). -/

namespace Sys2Proof.Machine

/-- `bitCount` of an axis: the sign bit and the magnitude bits (10_state.md R42). -/
def Axis.bitCount (ax : Axis) : Nat := 1 + ax.mag

/-- The total bit count of a packer that has one (48_diagnostics.md R271; 10_state.md R42 to R44). -/
def Descriptor.bitCount : Descriptor → Option Nat
  | .empty => none
  | .float ax => some ax.bitCount
  | .vec2 x y => some (x.bitCount + y.bitCount)
  | .vec3 x y z => some (x.bitCount + y.bitCount + z.bitCount)
  | .pos x y z _ => some (x.bits + y.bits + z.bits)
  | .uvar _ _ _ => none

/-- `STAT` (48_diagnostics.md R270). -/
def execStat (s : State) : Host.Outcome State Fault Refusal :=
  run (do
    let s ← getState
    pure [statusWord s]) s

/-- `SLOTBITS s` (48_diagnostics.md R271). -/
def execSlotbits (slot : Nat) (s : State) : Host.Outcome State Fault Refusal :=
  run (do
    let b ← requireSlot slot Descriptor.bitCount
    pure [resultWord b, resultWord (ceil8 b), resultWord (floor8 b)]) s

/-- `UMAX s` (48_diagnostics.md R272). -/
def execUmax (slot : Nat) (s : State) : Host.Outcome State Fault Refusal :=
  run (do
    let d ← requireSlot slot Descriptor.asUvar
    pure [resultWord (2 ^ d.2.2 - 1)]) s

end Sys2Proof.Machine
end

