-- ==== Sys2Proof/Machine/FloatPacker.lean ====
section
/-! DEFINITION. The FloatPacker: the axis helpers `AxisDerive`, `AxisCheck`, `AxisEmit`, `AxisTake` and the commands
`FCFG`, `FPACK`, `FUNPACK` (43_floatpacker.md). -/

namespace Sys2Proof.Machine

/-- `AxisDerive(iMax, iPrec)`, with the two operand words and their indices (43_floatpacker.md R181). -/
def axisDerive (iMax : Nat) (maxWord : Word) (iPrec : Nat) (precWord : Word) : Cmd Axis := do
  let mx ← finite iMax maxWord
  raiseIf (mx ≤ 0) .invalidArgument iMax
  let pr ← finite iPrec precWord
  raiseIf (pr ≤ 0) .invalidArgument iPrec
  raiseIf (ceilq (mx / pr) > 2 ^ 31 - 1) .invalidArgument iPrec
  pure { max := mx, prec := pr, mag := bitCountFromRange 0 (ceilq (mx / pr)) }

/-- `AxisCheck(ax, i)`: the value operand `i` against one axis (43_floatpacker.md R185). -/
def axisCheck (ax : Axis) (i : Nat) (value : Word) : Cmd Rat := do
  let v ← finite i value
  raiseIf (|v| > ax.max) .outOfRange i
  pure v

/-- The sign bit of a value: 1 exactly when `v < 0` as a rational (43_floatpacker.md R186). -/
def signBit (v : Rat) : Nat := if v < 0 then 1 else 0

/-- The magnitude code of a value on an axis: `rnd(|v| * M / max)` (43_floatpacker.md R186). -/
def axisCode (ax : Axis) (v : Rat) : Nat := scaleToUInt |v| 0 ax.max 0 (maxCode ax.mag)

/-- `AxisEmit(ax, v)`: the sign bit, then the magnitude code (43_floatpacker.md R186). -/
def axisEmit (ax : Axis) (v : Rat) : Cmd Unit := do
  writeBits (signBit v) 1
  writeBits (axisCode ax v) ax.mag

/-- The word an axis gives back for a sign bit and a magnitude code (43_floatpacker.md R187). -/
def axisWord (ax : Axis) (sg c : Nat) : Word :=
  let q := scaleFromUInt c 0 (maxCode ax.mag) 0 ax.max
  f32enc (if sg = 1 then -q else q)

/-- `AxisTake(ax)`: a sign bit, then a magnitude code (43_floatpacker.md R187). -/
def axisTake (ax : Axis) : Cmd Word := do
  let sg ← readBits 1
  let c ← readBits ax.mag
  pure (axisWord ax sg c)

/-- `FCFG s, max, precision` (43_floatpacker.md R180). -/
def execFcfg (slot : Nat) (max precision : Word) (s : State) : Host.Outcome State Fault Refusal :=
  run (do
    requireSlotIndex slot
    let ax ← axisDerive 0 max 1 precision
    setSlot slot (.float ax)
    pure []) s

/-- `FPACK s, value` (43_floatpacker.md R182). -/
def execFpack (slot : Nat) (value : Word) (s : State) : Host.Outcome State Fault Refusal :=
  run (do
    requireWriter
    let ax ← requireSlot slot Descriptor.asFloat
    let v ← axisCheck ax 0 value
    reserve ax.bitCount
    axisEmit ax v
    pure []) s

/-- `FUNPACK s` (43_floatpacker.md R183). -/
def execFunpack (slot : Nat) (s : State) : Host.Outcome State Fault Refusal :=
  run (do
    requireReader
    let ax ← requireSlot slot Descriptor.asFloat
    require ax.bitCount
    let x ← axisTake ax
    pure [x]) s

end Sys2Proof.Machine
end

