-- ==== Sys2Proof/Machine/PositionPacker.lean ====
section
/-! DEFINITION. The PositionPacker: `PCFG`, `PPACK`, `PUNPACK` (45_positionpacker.md). -/

namespace Sys2Proof.Machine

/-- `range[a] = max[a] - min[a]` (45_positionpacker.md R221). -/
def PosAxis.range (ax : PosAxis) : Rat := ax.max - ax.min

/-- `N[a] = rnd(range[a] / prec)`: the steps of one axis (45_positionpacker.md R221). -/
def posSteps (min max prec : Rat) : Nat := rnd ((max - min) / prec)

/-- The checks and the code width of axis `a` (0, 1, 2) of a `PCFG` (45_positionpacker.md R220, R221). -/
def posAxisDerive (a : Nat) (min max prec : Rat) : Cmd PosAxis := do
  raiseIf (min ≥ max) .invalidArgument (3 + a)
  raiseIf (posSteps min max prec < 1) .invalidArgument 6
  raiseIf (posSteps min max prec > 2 ^ 31 - 1) .invalidArgument 6
  pure { min := min, max := max, bits := bitCountFromRange 0 (posSteps min max prec) }

/-- The code of a value on one axis: clamped to the bounds, then quantized over the full code space
(45_positionpacker.md R222). -/
def posCode (ax : PosAxis) (v : Rat) : Nat :=
  scaleToUInt (clamp (v - ax.min) 0 ax.range) 0 ax.range 0 (maxCode ax.bits)

/-- The word of a code on one axis: `min + c * range / M`, then one rounding (45_positionpacker.md R223). -/
def posWord (ax : PosAxis) (c : Nat) : Word :=
  f32enc (ax.min + scaleFromUInt c 0 (maxCode ax.bits) 0 ax.range)

/-- One axis of `PPACK` (45_positionpacker.md R222). -/
def posEmit (ax : PosAxis) (v : Rat) : Cmd Unit := writeBits (posCode ax v) ax.bits

/-- One axis of `PUNPACK` (45_positionpacker.md R223). -/
def posTake (ax : PosAxis) : Cmd Word := do
  let c ← readBits ax.bits
  pure (posWord ax c)

/-- `PCFG s, min.x, min.y, min.z, max.x, max.y, max.z, precision` (45_positionpacker.md R220). -/
def execPcfg (slot : Nat) (minX minY minZ maxX maxY maxZ precision : Word) (s : State) :
    Host.Outcome State Fault Refusal :=
  run (do
    requireSlotIndex slot
    let x0 ← finite 0 minX
    let y0 ← finite 1 minY
    let z0 ← finite 2 minZ
    let x1 ← finite 3 maxX
    let y1 ← finite 4 maxY
    let z1 ← finite 5 maxZ
    let pr ← finite 6 precision
    raiseIf (pr ≤ 0) .invalidArgument 6
    let x ← posAxisDerive 0 x0 x1 pr
    let y ← posAxisDerive 1 y0 y1 pr
    let z ← posAxisDerive 2 z0 z1 pr
    setSlot slot (.pos x y z pr)
    pure []) s

/-- `PPACK s, x, y, z` (45_positionpacker.md R222). -/
def execPpack (slot : Nat) (x y z : Word) (s : State) : Host.Outcome State Fault Refusal :=
  run (do
    requireWriter
    let d ← requireSlot slot Descriptor.asPos
    let vx ← finite 0 x
    let vy ← finite 1 y
    let vz ← finite 2 z
    reserve (d.1.bits + d.2.1.bits + d.2.2.bits)
    posEmit d.1 vx
    posEmit d.2.1 vy
    posEmit d.2.2 vz
    pure []) s

/-- `PUNPACK s` (45_positionpacker.md R223). -/
def execPunpack (slot : Nat) (s : State) : Host.Outcome State Fault Refusal :=
  run (do
    requireReader
    let d ← requireSlot slot Descriptor.asPos
    require (d.1.bits + d.2.1.bits + d.2.2.bits)
    let x ← posTake d.1
    let y ← posTake d.2.1
    let z ← posTake d.2.2
    pure [x, y, z]) s

end Sys2Proof.Machine
end

