-- ==== Sys2Proof/Machine/PureCommands.lean ====
section
/-! DEFINITION. The pure functions as commands: `BITCNT` (46_bitcount.md), `SCALETOU`, `SCALEFROMU` (42_scale.md). They
read and write no state. -/

namespace Sys2Proof.Machine

/-- `BITCNT min, max` (46_bitcount.md R241). -/
def execBitcnt (min max : Word) (s : State) : Host.Outcome State Fault Refusal :=
  run (do
    raiseIf (s32 min ≥ s32 max) .invalidArgument 1
    pure [resultWord (bitCountFromRange (s32 min) (s32 max))]) s

/-- `SCALETOU value, srcMin, srcMax, dstMin, dstMax` (42_scale.md R165). -/
def execScaletou (value srcMin srcMax dstMin dstMax : Word) (s : State) : Host.Outcome State Fault Refusal :=
  run (do
    let v ← finite 0 value
    let a ← finite 1 srcMin
    let b ← finite 2 srcMax
    raiseIf (b ≤ a) .invalidArgument 2
    raiseIf (u32 dstMax ≤ u32 dstMin) .invalidArgument 4
    raiseIf (v < a ∨ v > b) .outOfRange 0
    pure [resultWord (scaleToUInt v a b (u32 dstMin) (u32 dstMax))]) s

/-- `SCALEFROMU code, srcMin, srcMax, dstMin, dstMax` (42_scale.md R166). -/
def execScalefromu (code srcMin srcMax dstMin dstMax : Word) (s : State) : Host.Outcome State Fault Refusal :=
  run (do
    raiseIf (u32 srcMax ≤ u32 srcMin) .invalidArgument 2
    let a ← finite 3 dstMin
    let b ← finite 4 dstMax
    raiseIf (b ≤ a) .invalidArgument 4
    raiseIf (u32 code < u32 srcMin ∨ u32 code > u32 srcMax) .outOfRange 0
    pure [f32enc (scaleFromUInt (u32 code) (u32 srcMin) (u32 srcMax) a b)]) s

end Sys2Proof.Machine
end

