-- ==== Sys2Proof/Machine/ReaderCommands.lean ====
section
/-! DEFINITION. The BitBuffer reader commands `ROPEN`, `RPUT`, `READ`, `RBYTEPOS`, `RCLOSE` (41_reader.md). -/

namespace Sys2Proof.Machine

/-- `ROPEN` (41_reader.md R141). -/
def execRopen (s : State) : Host.Outcome State Fault Refusal :=
  run (do
    let s ← getState
    raiseIf (s.r.live = true) .invalidArgument infoOpen
    memClearR s.r.mem.bitSize
    modifyReader fun r => { r with live := true, poison := false, limit := 0, rbit := 0 }
    pure []) s

/-- `RPUT byte` (41_reader.md R143). -/
def execRput (byte : Word) (s : State) : Host.Outcome State Fault Refusal :=
  run (do
    requireReader
    let s ← getState
    if s.r.limit + 8 > s.r.mem.bitSize then
      poisonReader
      raiseWith .overflow infoNone 8 (s.r.mem.bitSize - s.r.limit)
    else
      memWriteR s.r.limit 8 (u32 byte % 2 ^ 8)
      modifyReader fun r => { r with limit := r.limit + 8 }
      pure []) s

/-- `READ #cnt` (41_reader.md R144). -/
def execRead (cnt : Nat) (s : State) : Host.Outcome State Fault Refusal :=
  run (do
    requireReader
    let v ← readBits cnt
    pure [resultWord v]) s

/-- `RBYTEPOS` (41_reader.md R145). -/
def execRbytepos (s : State) : Host.Outcome State Fault Refusal :=
  run (do
    requireReader
    let s ← getState
    pure [resultWord (floor8 s.r.rbit)]) s

/-- `RCLOSE` (41_reader.md R146). -/
def execRclose (s : State) : Host.Outcome State Fault Refusal :=
  run (do
    let s ← getState
    raiseIf (s.r.live = false) .disposedResource infoNone
    modifyReader fun r => { r with live := false, poison := false, limit := 0, rbit := 0 }
    pure []) s

end Sys2Proof.Machine
end

