-- ==== Sys2Proof/Machine/UIntVariable.lean ====
section
/-! DEFINITION. The UIntVariablePacker: `USize`, `UEmit`, `UTake` and the commands `UCFG`, `UPACK`, `UUNPACK`, `UPACKN`,
`UUNPACKN` (47_uintvariable.md). A packer is the triple (small, medium, large) of its widths (R250). -/

namespace Sys2Proof.Machine

/-- `USize(d, v)`: the bits that `UEmit` writes (47_uintvariable.md R252). -/
def uSize (d : Nat × Nat × Nat) (v : Nat) : Nat :=
  if v < 2 ^ d.1 then 1 + d.1 else if v < 2 ^ d.2.1 then 2 + d.2.1 else 2 + d.2.2

/-- `UEmit(d, v)`: the selector bits, then the payload (47_uintvariable.md R251, R252). -/
def uEmit (d : Nat × Nat × Nat) (v : Nat) : Cmd Unit := do
  if v < 2 ^ d.1 then
    writeBits 0 1
    writeBits v d.1
  else if v < 2 ^ d.2.1 then
    writeBits 1 1
    writeBits 0 1
    writeBits v d.2.1
  else
    writeBits 1 1
    writeBits 1 1
    writeBits v d.2.2

/-- `UTake(d)`: one or two selector bits, then the payload of that bin (47_uintvariable.md R254). -/
def uTake (d : Nat × Nat × Nat) : Cmd Nat := do
  let b ← readBits 1
  if b = 0 then readBits d.1
  else
    let c ← readBits 1
    if c = 0 then readBits d.2.1 else readBits d.2.2

/-- `UCFG s, small, medium, large` (47_uintvariable.md R250). -/
def execUcfg (slot : Nat) (small medium large : Word) (s : State) : Host.Outcome State Fault Refusal :=
  run (do
    requireSlotIndex slot
    raiseIf (u32 small < 1) .invalidArgument 0
    raiseIf (u32 medium ≤ u32 small) .invalidArgument 1
    raiseIf (u32 large ≤ u32 medium) .invalidArgument 2
    raiseIf (u32 large > 32) .invalidArgument 2
    setSlot slot (.uvar (u32 small) (u32 medium) (u32 large))
    pure []) s

/-- `UPACK s, value` (47_uintvariable.md R253). -/
def execUpack (slot : Nat) (value : Word) (s : State) : Host.Outcome State Fault Refusal :=
  run (do
    requireWriter
    let d ← requireSlot slot Descriptor.asUvar
    raiseIf (u32 value ≥ 2 ^ d.2.2) .outOfRange 0
    reserve (uSize d (u32 value))
    uEmit d (u32 value)
    pure []) s

/-- `UUNPACK s` (47_uintvariable.md R255). -/
def execUunpack (slot : Nat) (s : State) : Host.Outcome State Fault Refusal :=
  run (do
    requireReader
    let d ← requireSlot slot Descriptor.asUvar
    let v ← uTake d
    pure [resultWord v]) s

/-- `UPACKN s, present, value`: only bit 0 of `present` is used (47_uintvariable.md R256). -/
def execUpackn (slot : Nat) (present value : Word) (s : State) : Host.Outcome State Fault Refusal :=
  run (do
    requireWriter
    let d ← requireSlot slot Descriptor.asUvar
    if u32 present % 2 = 0 then
      reserve 1
      writeBits 0 1
      pure []
    else
      raiseIf (u32 value ≥ 2 ^ d.2.2) .outOfRange 1
      reserve (1 + uSize d (u32 value))
      writeBits 1 1
      uEmit d (u32 value)
      pure []) s

/-- `UUNPACKN s` (47_uintvariable.md R257). -/
def execUunpackn (slot : Nat) (s : State) : Host.Outcome State Fault Refusal :=
  run (do
    requireReader
    let d ← requireSlot slot Descriptor.asUvar
    let b ← readBits 1
    if b = 0 then pure [resultWord 0, resultWord 0]
    else
      let v ← uTake d
      pure [resultWord 1, resultWord v]) s

end Sys2Proof.Machine
end

