-- ==== Sys2Proof/Machine/VectorPackers.lean ====
section
/-! DEFINITION. The Vector2Packer and the Vector3Packer: `V2CFG`, `V2PACK`, `V2UNPACK`, `V3CFG`, `V3PACK`, `V3UNPACK`
(44_vectorpackers.md), the FloatPacker's axis helpers applied to each axis in the order x, y, z (R206). -/

namespace Sys2Proof.Machine

/-- `V2CFG s, max.x, max.y, prec.x, prec.y` (44_vectorpackers.md R200). -/
def execV2cfg (slot : Nat) (maxX maxY precX precY : Word) (s : State) : Host.Outcome State Fault Refusal :=
  run (do
    requireSlotIndex slot
    let x ← axisDerive 0 maxX 2 precX
    let y ← axisDerive 1 maxY 3 precY
    setSlot slot (.vec2 x y)
    pure []) s

/-- `V2PACK s, x, y` (44_vectorpackers.md R201). -/
def execV2pack (slot : Nat) (x y : Word) (s : State) : Host.Outcome State Fault Refusal :=
  run (do
    requireWriter
    let d ← requireSlot slot Descriptor.asVec2
    let vx ← axisCheck d.1 0 x
    let vy ← axisCheck d.2 1 y
    reserve (d.1.bitCount + d.2.bitCount)
    axisEmit d.1 vx
    axisEmit d.2 vy
    pure []) s

/-- `V2UNPACK s` (44_vectorpackers.md R202). -/
def execV2unpack (slot : Nat) (s : State) : Host.Outcome State Fault Refusal :=
  run (do
    requireReader
    let d ← requireSlot slot Descriptor.asVec2
    require (d.1.bitCount + d.2.bitCount)
    let x ← axisTake d.1
    let y ← axisTake d.2
    pure [x, y]) s

/-- `V3CFG s, max.x, max.y, max.z, prec.x, prec.y, prec.z` (44_vectorpackers.md R203). -/
def execV3cfg (slot : Nat) (maxX maxY maxZ precX precY precZ : Word) (s : State) :
    Host.Outcome State Fault Refusal :=
  run (do
    requireSlotIndex slot
    let x ← axisDerive 0 maxX 3 precX
    let y ← axisDerive 1 maxY 4 precY
    let z ← axisDerive 2 maxZ 5 precZ
    setSlot slot (.vec3 x y z)
    pure []) s

/-- `V3PACK s, x, y, z` (44_vectorpackers.md R204). -/
def execV3pack (slot : Nat) (x y z : Word) (s : State) : Host.Outcome State Fault Refusal :=
  run (do
    requireWriter
    let d ← requireSlot slot Descriptor.asVec3
    let vx ← axisCheck d.1 0 x
    let vy ← axisCheck d.2.1 1 y
    let vz ← axisCheck d.2.2 2 z
    reserve (d.1.bitCount + d.2.1.bitCount + d.2.2.bitCount)
    axisEmit d.1 vx
    axisEmit d.2.1 vy
    axisEmit d.2.2 vz
    pure []) s

/-- `V3UNPACK s` (44_vectorpackers.md R205). -/
def execV3unpack (slot : Nat) (s : State) : Host.Outcome State Fault Refusal :=
  run (do
    requireReader
    let d ← requireSlot slot Descriptor.asVec3
    require (d.1.bitCount + d.2.1.bitCount + d.2.2.bitCount)
    let x ← axisTake d.1
    let y ← axisTake d.2.1
    let z ← axisTake d.2.2
    pure [x, y, z]) s

end Sys2Proof.Machine
end

