-- ==== Sys2Proof/Machine/WriterCommands.lean ====
section
/-! DEFINITION. The BitBuffer writer commands `WOPEN`, `WRITE`, `WRESET`, `WBYTELEN`, `WBYTE`, `WCLOSE`
(40_writer.md). -/

namespace Sys2Proof.Machine

/-- The capacity in bits of a writer asked for `capBytes` bytes: whole 64-bit cells (40_writer.md R122, 10_state.md
R26). -/
def capBits (capBytes : Nat) : Nat := 64 * ((capBytes + 7) / 8)

/-- `WOPEN capBytes` (40_writer.md R122). -/
def execWopen (capBytes : Word) (s : State) : Host.Outcome State Fault Refusal :=
  run (do
    let s ← getState
    raiseIf (s.w.live = true) .invalidArgument infoOpen
    raiseIf (u32 capBytes > s.w.mem.size) .invalidArgument 0
    memClearW (capBits (u32 capBytes))
    modifyWriter fun w =>
      { w with live := true, poison := false, cap := capBits (u32 capBytes), wbit := 0 }
    pure []) s

/-- `WRITE #cnt, value` (40_writer.md R123). -/
def execWrite (cnt : Nat) (value : Word) (s : State) : Host.Outcome State Fault Refusal :=
  run (do
    requireWriter
    writeBits (u32 value) cnt
    pure []) s

/-- `WRESET` (40_writer.md R124). -/
def execWreset (s : State) : Host.Outcome State Fault Refusal :=
  run (do
    let s ← getState
    raiseIf (s.w.live = false) .disposedResource infoNone
    memClearW s.w.cap
    modifyWriter fun w => { w with poison := false, wbit := 0 }
    pure []) s

/-- `WBYTELEN` (40_writer.md R125). -/
def execWbytelen (s : State) : Host.Outcome State Fault Refusal :=
  run (do
    requireWriter
    let s ← getState
    pure [resultWord (ceil8 s.w.wbit)]) s

/-- `WBYTE index` (40_writer.md R126). -/
def execWbyte (index : Word) (s : State) : Host.Outcome State Fault Refusal :=
  run (do
    requireWriter
    let s ← getState
    raiseIf (u32 index ≥ ceil8 s.w.wbit) .invalidArgument 0
    let b ← memReadW (8 * u32 index) 8
    pure [resultWord b]) s

/-- `WCLOSE` (40_writer.md R127). -/
def execWclose (s : State) : Host.Outcome State Fault Refusal :=
  run (do
    let s ← getState
    raiseIf (s.w.live = false) .disposedResource infoNone
    modifyWriter fun w => { w with live := false, poison := false, cap := 0, wbit := 0 }
    pure []) s

end Sys2Proof.Machine
end

