-- ==== Sys2Proof/Machine/Dispatch.lean ====
section
/-! DEFINITION. One arm for each command of the opcode map, in the map's order (30_encoding.md R96). -/

namespace Sys2Proof.Machine

/-- What a command does (30_encoding.md R97: only after decoding does the command's own rule run). -/
def exec (i : Instr) (s : State) : Host.Outcome State Fault Refusal :=
  match i with
  | .stat => Sys2Proof.Machine.execStat s
  | .slotbits slot => Sys2Proof.Machine.execSlotbits slot s
  | .umax slot => Sys2Proof.Machine.execUmax slot s
  | .wopen capBytes => Sys2Proof.Machine.execWopen capBytes s
  | .write cnt value => Sys2Proof.Machine.execWrite cnt value s
  | .wreset => Sys2Proof.Machine.execWreset s
  | .wbytelen => Sys2Proof.Machine.execWbytelen s
  | .wbyte index => Sys2Proof.Machine.execWbyte index s
  | .wclose => Sys2Proof.Machine.execWclose s
  | .ropen => Sys2Proof.Machine.execRopen s
  | .rput byte => Sys2Proof.Machine.execRput byte s
  | .read cnt => Sys2Proof.Machine.execRead cnt s
  | .rbytepos => Sys2Proof.Machine.execRbytepos s
  | .rclose => Sys2Proof.Machine.execRclose s
  | .bitcnt min max => Sys2Proof.Machine.execBitcnt min max s
  | .scaletou value srcMin srcMax dstMin dstMax => Sys2Proof.Machine.execScaletou value srcMin srcMax dstMin dstMax s
  | .scalefromu code srcMin srcMax dstMin dstMax => Sys2Proof.Machine.execScalefromu code srcMin srcMax dstMin dstMax s
  | .fcfg slot max precision => Sys2Proof.Machine.execFcfg slot max precision s
  | .fpack slot value => Sys2Proof.Machine.execFpack slot value s
  | .funpack slot => Sys2Proof.Machine.execFunpack slot s
  | .v2cfg slot maxX maxY precX precY => Sys2Proof.Machine.execV2cfg slot maxX maxY precX precY s
  | .v2pack slot x y => Sys2Proof.Machine.execV2pack slot x y s
  | .v2unpack slot => Sys2Proof.Machine.execV2unpack slot s
  | .v3cfg slot maxX maxY maxZ precX precY precZ => Sys2Proof.Machine.execV3cfg slot maxX maxY maxZ precX precY precZ s
  | .v3pack slot x y z => Sys2Proof.Machine.execV3pack slot x y z s
  | .v3unpack slot => Sys2Proof.Machine.execV3unpack slot s
  | .pcfg slot minX minY minZ maxX maxY maxZ precision => Sys2Proof.Machine.execPcfg slot minX minY minZ maxX maxY maxZ precision s
  | .ppack slot x y z => Sys2Proof.Machine.execPpack slot x y z s
  | .punpack slot => Sys2Proof.Machine.execPunpack slot s
  | .ucfg slot small medium large => Sys2Proof.Machine.execUcfg slot small medium large s
  | .upack slot value => Sys2Proof.Machine.execUpack slot value s
  | .uunpack slot => Sys2Proof.Machine.execUunpack slot s
  | .upackn slot present value => Sys2Proof.Machine.execUpackn slot present value s
  | .uunpackn slot => Sys2Proof.Machine.execUunpackn slot s

end Sys2Proof.Machine
end

