-- ==== Sys2Proof/Machine/Step.lean ====
section
/-! DEFINITION. One step: the next event at the port, taken to completion (10_state.md R20, 20_memory.md R74). -/

namespace Sys2Proof.Machine

/-- One step. With no event presented nothing changes (10_state.md R20); the reset input takes effect between commands
(70_reset_and_hazards.md R310); a packet is decoded and its command runs, or the decode fault is its answer
(30_encoding.md R97). -/
def step (s : State) : Host.Outcome State Fault Refusal :=
  match nextEvent s with
  | none => .next s
  | some (.reset, s') => .next (applyReset s')
  | some (.packet p, s') =>
    match decode p with
    | .ok i => exec i s'
    | .error e => .next (takeFault (decodeRaise e) s')

/-- The state in which the host presents, before anything else, the packet whose bits are `w` (log 1). -/
def State.withFetchWord (s : State) (nbits w : Nat) : State :=
  presentFirst (.packet (tablePacket nbits w)) s

end Sys2Proof.Machine
end

