-- ==== Sys2Proof/Machine/Assembler.lean ====
section
/-! DEFINITION. The host side's spellings of commands: operand literals, one line of assembly and its characters, and the
five pseudo-commands (30_encoding.md R110, R111; log 11). No command's meaning depends on this file. -/

namespace Sys2Proof.Machine

/-- How an operand word is written (30_encoding.md R110): an unsigned or a signed number, a whole word, or a decimal
literal read as an exact rational. -/
inductive Literal where
  | unsigned (n : Nat)
  | signed (z : Int)
  | word (w : Word)
  | decimal (q : Rat)
  deriving DecidableEq, Repr

/-- The number lies within the binary32 range: rounded to nearest it is below `2^128`, so that 42_scale.md R162 describes
its `f32enc` (its `E` stays at most 127). The bound is half way between the largest finite value and `2^128`, where a tie
goes up to `2^128`. -/
def inF32Range (q : Rat) : Bool := |q| < mkRat ((2 ^ 25 - 1) * 2 ^ 103) 1

/-- The word of a literal in an operand place of a type, where that spelling is allowed (30_encoding.md R110): a decimal
literal stands for `f32enc` of its value. DESIGN CHOICE, safe (log 11): 42_scale.md R162 does not describe `f32enc` past
the binary32 range and R110 sets no bound on a decimal literal, so a literal past that range has no word, and its line no
packet. -/
def Literal.encode : OperandType → Literal → Option Word
  | .u32, .unsigned n => if n < 2 ^ 32 then some (BitVec.ofNat 32 n) else none
  | .i32, .signed z => if -2 ^ 31 ≤ z ∧ z < 2 ^ 31 then some (BitVec.ofInt 32 z) else none
  | .f32, .word w => some w
  | .f32, .decimal q => if inF32Range q then some (f32enc q) else none
  | _, _ => none

/-- The words of a command's literals, one for each operand place (30_encoding.md R110). -/
def encodeLiterals : List OperandType → List Literal → Option (List Word)
  | [], [] => some []
  | t :: ts, l :: ls =>
    match Literal.encode t l, encodeLiterals ts ls with
    | some w, some ws => some (w :: ws)
    | _, _ => none
  | _, _ => none

/-- One line of assembly, its characters read: the mnemonic, `s<n>` and `#<n>` where they are written, and the
operand literals (30_encoding.md R110). -/
structure AsmLine where
  mnemonic : String
  slot     : Option Nat
  cnt      : Option Nat
  operands : List Literal
  deriving DecidableEq, Repr

/-- The value of a header field: written and within its width exactly when the command uses it (30_encoding.md R110,
R91); 0 where it does not. -/
def asmField (used : Bool) (width : Nat) : Option Nat → Option Nat
  | none => if used then none else some 0
  | some n => if used ∧ n < 2 ^ width then some n else none

/-- The packet of a line (30_encoding.md R96, R110). -/
def assemble (l : AsmLine) : Option Packet :=
  match opcodeMap.find? fun row => row.mnemonic == l.mnemonic with
  | none => none
  | some row =>
    match asmField row.usesSlot 4 l.slot, asmField row.usesCnt 6 l.cnt, encodeLiterals row.operands l.operands with
    | some slot, some cnt, some ws => some ⟨headerWord row.opc slot cnt, ws⟩
    | _, _, _ => none

/-! ### The characters of a line -/

/-- The value of a digit in a base up to 16. -/
def digitValue (base : Nat) (c : Char) : Option Nat :=
  let v := if '0' ≤ c ∧ c ≤ '9' then c.toNat - '0'.toNat
    else if 'A' ≤ c ∧ c ≤ 'F' then c.toNat - 'A'.toNat + 10
    else if 'a' ≤ c ∧ c ≤ 'f' then c.toNat - 'a'.toNat + 10
    else base
  if v < base then some v else none

/-- The number of a run of digits that follows the digits of `acc`. -/
def readDigits (base : Nat) : Nat → List Char → Option Nat
  | acc, [] => some acc
  | acc, c :: cs =>
    match digitValue base c with
    | some d => readDigits base (base * acc + d) cs
    | none => none

/-- An unsigned number: `0x` and hexadecimal digits, or decimal digits; at least one digit (30_encoding.md R110). -/
def readNumber : List Char → Option Nat
  | '0' :: 'x' :: c :: cs => readDigits 16 0 (c :: cs)
  | c :: cs => readDigits 10 0 (c :: cs)
  | [] => none

/-- A decimal number without sign, read as an exact rational: digits, and digits after a point where there is one
(30_encoding.md R110). -/
def readDecimal (cs : List Char) : Option Rat :=
  let whole := cs.takeWhile (· ≠ '.')
  let part := (cs.dropWhile (· ≠ '.')).drop 1
  if whole = [] then none
  else (readDigits 10 0 (whole ++ part)).map fun n => mkRat n (10 ^ part.length)

/-- An operand literal in a place of a type (30_encoding.md R110). -/
def readLiteral : OperandType → List Char → Option Literal
  | .u32, cs => (readNumber cs).map .unsigned
  | .i32, '-' :: c :: cs => (readDigits 10 0 (c :: cs)).map fun n => .signed (-n)
  | .i32, c :: cs => (readDigits 10 0 (c :: cs)).map fun n => .signed n
  | .i32, [] => none
  | .f32, '0' :: 'x' :: c :: cs =>
    match readDigits 16 0 (c :: cs) with
    | some n => if n < 2 ^ 32 then some (.word (BitVec.ofNat 32 n)) else none
    | none => none
  | .f32, '-' :: cs => (readDecimal cs).map fun q => .decimal (-q)
  | .f32, cs => (readDecimal cs).map .decimal

/-- The literals of the operand places, one each. -/
def readLiterals : List OperandType → List (List Char) → Option (List Literal)
  | [], [] => some []
  | t :: ts, f :: fs =>
    match readLiteral t f, readLiterals ts fs with
    | some l, some ls => some (l :: ls)
    | _, _ => none
  | _, _ => none

/-- The parts between commas. -/
def splitCommas : List Char → List (List Char)
  | [] => [[]]
  | c :: cs =>
    if c = ',' then [] :: splitCommas cs
    else match splitCommas cs with
      | [] => [[c]]
      | f :: fs => (c :: f) :: fs

/-- The characters without the spaces before and after them. -/
def trim (cs : List Char) : List Char :=
  ((cs.dropWhile (· = ' ')).reverse.dropWhile (· = ' ')).reverse

/-- A line without its comment, cut into its mnemonic and the fields after it, which commas separate
(30_encoding.md R110). -/
def lineFields (line : List Char) : List Char × List (List Char) :=
  let text := trim (line.takeWhile (· ≠ ';'))
  let rest := trim (text.dropWhile (· ≠ ' '))
  (text.takeWhile (· ≠ ' '), if rest = [] then [] else (splitCommas rest).map trim)

/-- A header field, written with its sign (`s` or `#`) exactly when the command uses it, and the fields after it. -/
def readField (used : Bool) (sign : Char) (fields : List (List Char)) : Option (Option Nat × List (List Char)) :=
  if used then
    match fields with
    | (c :: d :: ds) :: rest => if c = sign then (readDigits 10 0 (d :: ds)).map fun n => (some n, rest) else none
    | _ => none
  else some (none, fields)

/-- One line of assembly read from its characters (30_encoding.md R110). -/
def readLine (line : List Char) : Option AsmLine :=
  let (name, fields) := lineFields line
  match opcodeMap.find? fun row => row.mnemonic.toList == name with
  | none => none
  | some row =>
    match readField row.usesSlot 's' fields with
    | none => none
    | some (slot, fields) =>
      match readField row.usesCnt '#' fields with
      | none => none
      | some (cnt, fields) =>
        (readLiterals row.operands fields).map fun ls => ⟨row.mnemonic, slot, cnt, ls⟩

/-- The packet of one line of assembly (30_encoding.md R110). -/
def assembleLine (line : List Char) : Option Packet :=
  match readLine line with
  | none => none
  | some l => assemble l

/-! ### Pseudo-commands -/

/-- The pseudo-commands (30_encoding.md R111). `toarray` carries the length that its `WBYTELEN` was answered with. -/
inductive Pseudo where
  | toarray (byteLength : Nat)
  | rload (bytes : List Byte)
  | writebit (b : Word)
  | v2cfgu (slot : Nat) (maxX maxY precision : Word)
  | v3cfgu (slot : Nat) (maxX maxY maxZ precision : Word)
  deriving DecidableEq, Repr

/-- The commands a pseudo-command stands for (30_encoding.md R111). -/
def Pseudo.expand : Pseudo → List Instr
  | .toarray len => .wbytelen :: (List.range len).map fun i => .wbyte (BitVec.ofNat 32 i)
  | .rload bytes => .ropen :: bytes.map fun b => .rput (b.setWidth 32)
  | .writebit b => [.write 1 b]
  | .v2cfgu slot maxX maxY p => [.v2cfg slot maxX maxY p p]
  | .v3cfgu slot maxX maxY maxZ p => [.v3cfg slot maxX maxY maxZ p p p]

/-- The words of operand literals of given types, read from their characters. -/
def readWords (types : List OperandType) (fields : List (List Char)) : Option (List Word) :=
  match readLiterals types fields with
  | none => none
  | some ls => encodeLiterals types ls

/-- A pseudo-command read from its line; `byteLength` is what the `WBYTELEN` of `TOARRAY` was answered with
(30_encoding.md R111). -/
def readPseudo (byteLength : Nat) (line : List Char) : Option Pseudo :=
  let (name, fields) := lineFields line
  if name = "TOARRAY".toList then (if fields = [] then some (.toarray byteLength) else none)
  else if name = "RLOAD".toList then
    (readWords (fields.map fun _ => .u32) fields).map fun ws => .rload (ws.map fun w => w.setWidth 8)
  else if name = "WRITEBIT".toList then
    match readWords [.u32] fields with
    | some [b] => some (.writebit b)
    | _ => none
  else
    match readField true 's' fields with
    | some (some slot, fields) =>
      if ¬slot < 16 then none
      else if name = "V2CFGU".toList then
        match readWords [.f32, .f32, .f32] fields with
        | some [maxX, maxY, p] => some (.v2cfgu slot maxX maxY p)
        | _ => none
      else if name = "V3CFGU".toList then
        match readWords [.f32, .f32, .f32, .f32] fields with
        | some [maxX, maxY, maxZ, p] => some (.v3cfgu slot maxX maxY maxZ p)
        | _ => none
      else none
    | _ => none

end Sys2Proof.Machine
end

