-- ==== Sys2Proof/Safety.lean ====
section
/-! DEFINITION. The terms in which claims speak: the invariant of the machine (10_state.md R23 to R45), what a host can
see of a state (60_exceptions.md R289), the classes of commands (60_exceptions.md R282), and what a command leaves in a
storage (20_memory.md R65). -/

namespace Sys2Proof.Machine

/-! ### The invariant -/

/-- The rational is the value of a finite binary32 word (42_scale.md R161). -/
def IsFloat32 (q : Rat) : Prop := ∃ w : Word, f32dec w = some q

/-- Every stream bit of `lo .. hi-1` is 0. -/
def ZeroBits (m : Memory) (lo hi : Nat) : Prop := ∀ a, lo ≤ a → a < hi → m.bit a = false

/-- What always holds of the writer: the types of its fields (10_state.md R23), its reset values while closed (R30,
R50), its cursor invariant (R27) and its zero invariant (R29). -/
structure Writer.Ok (w : Writer) : Prop where
  canonical : w.mem.wf = true
  wholeCells : w.cap % 64 = 0
  capFits : w.cap ≤ w.mem.bitSize
  cursor : w.wbit ≤ w.cap
  closed : w.live = false → w.poison = false ∧ w.cap = 0 ∧ w.wbit = 0
  zeros : w.lifecycle = .live → ZeroBits w.mem w.wbit w.cap

/-- What always holds of the reader: the types of its fields (10_state.md R31), its reset values while closed (R30,
R50), its cursor invariant (R35) and its zeros above the limit (R36). -/
structure Reader.Ok (r : Reader) : Prop where
  canonical : r.mem.wf = true
  wholeBytes : r.limit % 8 = 0
  limitFits : r.limit ≤ r.mem.bitSize
  cursor : r.rbit ≤ r.limit
  closed : r.live = false → r.poison = false ∧ r.limit = 0 ∧ r.rbit = 0
  zeros : r.lifecycle = .live → ZeroBits r.mem r.limit r.mem.bitSize

/-- A derived axis (10_state.md R42, 43_floatpacker.md R181). -/
structure Axis.Ok (ax : Axis) : Prop where
  maxFloat : IsFloat32 ax.max
  precFloat : IsFloat32 ax.prec
  maxPos : 0 < ax.max
  precPos : 0 < ax.prec
  stepsFit : ceilq (ax.max / ax.prec) ≤ 2 ^ 31 - 1
  width : ax.mag = bitCountFromRange 0 (ceilq (ax.max / ax.prec))
  widthRange : 1 ≤ ax.mag ∧ ax.mag ≤ 31

/-- A derived axis of a PositionPacker (10_state.md R44, 45_positionpacker.md R221). -/
structure PosAxis.Ok (ax : PosAxis) (prec : Rat) : Prop where
  minFloat : IsFloat32 ax.min
  maxFloat : IsFloat32 ax.max
  ordered : ax.min < ax.max
  stepsFit : 1 ≤ posSteps ax.min ax.max prec ∧ posSteps ax.min ax.max prec ≤ 2 ^ 31 - 1
  width : ax.bits = bitCountFromRange 0 (posSteps ax.min ax.max prec)
  widthRange : 1 ≤ ax.bits ∧ ax.bits ≤ 31

/-- What a slot can hold (10_state.md R41 to R45). -/
def Descriptor.Ok : Descriptor → Prop
  | .empty => True
  | .float ax => ax.Ok
  | .vec2 x y => x.Ok ∧ y.Ok
  | .vec3 x y z => x.Ok ∧ y.Ok ∧ z.Ok
  | .pos x y z prec => 0 < prec ∧ IsFloat32 prec ∧ x.Ok prec ∧ y.Ok prec ∧ z.Ok prec
  | .uvar small medium large => 1 ≤ small ∧ small < medium ∧ medium < large ∧ large ≤ 32

/-- The invariant of the machine. -/
structure State.Inv (s : State) : Prop where
  params : s.params.Legal
  writer : s.w.Ok
  reader : s.r.Ok
  slots : ∀ d ∈ s.slots, d.Ok

/-! ### What a host can see -/

/-- Two writers that no command can tell apart: the same but for the fields the spec calls UNSPECIFIED or never
addresses (10_state.md R25, R28, R50). -/
structure Writer.SameSeen (v w : Writer) : Prop where
  live : v.live = w.live
  poison : v.poison = w.poison
  cap : v.cap = w.cap
  size : v.mem.size = w.mem.size
  cursor : v.lifecycle = .live → v.wbit = w.wbit
  bits : v.lifecycle = .live → ∀ a, a < v.cap → v.mem.bit a = w.mem.bit a

/-- Two readers that no command can tell apart (10_state.md R33, R36, R50). -/
structure Reader.SameSeen (q r : Reader) : Prop where
  live : q.live = r.live
  poison : q.poison = r.poison
  size : q.mem.size = r.mem.size
  limit : q.lifecycle = .live → q.limit = r.limit
  cursor : q.lifecycle = .live → q.rbit = r.rbit
  bits : q.lifecycle = .live → ∀ a, a < q.limit → q.mem.bit a = r.mem.bit a

/-- Two states that differ at most in what the spec calls UNSPECIFIED (and in the model's free-value counter). -/
structure State.SameSeen (s t : State) : Prop where
  writer : s.w.SameSeen t.w
  reader : s.r.SameSeen t.r
  slots : s.slots = t.slots
  port : s.port = t.port
  responses : s.responses = t.responses

/-! ### Classes of commands -/

end Sys2Proof.Machine

namespace Sys2Proof

/-- The writer commands: those whose rule starts with `RequireWriter()` (60_exceptions.md R282). -/
def Instr.isWriterCommand : Instr → Bool
  | .write _ _ | .wbytelen | .wbyte _ | .fpack _ _ | .v2pack _ _ _ | .v3pack _ _ _ _ | .ppack _ _ _ _
  | .upack _ _ | .upackn _ _ _ => true
  | _ => false

/-- The reader commands: those whose rule starts with `RequireReader()` (60_exceptions.md R282). -/
def Instr.isReaderCommand : Instr → Bool
  | .rput _ | .read _ | .rbytepos | .funpack _ | .v2unpack _ | .v3unpack _ | .punpack _ | .uunpack _
  | .uunpackn _ => true
  | _ => false

/-- The commands that append bits to the writer's stream (60_exceptions.md R288). -/
def Instr.appendsBits : Instr → Bool
  | .write _ _ | .fpack _ _ | .v2pack _ _ _ | .v3pack _ _ _ _ | .ppack _ _ _ _ | .upack _ _
  | .upackn _ _ _ => true
  | _ => false

/-- The commands that consume bits of the reader's stream (60_exceptions.md R288). -/
def Instr.consumesBits : Instr → Bool
  | .read _ | .funpack _ | .v2unpack _ | .v3unpack _ | .punpack _ | .uunpack _ | .uunpackn _ => true
  | _ => false

/-- The commands that touch the writer context at all (20_memory.md R60, 10_state.md R30). -/
def Instr.touchesWriter (i : Instr) : Bool :=
  i.isWriterCommand || (match i with
    | .wopen _ | .wreset | .wclose => true
    | _ => false)

/-- The commands that touch the reader context at all (20_memory.md R60, 10_state.md R30). -/
def Instr.touchesReader (i : Instr) : Bool :=
  i.isReaderCommand || (match i with
    | .ropen | .rclose => true
    | _ => false)

/-- The slot a configuration command names (10_state.md R40). -/
def Instr.configuredSlot : Instr → Option Nat
  | .fcfg s _ _ | .v2cfg s _ _ _ _ | .v3cfg s _ _ _ _ _ _ | .pcfg s _ _ _ _ _ _ _ | .ucfg s _ _ _ => some s
  | _ => none

end Sys2Proof

namespace Sys2Proof.Machine

/-! ### What a command leaves -/

/-- The storage `m'` is `m` with the low `n` bits of `v` from bit address `a` on, and nothing else changed
(20_memory.md R65). -/
def Stored (m m' : Memory) (a n v : Nat) : Prop :=
  m'.size = m.size ∧ ∀ b, m'.bit b = if a ≤ b ∧ b < a + n then v.testBit (b - a) else m.bit b

/-- The storage `m'` is `m` with bits `0 .. n-1` zeroed and nothing else changed (40_writer.md R122, R124). -/
def Zeroed (m m' : Memory) (n : Nat) : Prop :=
  m'.size = m.size ∧ ∀ b, m'.bit b = if b < n then false else m.bit b

/-- The command answers OK with these results and the state is otherwise `t`. -/
abbrev Completes (i : Instr) (s t : State) (results : List Word) : Prop :=
  exec i s = .next (t.respond ⟨none, 0, results⟩)

/-- The command answers with a fault that has no detail words, and changes no state (60_exceptions.md R285, R295). -/
abbrev Rejects (i : Instr) (s : State) (kind : FaultKind) (info : Byte) : Prop :=
  exec i s = .next (s.respond ⟨some kind, info, []⟩)

/-- The writer is poisoned: `W.poison` is 1, `W.live`, `W.cap` and the size of the storage are as before, the cursor and
the bytes are any (60_exceptions.md R288). -/
def Writer.PoisonedFrom (v w : Writer) : Prop :=
  v.live = w.live ∧ v.poison = true ∧ v.cap = w.cap ∧ v.mem.size = w.mem.size

/-- The reader is poisoned: `R.poison` is 1, `R.live` and the size of the storage are as before, the cursor, the limit
and the bytes are any (60_exceptions.md R288). -/
def Reader.PoisonedFrom (q r : Reader) : Prop :=
  q.live = r.live ∧ q.poison = true ∧ q.mem.size = r.mem.size

/-- The command answers with a fault that poisons the writer; nothing but the writer (and the model's free-value
counter) changes (60_exceptions.md R288, R295). -/
def PoisonsWriter (i : Instr) (s : State) (kind : FaultKind) (info : Byte) (results : List Word) : Prop :=
  ∃ v n, v.PoisonedFrom s.w ∧
    exec i s = .next ({ s with w := v, freeIdx := n }.respond ⟨some kind, info, results⟩)

/-- The command answers with a fault that poisons the reader; nothing but the reader (and the model's free-value
counter) changes (60_exceptions.md R288, R295). -/
def PoisonsReader (i : Instr) (s : State) (kind : FaultKind) (info : Byte) (results : List Word) : Prop :=
  ∃ q n, q.PoisonedFrom s.r ∧
    exec i s = .next ({ s with r := q, freeIdx := n }.respond ⟨some kind, info, results⟩)

/-- The prelude of a writer command, then its own rule (40_writer.md R120). -/
def UsesWriter (i : Instr) (s : State) (own : Prop) : Prop :=
  (s.w.live = false → Rejects i s .disposedResource 0xFF) ∧
  (s.w.live = true → s.w.poison = true → Rejects i s .poisoned 0xFF) ∧
  (s.w.live = true → s.w.poison = false → own)

/-- The prelude of a reader command, then its own rule (41_reader.md R140). -/
def UsesReader (i : Instr) (s : State) (own : Prop) : Prop :=
  (s.r.live = false → Rejects i s .disposedResource 0xFF) ∧
  (s.r.live = true → s.r.poison = true → Rejects i s .poisoned 0xFF) ∧
  (s.r.live = true → s.r.poison = false → own)

/-- The command appends `n` bits, the low bits of `x`, at the cursor, all of them or none: where they do not fit, it is
Overflow with the bits requested and the bits remaining, and poisons the writer (40_writer.md R128, R121). -/
def Appends (i : Instr) (s : State) (n x : Nat) : Prop :=
  (s.w.cap < s.w.wbit + n →
    PoisonsWriter i s .overflow 0xFF [BitVec.ofNat 32 n, BitVec.ofNat 32 (s.w.cap - s.w.wbit)]) ∧
  (s.w.wbit + n ≤ s.w.cap → ∃ m', Stored s.w.mem m' s.w.wbit n x ∧
    Completes i s { s with w := { s.w with wbit := s.w.wbit + n, mem := m' } } [])

/-- The command consumes `n` bits at the cursor and answers with these results: where fewer are left, it is Underflow
with the bits requested and the bits remaining, and poisons the reader (41_reader.md R148, R142). -/
def Consumes (i : Instr) (s : State) (n : Nat) (results : List Word) : Prop :=
  (s.r.limit < s.r.rbit + n →
    PoisonsReader i s .underflow 0xFF [BitVec.ofNat 32 n, BitVec.ofNat 32 (s.r.limit - s.r.rbit)]) ∧
  (s.r.rbit + n ≤ s.r.limit → Completes i s { s with r := { s.r with rbit := s.r.rbit + n } } results)

/-! ### Packers, in the words of their rules -/

/-- The two operand words construct the axis (43_floatpacker.md R181); `mag` by the two bounds of 00_scope.md R10. -/
def AxisAccepted (maxWord precWord : Word) (ax : Axis) : Prop :=
  f32dec maxWord = some ax.max ∧ 0 < ax.max ∧ f32dec precWord = some ax.prec ∧ 0 < ax.prec ∧
  ⌈ax.max / ax.prec⌉ ≤ 2 ^ 31 - 1 ∧
  1 ≤ ax.mag ∧ 2 ^ (ax.mag - 1) ≤ ⌈ax.max / ax.prec⌉ ∧ ⌈ax.max / ax.prec⌉ < 2 ^ ax.mag

/-- The two operand words construct no axis, and `info` names the operand at fault: `max` is looked at before
`precision` (43_floatpacker.md R181). -/
def AxisRefused (iMax iPrec : Byte) (maxWord precWord : Word) (info : Byte) : Prop :=
  ((∀ mx, f32dec maxWord = some mx → mx ≤ 0) ∧ info = iMax) ∨
  (∃ mx, f32dec maxWord = some mx ∧ 0 < mx ∧
    (∀ pr, f32dec precWord = some pr → pr ≤ 0 ∨ (2 ^ 31 - 1 : Int) < ⌈mx / pr⌉) ∧ info = iPrec)

/-- The value operand `i` is refused by the axis (43_floatpacker.md R185). -/
def ValueRefused (ax : Axis) (i : Byte) (value : Word) (kind : FaultKind) (info : Byte) : Prop :=
  (f32dec value = none ∧ kind = .invalidArgument ∧ info = i) ∨
  (∃ v, f32dec value = some v ∧ ax.max < |v| ∧ kind = .outOfRange ∧ info = i)

/-- The value operand is accepted by the axis (43_floatpacker.md R185). -/
def ValueAccepted (ax : Axis) (value : Word) (v : Rat) : Prop := f32dec value = some v ∧ |v| ≤ ax.max

/-- The field an axis writes for a value, its first stream bit as bit 0: the sign bit, 1 exactly when `v < 0`, then
the code `rnd(|v| * M / max)` (43_floatpacker.md R186). -/
def axisField (ax : Axis) (v : Rat) : Nat :=
  (if v < 0 then 1 else 0) + 2 * ⌊|v| * (2 ^ ax.mag - 1) / ax.max + 1 / 2⌋.toNat

/-- The exact value an axis gives back for a field (43_floatpacker.md R187). -/
def axisValue (ax : Axis) (field : Nat) : Rat :=
  (if field % 2 = 1 then -1 else 1) * ((field / 2 : Nat) * ax.max / (2 ^ ax.mag - 1))

/-- The number of steps of an axis of a PositionPacker, `rnd((max - min) / prec)` (45_positionpacker.md R221). -/
def stepsOf (min max prec : Rat) : Int := ⌊(max - min) / prec + 1 / 2⌋

/-- The bounds and the precision construct the axis (45_positionpacker.md R220, R221). -/
def PosAxisAccepted (prec : Rat) (ax : PosAxis) : Prop :=
  ax.min < ax.max ∧ 1 ≤ stepsOf ax.min ax.max prec ∧ stepsOf ax.min ax.max prec ≤ 2 ^ 31 - 1 ∧
  1 ≤ ax.bits ∧ 2 ^ (ax.bits - 1) ≤ stepsOf ax.min ax.max prec ∧ stepsOf ax.min ax.max prec < 2 ^ ax.bits

/-- The bounds and the precision construct no axis `a`, and `info` says which operand is at fault: `3 + a` for bounds
out of order, 6 for a precision that gives no step or too many (45_positionpacker.md R220). -/
def PosAxisRefused (a : Byte) (min max prec : Rat) (info : Byte) : Prop :=
  (max ≤ min ∧ info = 3 + a) ∨
  (min < max ∧ (stepsOf min max prec < 1 ∨ 2 ^ 31 - 1 < stepsOf min max prec) ∧ info = 6)

/-- The code of a value on an axis: the value clamped to the bounds, then `rnd(t * M / range)`
(45_positionpacker.md R222). -/
def posField (ax : PosAxis) (v : Rat) : Nat :=
  ⌊(Min.min (Max.max v ax.min) ax.max - ax.min) * (2 ^ ax.bits - 1) / (ax.max - ax.min) + 1 / 2⌋.toNat

/-- The exact value of a code on an axis, `min + c * range / M` (45_positionpacker.md R223). -/
def posValue (ax : PosAxis) (c : Nat) : Rat := ax.min + c * (ax.max - ax.min) / (2 ^ ax.bits - 1)

/-- The width of the encoding of a value in its bin (47_uintvariable.md R251, R258). -/
def uvarWidth (small medium large v : Nat) : Nat :=
  if v < 2 ^ small then 1 + small else if v < 2 ^ medium then 2 + medium else 2 + large

/-- The encoding of a value, its first stream bit as bit 0: selector `0`, or `1, 0`, or `1, 1`, then the value
(47_uintvariable.md R251, R252). -/
def uvarField (small medium v : Nat) : Nat :=
  if v < 2 ^ small then 2 * v else if v < 2 ^ medium then 1 + 4 * v else 3 + 4 * v

/-- One `Read` step of `n` bits at bit address `a`, reached with all earlier steps done, then the rest
(41_reader.md R142). -/
def ReadsAt (i : Instr) (s : State) (a n : Nat) (rest : Prop) : Prop :=
  (s.r.limit < a + n →
    PoisonsReader i s .underflow 0xFF [BitVec.ofNat 32 n, BitVec.ofNat 32 (s.r.limit - a)]) ∧
  (a + n ≤ s.r.limit → rest)

/-- The command reads one variable-width value from bit address `a` on, one or two selector bits and then the payload
of that bin, and answers with `results` of it (47_uintvariable.md R254). -/
def TakesUvar (i : Instr) (s : State) (small medium large a : Nat) (results : Nat → List Word) : Prop :=
  ReadsAt i s a 1
    ((s.r.mem.bit a = false → ReadsAt i s (a + 1) small
      (Completes i s { s with r := { s.r with rbit := a + 1 + small } }
        (results (s.r.mem.read (a + 1) small)))) ∧
    (s.r.mem.bit a = true → ReadsAt i s (a + 1) 1
      ((s.r.mem.bit (a + 1) = false → ReadsAt i s (a + 2) medium
        (Completes i s { s with r := { s.r with rbit := a + 2 + medium } }
          (results (s.r.mem.read (a + 2) medium)))) ∧
      (s.r.mem.bit (a + 1) = true → ReadsAt i s (a + 2) large
        (Completes i s { s with r := { s.r with rbit := a + 2 + large } }
          (results (s.r.mem.read (a + 2) large)))))))

/-! ### The lifecycle -/

/-- The lifecycle state of the writer after a command, from the one before it, the command and its answer: the
transitions of 10_state.md R30 and no others. -/
def writerNext (i : Instr) (r : Response) (l : Lifecycle) : Lifecycle :=
  match l, r.fault with
  | .closed, none => match i with
    | .wopen _ => .live
    | _ => .closed
  | .live, some k =>
    if i.appendsBits = true ∧ (k = .overflow ∨ (k = .invalidArgument ∧ r.info = 0x83)) then .poisoned else .live
  | .live, none => match i with
    | .wclose => .closed
    | _ => .live
  | .poisoned, none => match i with
    | .wreset => .live
    | .wclose => .closed
    | _ => .poisoned
  | .closed, some _ => .closed
  | .poisoned, some _ => .poisoned

/-- The lifecycle state of the reader after a command, from the one before it, the command and its answer: the
transitions of 10_state.md R30 and no others. -/
def readerNext (i : Instr) (r : Response) (l : Lifecycle) : Lifecycle :=
  match l, r.fault with
  | .closed, none => match i with
    | .ropen => .live
    | _ => .closed
  | .live, some k =>
    if (i.consumesBits = true ∧ (k = .underflow ∨ (k = .invalidArgument ∧ r.info = 0x83))) ∨
        (i.isReaderCommand = true ∧ k = .overflow) then .poisoned else .live
  | .live, none => match i with
    | .rclose => .closed
    | _ => .live
  | .poisoned, none => match i with
    | .rclose => .closed
    | _ => .poisoned
  | .closed, some _ => .closed
  | .poisoned, some _ => .poisoned

/-! ### Runs of commands -/

/-- Commands one after the other, in order (20_memory.md R74). -/
def execAll : List Instr → State → Host.Outcome State Fault Refusal
  | [], s => .next s
  | i :: rest, s =>
    match exec i s with
    | .next t => execAll rest t
    | .fault e => .fault e
    | .refused r => .refused r

/-- The number of bits of a list of fields (width, value). -/
def fieldsWidth : List (Nat × Word) → Nat
  | [] => 0
  | (n, _) :: rest => n + fieldsWidth rest

/-- The concatenation of a list of fields, least-significant bit first (40_writer.md R129). -/
def fieldsValue : List (Nat × Word) → Nat
  | [] => 0
  | (n, v) :: rest => v.toNat % 2 ^ n + 2 ^ n * fieldsValue rest

end Sys2Proof.Machine
end

