-- ==== Sys2Proof/Certificates/Slice0/Obligations.lean ====
section
/-! DEFINITION. The statements for the provers, in the order of OBLIGATIONS.json: decoding, the step, the reset, the
whole machine, the storages, each command, and the laws of the packers. `Completes`, `Rejects`, `Appends` and the other
words are those of Sys2Proof/Safety.lean. -/

open Sys2Proof Sys2Proof.Machine

/-! ### Decoding -/

/-- Every command whose header fields fit decodes back from its packet (30_encoding.md R91 to R96). -/
def Obligations.DecodeOfEncode : Prop :=
  ∀ i : Instr, i.wellFormed = true → decode (encode i) = .ok i

/-- A packet that decodes is the packet of the command it decodes to, whose header fields fit: no bit of a packet is
dropped (30_encoding.md R93, R99, R101). -/
def Obligations.EncodeOfDecode : Prop :=
  ∀ (p : Packet) (i : Instr), decode p = .ok i → i.wellFormed = true ∧ encode i = p

/-- The three checks of decoding, in their order; the second is that `RSV` and the fields the command does not use
are 0 (30_encoding.md R97). -/
def Obligations.DecodingMakesThreeChecksInOrder : Prop :=
  ∀ p : Packet,
    ((∀ row ∈ opcodeMap, row.opc ≠ bitField p.header 7 0) → decode p = .error .illegalOpcode) ∧
    ∀ row ∈ opcodeMap, row.opc = bitField p.header 7 0 →
      (p.header &&& row.mask = row.pattern ↔
        bitField p.header 31 18 = 0 ∧ (row.usesSlot = false → bitField p.header 11 8 = 0) ∧
          (row.usesCnt = false → bitField p.header 17 12 = 0)) ∧
      (p.header &&& row.mask ≠ row.pattern → decode p = .error .reservedField) ∧
      (p.header &&& row.mask = row.pattern → p.ops.length ≠ row.operands.length →
        decode p = .error .operandCount) ∧
      (p.header &&& row.mask = row.pattern → p.ops.length = row.operands.length →
        ∃ i, decode p = .ok i ∧ i.mnemonic = row.mnemonic)

/-- Words written out from the opcode map and the examples of the rules decode to their commands (30_encoding.md R96,
R110). -/
def Obligations.WordsOfTheSpecDecode : Prop :=
  decode ⟨0x00000001#32, []⟩ = .ok .stat ∧
  decode ⟨0x00014011#32, [0x000ABCDE#32]⟩ = .ok (.write 20 0x000ABCDE#32) ∧
  decode ⟨0x00020022#32, []⟩ = .ok (.read 32) ∧
  decode ⟨0x00000030#32, [0x80000000#32, 0x7FFFFFFF#32]⟩ = .ok (.bitcnt 0x80000000#32 0x7FFFFFFF#32) ∧
  decode ⟨0x00000341#32, [0x41480000#32]⟩ = .ok (.fpack 3 0x41480000#32) ∧
  decode ⟨0x00000250#32, [0x41200000#32, 0x3F800000#32, 0x3C23D70A#32, 0x3F000000#32]⟩ =
    .ok (.v2cfg 2 0x41200000#32 0x3F800000#32 0x3C23D70A#32 0x3F000000#32) ∧
  decode ⟨0x00000462#32, []⟩ = .ok (.punpack 4) ∧
  decode ⟨0x00000770#32, [4#32, 8#32, 16#32]⟩ = .ok (.ucfg 7 4#32 8#32 16#32) ∧
  decode ⟨0x00000000#32, []⟩ = .error .illegalOpcode ∧
  decode ⟨0x00000053#32, []⟩ = .error .illegalOpcode

/-- A packet that decodes to no command is answered with InvalidArgument and the number of the check it fails, and
nothing else changes (30_encoding.md R98, R99, R100). -/
def Obligations.RefusedPacketsChangeNothing : Prop :=
  ∀ (s : State) (p : Packet) (rest : List PortEvent), s.port = .packet p :: rest →
    ((∀ row ∈ opcodeMap, row.opc ≠ bitField p.header 7 0) →
      step s = .next ({ s with port := rest }.respond ⟨some .invalidArgument, 0x80, []⟩)) ∧
    ∀ row ∈ opcodeMap, row.opc = bitField p.header 7 0 →
      (bitField p.header 31 18 ≠ 0 ∨ (row.usesSlot = false ∧ bitField p.header 11 8 ≠ 0) ∨
          (row.usesCnt = false ∧ bitField p.header 17 12 ≠ 0) →
        step s = .next ({ s with port := rest }.respond ⟨some .invalidArgument, 0x81, []⟩)) ∧
      (p.header &&& row.mask = row.pattern → p.ops.length ≠ row.operands.length →
        step s = .next ({ s with port := rest }.respond ⟨some .invalidArgument, 0x82, []⟩))

/-! ### The step and the reset -/

/-- One step takes the next event: with none presented nothing changes (10_state.md R20); a packet that decodes runs
its command, with the event taken from the port; the packet of `withFetchWord` runs next (20_memory.md R74); the reset
input gives no response and leaves the later events where they are. The port and the list of responses are the model's
own (log 1, log 2), and so is what the reset input does to them (log 7). -/
def Obligations.StepRunsTheDecodedCommand : Prop :=
  ∀ s : State,
    (s.port = [] → step s = .next s) ∧
    (∀ (p : Packet) (rest : List PortEvent) (i : Instr), s.port = .packet p :: rest → decode p = .ok i →
      step s = exec i { s with port := rest }) ∧
    (∀ (nbits w : Nat) (i : Instr), decodeTableWord nbits w = some i → step (s.withFetchWord nbits w) = exec i s) ∧
    (∀ rest : List PortEvent, s.port = .reset :: rest →
      ∃ t, step s = .next t ∧ t.port = rest ∧ t.responses = s.responses)

/-- What 10_state.md R50 gives every piece of state after reset: in the state after power-up of an instance, and in the
state the reset input leaves. The storages are UNSPECIFIED there. -/
def Obligations.ResetLeavesTheStatedValues : Prop :=
  (∀ p : Config.Params,
    let t := State.resetFor p
    (t.w.live = false ∧ t.w.poison = false ∧ t.w.cap = 0 ∧ t.w.wbit = 0) ∧
    (t.r.live = false ∧ t.r.poison = false ∧ t.r.limit = 0 ∧ t.r.rbit = 0) ∧
    t.slots = List.replicate p.nslot .empty ∧ statusWord t = 0x00000000#32) ∧
  State.reset = State.resetFor Config.bpe1 ∧
  (∀ (s : State) (rest : List PortEvent), s.port = .reset :: rest → ∃ t, step s = .next t ∧
    (t.w.live = false ∧ t.w.poison = false ∧ t.w.cap = 0 ∧ t.w.wbit = 0) ∧
    (t.r.live = false ∧ t.r.poison = false ∧ t.r.limit = 0 ∧ t.r.rbit = 0) ∧
    t.slots = List.replicate s.slots.length .empty ∧ statusWord t = 0x00000000#32)

/-- The state after reset of every legal instance meets the invariant, and `BPE-1` is one of them (10_state.md R50,
00_scope.md R7). That the storages after reset are in canonical form is the model's choice (DESIGN CHOICE, log 3). -/
def Obligations.ResetStateMeetsInvariant : Prop :=
  (∀ p : Config.Params, p.Legal → (State.resetFor p).Inv) ∧ State.reset.Inv

/-! ### The whole machine -/

/-- Every step keeps the invariant: the types of the fields (10_state.md R23, R31, R42 to R45), the cursor invariants
(R27, R35) and the zero invariants (R29, R36). Two of its clauses are the model's choice and no rule of the spec: that
the cursor and limit bounds hold in POISONED states too, of which R27 and R35 do not speak (DESIGN CHOICE, log 4), and
the canonical form of the storages (DESIGN CHOICE, log 3). -/
def Obligations.EveryStepKeepsInvariant : Prop :=
  ∀ s t : State, s.Inv → step s = .next t → t.Inv

/-- From a state that meets the invariant every step answers a next state: a fault of the spec is an answer
(60_exceptions.md R280), every command answers, and no access leaves the storages (20_memory.md R72). -/
def Obligations.NoStepFromTheInvariantStops : Prop :=
  ∀ s : State, s.Inv → ∃ t, step s = .next t

/-- No step changes the parameters of the instance (10_state.md R48, 00_scope.md R7; that they are the sizes of the
storages and of the table is the model's choice, log 6). -/
def Obligations.NoStepChangesTheParameters : Prop :=
  ∀ s t : State, step s = .next t → t.params = s.params

/-- Every packet is answered by exactly one response packet, its header laid out as 30_encoding.md R94 has it, its
information byte one of those of 60_exceptions.md R283. -/
def Obligations.EveryPacketGivesOneResponse : Prop :=
  ∀ (s : State) (p : Packet) (rest : List PortEvent), s.Inv → s.port = .packet p :: rest →
    ∃ t r, step s = .next t ∧ t.port = rest ∧ t.responses = s.responses ++ [r] ∧
      r.words = r.header :: r.results ∧ r.results.length ≤ 3 ∧
      bitField r.header 3 0 = r.status ∧ bitField r.header 7 4 = 0 ∧ bitField r.header 15 8 = r.info.toNat ∧
      bitField r.header 17 16 = r.results.length ∧ bitField r.header 31 18 = 0 ∧
      (r.fault = none → r.status = 0 ∧ r.info = 0) ∧
      (r.fault ≠ none → 1 ≤ r.status ∧ r.status ≤ 6 ∧
        (r.info.toNat ≤ 6 ∨ (0x80 ≤ r.info.toNat ∧ r.info.toNat ≤ 0x85) ∨ r.info = 0xFF))

/-- What a response carries: after OK the result count of the opcode; after Overflow and Underflow two detail words,
more bits requested than remain; after any other fault nothing (30_encoding.md R95, 60_exceptions.md R284). -/
def Obligations.ResponsesCarryTheirResults : Prop :=
  ∀ (i : Instr) (s t : State) (r : Response), s.Inv → exec i s = .next t → t.responses = s.responses ++ [r] →
    (r.fault = none → ∀ row ∈ opcodeMap, row.mnemonic = i.mnemonic → r.results.length = row.nres) ∧
    (∀ k, r.fault = some k →
      (k = .overflow ∨ k = .underflow → ∃ a b : Word, r.results = [a, b] ∧ b.toNat < a.toNat) ∧
      (k ≠ .overflow → k ≠ .underflow → r.results = []))

/-- A fault poisons the writer, or poisons the reader, exactly where 60_exceptions.md R288 lists it, and then leaves
everything else exactly as it was; every other fault leaves all state exactly as it was (R295). -/
def Obligations.FaultsPoisonAsListedOrChangeNothing : Prop :=
  ∀ (i : Instr) (s t : State) (r : Response) (k : FaultKind), s.Inv → exec i s = .next t →
    t.responses = s.responses ++ [r] → r.fault = some k →
    let poisonsW := (k = .invalidArgument ∧ r.info = 0x83 ∧ ∃ c v, i = .write c v) ∨
      (k = .overflow ∧ i.appendsBits = true)
    let poisonsR := (k = .invalidArgument ∧ r.info = 0x83 ∧ ∃ c, i = .read c) ∨
      (k = .underflow ∧ i.consumesBits = true) ∨ (k = .overflow ∧ ∃ b, i = .rput b)
    (poisonsW → s.w.poison = false ∧ t.w.PoisonedFrom s.w ∧
      t.r = s.r ∧ t.slots = s.slots ∧ t.port = s.port) ∧
    (poisonsR → s.r.poison = false ∧ t.r.PoisonedFrom s.r ∧
      t.w = s.w ∧ t.slots = s.slots ∧ t.port = s.port) ∧
    (¬poisonsW → ¬poisonsR → t = s.respond r)

/-- Every writer command refuses a closed writer and a poisoned one, and so does every reader command with the reader,
before anything else and with no change of state (40_writer.md R120, 41_reader.md R140). -/
def Obligations.PreludesRefuseClosedAndPoisoned : Prop :=
  ∀ (i : Instr) (s : State),
    (i.isWriterCommand = true → UsesWriter i s True) ∧ (i.isReaderCommand = true → UsesReader i s True)

/-- The lifecycle state of each context changes along the transitions of 10_state.md R30 and no others. -/
def Obligations.LifecycleFollowsItsTransitions : Prop :=
  ∀ (i : Instr) (s t : State) (r : Response), s.Inv → exec i s = .next t → t.responses = s.responses ++ [r] →
    t.w.lifecycle = writerNext i r s.w.lifecycle ∧ t.r.lifecycle = readerNext i r s.r.lifecycle

/-- No command touches both contexts, and a command changes no context that it does not touch (20_memory.md R60, R78,
10_state.md R30). -/
def Obligations.ContextsAreIndependent : Prop :=
  ∀ (i : Instr) (s t : State), exec i s = .next t →
    ¬(i.touchesWriter = true ∧ i.touchesReader = true) ∧
    (i.touchesWriter = false → t.w = s.w) ∧ (i.touchesReader = false → t.r = s.r)

/-- A slot changes only when a configuration command naming it succeeds, and then the whole slot is replaced, whatever
it held; no command returns a slot to `EMPTY` (10_state.md R46, R41). -/
def Obligations.SlotsChangeOnlyByConfiguration : Prop :=
  ∀ (i : Instr) (s t : State) (r : Response), exec i s = .next t → t.responses = s.responses ++ [r] →
    t.slots.length = s.slots.length ∧
    (r.fault ≠ none → t.slots = s.slots) ∧
    ∀ k, (i.configuredSlot ≠ some k → t.slots[k]? = s.slots[k]?) ∧
      (i.configuredSlot = some k → r.fault = none →
        ∀ d, exec i { s with slots := s.slots.set k d } = .next t) ∧
      (t.slots[k]? = some .empty → s.slots[k]? = some .empty)

/-- No field that is UNSPECIFIED can be observed: from two states that differ only there, every step gives two states
that differ only there, so all responses to come are equal (60_exceptions.md R289, 10_state.md R25, R33, R50). It holds
for every value of the free values (log 4, log 7). -/
def Obligations.UnspecifiedFieldsAreNeverObserved : Prop :=
  ∀ s t s' : State, s.Inv → t.Inv → s.SameSeen t → step s = .next s' →
    ∃ t', step t = .next t' ∧ s'.SameSeen t'

/-! ### The storages -/

/-- The access primitives and the numbering of bits, bytes and cells (20_memory.md R62 to R65); a field read back in
two parts gives its low bits and then its next bits (R79). -/
def Obligations.StorageAccessPrimitives : Prop :=
  ∀ m : Memory, m.wf = true →
    (∀ s, m.bit s = (m.byte (s / 8)).getLsbD (s % 8) ∧ m.bit s = (m.cell (s / 64)).getLsbD (s % 64)) ∧
    (∀ i, m.read (8 * i) 8 = (m.byte i).toNat) ∧
    (∀ a n, m.read a n = ∑ i ∈ Finset.range n, (m.bit (a + i)).toNat * 2 ^ i) ∧
    (∀ a n v, a + n ≤ m.bitSize → Stored m (m.write a n v) a n v) ∧
    (∀ a n₁ n₂ v, a + (n₁ + n₂) ≤ m.bitSize →
      (m.write a (n₁ + n₂) v).read a n₁ = v % 2 ^ n₁ ∧
      (m.write a (n₁ + n₂) v).read (a + n₁) n₂ = v / 2 ^ n₁ % 2 ^ n₂)

/-- The two-cell write is `MemWrite` wherever the bits it stores to are 0 (20_memory.md R66). -/
def Obligations.TwoCellWriteIsMemWrite : Prop :=
  ∀ (m : Memory) (c n v : Nat), m.wf = true → m.size % 8 = 0 → 1 ≤ n → n ≤ 32 → c + n ≤ m.bitSize →
    ZeroBits m c (c + n) → m.cellWrite c n v = m.write c n v

/-- The two-cell read is `MemRead` (20_memory.md R67). -/
def Obligations.TwoCellReadIsMemRead : Prop :=
  ∀ (m : Memory) (c n : Nat), m.wf = true → m.size % 8 = 0 → 1 ≤ n → n ≤ 32 → c + n ≤ m.bitSize →
    m.cellRead c n = m.read c n

/-! ### Diagnostics -/

/-- `STAT` reads the four lifecycle bits in every state (48_diagnostics.md R270, 10_state.md R37). -/
def Obligations.StatReadsTheLifecycleBits : Prop :=
  encode .stat = ⟨0x00000001#32, []⟩ ∧
  ∀ s : State, ∃ x : Word, Completes .stat s s [x] ∧
    x.getLsbD 0 = s.w.live ∧ x.getLsbD 1 = s.w.poison ∧ x.getLsbD 2 = s.r.live ∧ x.getLsbD 3 = s.r.poison ∧
    (∀ k, 4 ≤ k → x.getLsbD k = false) ∧
    (s.Inv → (x.getLsbD 1 = true → x.getLsbD 0 = true) ∧ (x.getLsbD 3 = true → x.getLsbD 2 = true))

/-- `SLOTBITS` answers the total bit count of a packer and its byte counts, and refuses a slot that has none
(48_diagnostics.md R271). -/
def Obligations.SlotbitsReportsBitCounts : Prop :=
  ∀ (s : State) (slot : Nat),
    encode (.slotbits slot) = ⟨BitVec.ofNat 32 (0x02 + 2 ^ 8 * slot), []⟩ ∧
    (∀ b, (∃ ax, s.slots[slot]? = some (.float ax) ∧ b = 1 + ax.mag) ∨
        (∃ x y, s.slots[slot]? = some (.vec2 x y) ∧ b = (1 + x.mag) + (1 + y.mag)) ∨
        (∃ x y z, s.slots[slot]? = some (.vec3 x y z) ∧ b = (1 + x.mag) + (1 + y.mag) + (1 + z.mag)) ∨
        (∃ x y z pr, s.slots[slot]? = some (.pos x y z pr) ∧ b = x.bits + y.bits + z.bits) →
      Completes (.slotbits slot) s s [BitVec.ofNat 32 b, BitVec.ofNat 32 ((b + 7) / 8), BitVec.ofNat 32 (b / 8)]) ∧
    (s.slots.length ≤ slot ∨ s.slots[slot]? = some .empty ∨
        (∃ small medium large, s.slots[slot]? = some (.uvar small medium large)) →
      Rejects (.slotbits slot) s .invalidArgument 0x84)

/-- `UMAX` answers `2^large - 1` of a variable packer and refuses every other slot (48_diagnostics.md R272). -/
def Obligations.UmaxReportsMaxValue : Prop :=
  ∀ (s : State) (slot : Nat),
    encode (.umax slot) = ⟨BitVec.ofNat 32 (0x03 + 2 ^ 8 * slot), []⟩ ∧
    (∀ small medium large, s.slots[slot]? = some (.uvar small medium large) →
      Completes (.umax slot) s s [BitVec.ofNat 32 (2 ^ large - 1)]) ∧
    ((∀ small medium large, s.slots[slot]? ≠ some (.uvar small medium large)) →
      Rejects (.umax slot) s .invalidArgument 0x84)

/-! ### The writer -/

/-- `WOPEN` (40_writer.md R122): refused where a writer exists, then where the capacity exceeds the storage; otherwise
a zeroed writer of whole 64-bit cells. -/
def Obligations.WopenConstructsTheWriter : Prop :=
  ∀ (s : State) (capBytes : Word), s.Inv →
    encode (.wopen capBytes) = ⟨0x00000010#32, [capBytes]⟩ ∧
    (s.w.live = true → Rejects (.wopen capBytes) s .invalidArgument 0x85) ∧
    (s.w.live = false → s.params.wCapMaxBytes < capBytes.toNat →
      Rejects (.wopen capBytes) s .invalidArgument 0) ∧
    (s.w.live = false → capBytes.toNat ≤ s.params.wCapMaxBytes →
      ∃ m', Zeroed s.w.mem m' (64 * ((capBytes.toNat + 7) / 8)) ∧
        Completes (.wopen capBytes) s
          { s with w := { live := true, poison := false, cap := 64 * ((capBytes.toNat + 7) / 8), wbit := 0,
                          mem := m' } } [])

/-- `WRITE` and the primitive write step (40_writer.md R123, R121): a count above 32 poisons, a count of 0 changes
nothing, any other count appends the low bits of the value or, where they do not fit, poisons. -/
def Obligations.WriteAppendsTheLowBits : Prop :=
  ∀ (s : State) (cnt : Nat) (value : Word), s.Inv →
    encode (.write cnt value) = ⟨BitVec.ofNat 32 (0x11 + 2 ^ 12 * cnt), [value]⟩ ∧
    UsesWriter (.write cnt value) s (
      (32 < cnt → PoisonsWriter (.write cnt value) s .invalidArgument 0x83 []) ∧
      (cnt = 0 → Completes (.write cnt value) s s []) ∧
      (1 ≤ cnt → cnt ≤ 32 → Appends (.write cnt value) s cnt value.toNat))

/-- `WRESET` (40_writer.md R124): refused on a closed writer; otherwise, poisoned or not, the whole range is zeroed, the
cursor goes to 0 and the capacity stays. -/
def Obligations.WresetZeroesTheWriter : Prop :=
  encode .wreset = ⟨0x00000012#32, []⟩ ∧
  ∀ s : State, s.Inv →
    (s.w.live = false → Rejects .wreset s .disposedResource 0xFF) ∧
    (s.w.live = true → ∃ m', Zeroed s.w.mem m' s.w.cap ∧
      Completes .wreset s { s with w := { s.w with poison := false, wbit := 0, mem := m' } } [])

/-- `WBYTELEN` rounds the writer's cursor up to bytes (40_writer.md R125); `RBYTEPOS` rounds the reader's cursor down
(41_reader.md R145). -/
def Obligations.ByteCountsOfTheCursors : Prop :=
  encode .wbytelen = ⟨0x00000013#32, []⟩ ∧ encode .rbytepos = ⟨0x00000023#32, []⟩ ∧
  ∀ s : State,
    UsesWriter .wbytelen s (Completes .wbytelen s s [BitVec.ofNat 32 ((s.w.wbit + 7) / 8)]) ∧
    UsesReader .rbytepos s (Completes .rbytepos s s [BitVec.ofNat 32 (s.r.rbit / 8)])

/-- `WBYTE` (40_writer.md R126): one byte of the stream below the byte length, its bits above the cursor 0
(20_memory.md R80). -/
def Obligations.WbyteExportsOneByte : Prop :=
  ∀ (s : State) (index : Word), s.Inv →
    encode (.wbyte index) = ⟨0x00000014#32, [index]⟩ ∧
    UsesWriter (.wbyte index) s (
      ((s.w.wbit + 7) / 8 ≤ index.toNat → Rejects (.wbyte index) s .invalidArgument 0) ∧
      (index.toNat < (s.w.wbit + 7) / 8 →
        Completes (.wbyte index) s s [BitVec.ofNat 32 (s.w.mem.read (8 * index.toNat) 8)] ∧
        ∀ a, s.w.wbit ≤ a → a < 8 * index.toNat + 8 → s.w.mem.bit a = false))

/-- `WCLOSE` and `RCLOSE` (40_writer.md R127, 41_reader.md R146): refused on a closed context; otherwise, poisoned or
not, the context is closed and its integer fields are 0. -/
def Obligations.ReleasesCloseTheContext : Prop :=
  encode .wclose = ⟨0x00000015#32, []⟩ ∧ encode .rclose = ⟨0x00000024#32, []⟩ ∧
  ∀ s : State,
    (s.w.live = false → Rejects .wclose s .disposedResource 0xFF) ∧
    (s.w.live = true → Completes .wclose s
      { s with w := { live := false, poison := false, cap := 0, wbit := 0, mem := s.w.mem } } []) ∧
    (s.r.live = false → Rejects .rclose s .disposedResource 0xFF) ∧
    (s.r.live = true → Completes .rclose s
      { s with r := { live := false, poison := false, limit := 0, rbit := 0, mem := s.r.mem } } [])

/-! ### The reader -/

/-- `ROPEN` (41_reader.md R141): refused where a reader exists; otherwise an empty reader over zeroed storage. -/
def Obligations.RopenConstructsTheReader : Prop :=
  encode .ropen = ⟨0x00000020#32, []⟩ ∧
  ∀ s : State, s.Inv →
    (s.r.live = true → Rejects .ropen s .invalidArgument 0x85) ∧
    (s.r.live = false → ∃ m', Zeroed s.r.mem m' (8 * s.params.rCapMaxBytes) ∧
      Completes .ropen s { s with r := { live := true, poison := false, limit := 0, rbit := 0, mem := m' } } [])

/-- `RPUT` (41_reader.md R143): the low 8 bits of the operand go to the stream at the limit, which grows by 8; a full
storage is Overflow and poisons the reader. -/
def Obligations.RputFeedsOneByte : Prop :=
  ∀ (s : State) (byte : Word), s.Inv →
    encode (.rput byte) = ⟨0x00000021#32, [byte]⟩ ∧
    UsesReader (.rput byte) s (
      (8 * s.params.rCapMaxBytes < s.r.limit + 8 → PoisonsReader (.rput byte) s .overflow 0xFF
        [8#32, BitVec.ofNat 32 (8 * s.params.rCapMaxBytes - s.r.limit)]) ∧
      (s.r.limit + 8 ≤ 8 * s.params.rCapMaxBytes →
        ∃ m', Stored s.r.mem m' s.r.limit 8 (byte.toNat % 2 ^ 8) ∧
          Completes (.rput byte) s { s with r := { s.r with limit := s.r.limit + 8, mem := m' } } []))

/-- `READ` and the primitive read step (41_reader.md R144, R142): a count of 0 or above 32 poisons; any other count
consumes that many bits, the first of them bit 0 of the result, or poisons where fewer are left. -/
def Obligations.ReadConsumesBits : Prop :=
  ∀ (s : State) (cnt : Nat), s.Inv →
    encode (.read cnt) = ⟨BitVec.ofNat 32 (0x22 + 2 ^ 12 * cnt), []⟩ ∧
    UsesReader (.read cnt) s (
      (cnt = 0 ∨ 32 < cnt → PoisonsReader (.read cnt) s .invalidArgument 0x83 []) ∧
      (1 ≤ cnt → cnt ≤ 32 →
        Consumes (.read cnt) s cnt [BitVec.ofNat 32 (s.r.mem.read s.r.rbit cnt)] ∧
        s.r.mem.read s.r.rbit cnt < 2 ^ cnt))

/-! ### The pure functions -/

/-- `BITCNT` (46_bitcount.md R241, R240): the `k` with `2^(k-1) ≤ max - min < 2^k`, the difference not wrapped. -/
def Obligations.BitcntCountsBits : Prop :=
  ∀ (s : State) (min max : Word),
    encode (.bitcnt min max) = ⟨0x00000030#32, [min, max]⟩ ∧
    (max.toInt ≤ min.toInt → Rejects (.bitcnt min max) s .invalidArgument 1) ∧
    (min.toInt < max.toInt → ∃ k : Nat, 1 ≤ k ∧ k ≤ 32 ∧
      (2 : Int) ^ (k - 1) ≤ max.toInt - min.toInt ∧ max.toInt - min.toInt < 2 ^ k ∧
      Completes (.bitcnt min max) s s [BitVec.ofNat 32 k])

/-- `SCALETOU` (42_scale.md R165, R163): its checks in their order, then `floor(x + 1/2)` of the exact interpolation,
which lies between the destination bounds. -/
def Obligations.ScaletouInterpolatesAndRounds : Prop :=
  ∀ (s : State) (value srcMin srcMax dstMin dstMax : Word),
    let i := Instr.scaletou value srcMin srcMax dstMin dstMax
    encode i = ⟨0x00000031#32, [value, srcMin, srcMax, dstMin, dstMax]⟩ ∧
    (f32dec value = none → Rejects i s .invalidArgument 0) ∧
    ∀ v, f32dec value = some v →
      (f32dec srcMin = none → Rejects i s .invalidArgument 1) ∧
      ∀ a, f32dec srcMin = some a →
        (f32dec srcMax = none → Rejects i s .invalidArgument 2) ∧
        ∀ b, f32dec srcMax = some b →
          (b ≤ a → Rejects i s .invalidArgument 2) ∧
          (a < b → dstMax.toNat ≤ dstMin.toNat → Rejects i s .invalidArgument 4) ∧
          (a < b → dstMin.toNat < dstMax.toNat → v < a ∨ b < v → Rejects i s .outOfRange 0) ∧
          (a < b → dstMin.toNat < dstMax.toNat → a ≤ v → v ≤ b →
            ∃ c : Nat, dstMin.toNat ≤ c ∧ c ≤ dstMax.toNat ∧
              (c : Int) = ⌊(dstMin.toNat : Rat) +
                (v - a) * ((dstMax.toNat : Rat) - dstMin.toNat) / (b - a) + 1 / 2⌋ ∧
              Completes i s s [BitVec.ofNat 32 c])

/-- `SCALEFROMU` (42_scale.md R166, R164): its checks in their order, then the exact inverse interpolation, encoded
once. -/
def Obligations.ScalefromuInterpolates : Prop :=
  ∀ (s : State) (code srcMin srcMax dstMin dstMax : Word),
    let i := Instr.scalefromu code srcMin srcMax dstMin dstMax
    encode i = ⟨0x00000032#32, [code, srcMin, srcMax, dstMin, dstMax]⟩ ∧
    (srcMax.toNat ≤ srcMin.toNat → Rejects i s .invalidArgument 2) ∧
    (srcMin.toNat < srcMax.toNat →
      (f32dec dstMin = none → Rejects i s .invalidArgument 3) ∧
      ∀ a, f32dec dstMin = some a →
        (f32dec dstMax = none → Rejects i s .invalidArgument 4) ∧
        ∀ b, f32dec dstMax = some b →
          (b ≤ a → Rejects i s .invalidArgument 4) ∧
          (a < b → code.toNat < srcMin.toNat ∨ srcMax.toNat < code.toNat → Rejects i s .outOfRange 0) ∧
          (a < b → srcMin.toNat ≤ code.toNat → code.toNat ≤ srcMax.toNat →
            Completes i s s [f32enc (a + ((code.toNat : Rat) - srcMin.toNat) * (b - a) /
              ((srcMax.toNat : Rat) - srcMin.toNat))]))

/-! ### The FloatPacker -/

/-- `FCFG` (43_floatpacker.md R180, R181): no such slot, or the operand at fault, or the slot holds the axis the two
words construct; and two words always do one of the two. -/
def Obligations.FcfgConstructsAnAxis : Prop :=
  ∀ (s : State) (slot : Nat) (max precision : Word),
    let i := Instr.fcfg slot max precision
    encode i = ⟨BitVec.ofNat 32 (0x40 + 2 ^ 8 * slot), [max, precision]⟩ ∧
    (s.slots.length ≤ slot → Rejects i s .invalidArgument 0x84) ∧
    (slot < s.slots.length →
      (∀ info, AxisRefused 0 1 max precision info → Rejects i s .invalidArgument info) ∧
      (∀ ax, AxisAccepted max precision ax → Completes i s { s with slots := s.slots.set slot (.float ax) } [])) ∧
    ((∃ info, AxisRefused 0 1 max precision info) ∨ ∃ ax, AxisAccepted max precision ax)

/-- `FPACK` (43_floatpacker.md R182, R185, R186): its refusals in their order, then the sign bit and the magnitude code
of the value, all of them or none. -/
def Obligations.FpackAppendsSignAndMagnitude : Prop :=
  ∀ (s : State) (slot : Nat) (value : Word), s.Inv →
    let i := Instr.fpack slot value
    encode i = ⟨BitVec.ofNat 32 (0x41 + 2 ^ 8 * slot), [value]⟩ ∧
    UsesWriter i s (
      ((∀ ax, s.slots[slot]? ≠ some (.float ax)) → Rejects i s .invalidArgument 0x84) ∧
      ∀ ax, s.slots[slot]? = some (.float ax) →
        (∀ kind info, ValueRefused ax 0 value kind info → Rejects i s kind info) ∧
        (∀ v, ValueAccepted ax value v → Appends i s ax.bitCount (axisField ax v)))

/-- `FUNPACK` (43_floatpacker.md R183, R187): its refusals in their order, then one field consumed and its exact value
encoded once. -/
def Obligations.FunpackGivesTheValueBack : Prop :=
  ∀ (s : State) (slot : Nat), s.Inv →
    let i := Instr.funpack slot
    encode i = ⟨BitVec.ofNat 32 (0x42 + 2 ^ 8 * slot), []⟩ ∧
    UsesReader i s (
      ((∀ ax, s.slots[slot]? ≠ some (.float ax)) → Rejects i s .invalidArgument 0x84) ∧
      ∀ ax, s.slots[slot]? = some (.float ax) →
        Consumes i s ax.bitCount [f32enc (axisValue ax (s.r.mem.read s.r.rbit ax.bitCount))])

/-! ### The vector packers -/

/-- `V2CFG` and `V3CFG` (44_vectorpackers.md R200, R203): the axes are constructed in the order x, y, z, and the first
operand at fault is named. -/
def Obligations.VectorConfigurationsConstructTheirAxes : Prop :=
  ∀ (s : State) (slot : Nat) (maxX maxY maxZ precX precY precZ : Word),
    (let i := Instr.v2cfg slot maxX maxY precX precY;
      encode i = ⟨BitVec.ofNat 32 (0x50 + 2 ^ 8 * slot), [maxX, maxY, precX, precY]⟩ ∧
      (s.slots.length ≤ slot → Rejects i s .invalidArgument 0x84) ∧
      (slot < s.slots.length →
        (∀ info, AxisRefused 0 2 maxX precX info → Rejects i s .invalidArgument info) ∧
        ∀ x, AxisAccepted maxX precX x →
          (∀ info, AxisRefused 1 3 maxY precY info → Rejects i s .invalidArgument info) ∧
          ∀ y, AxisAccepted maxY precY y →
            Completes i s { s with slots := s.slots.set slot (.vec2 x y) } [])) ∧
    (let i := Instr.v3cfg slot maxX maxY maxZ precX precY precZ;
      encode i = ⟨BitVec.ofNat 32 (0x54 + 2 ^ 8 * slot), [maxX, maxY, maxZ, precX, precY, precZ]⟩ ∧
      (s.slots.length ≤ slot → Rejects i s .invalidArgument 0x84) ∧
      (slot < s.slots.length →
        (∀ info, AxisRefused 0 3 maxX precX info → Rejects i s .invalidArgument info) ∧
        ∀ x, AxisAccepted maxX precX x →
          (∀ info, AxisRefused 1 4 maxY precY info → Rejects i s .invalidArgument info) ∧
          ∀ y, AxisAccepted maxY precY y →
            (∀ info, AxisRefused 2 5 maxZ precZ info → Rejects i s .invalidArgument info) ∧
            ∀ z, AxisAccepted maxZ precZ z →
              Completes i s { s with slots := s.slots.set slot (.vec3 x y z) } []))

/-- `V2PACK` and `V3PACK` (44_vectorpackers.md R201, R204, R206): every axis is checked, x before y before z, before the
first bit is written; then the fields of the axes follow one another, all of them or none. -/
def Obligations.VectorPacksAppendTheirAxes : Prop :=
  ∀ (s : State) (slot : Nat) (vx vy vz : Word), s.Inv →
    (let i := Instr.v2pack slot vx vy;
      encode i = ⟨BitVec.ofNat 32 (0x51 + 2 ^ 8 * slot), [vx, vy]⟩ ∧
      UsesWriter i s (
        ((∀ x y, s.slots[slot]? ≠ some (.vec2 x y)) → Rejects i s .invalidArgument 0x84) ∧
        ∀ x y, s.slots[slot]? = some (.vec2 x y) →
          (∀ kind info, ValueRefused x 0 vx kind info → Rejects i s kind info) ∧
          ∀ qx, ValueAccepted x vx qx →
            (∀ kind info, ValueRefused y 1 vy kind info → Rejects i s kind info) ∧
            ∀ qy, ValueAccepted y vy qy →
              Appends i s (x.bitCount + y.bitCount) (axisField x qx + 2 ^ x.bitCount * axisField y qy))) ∧
    (let i := Instr.v3pack slot vx vy vz;
      encode i = ⟨BitVec.ofNat 32 (0x55 + 2 ^ 8 * slot), [vx, vy, vz]⟩ ∧
      UsesWriter i s (
        ((∀ x y z, s.slots[slot]? ≠ some (.vec3 x y z)) → Rejects i s .invalidArgument 0x84) ∧
        ∀ x y z, s.slots[slot]? = some (.vec3 x y z) →
          (∀ kind info, ValueRefused x 0 vx kind info → Rejects i s kind info) ∧
          ∀ qx, ValueAccepted x vx qx →
            (∀ kind info, ValueRefused y 1 vy kind info → Rejects i s kind info) ∧
            ∀ qy, ValueAccepted y vy qy →
              (∀ kind info, ValueRefused z 2 vz kind info → Rejects i s kind info) ∧
              ∀ qz, ValueAccepted z vz qz →
                Appends i s (x.bitCount + y.bitCount + z.bitCount)
                  (axisField x qx + 2 ^ x.bitCount * (axisField y qy + 2 ^ y.bitCount * axisField z qz))))

/-- `V2UNPACK` and `V3UNPACK` (44_vectorpackers.md R202, R205, R206): the whole vector is required first, then the axes
are read in the order in which they were written. -/
def Obligations.VectorUnpacksGiveTheirAxesBack : Prop :=
  ∀ (s : State) (slot : Nat), s.Inv →
    (let i := Instr.v2unpack slot;
      encode i = ⟨BitVec.ofNat 32 (0x52 + 2 ^ 8 * slot), []⟩ ∧
      UsesReader i s (
        ((∀ x y, s.slots[slot]? ≠ some (.vec2 x y)) → Rejects i s .invalidArgument 0x84) ∧
        ∀ x y, s.slots[slot]? = some (.vec2 x y) →
          Consumes i s (x.bitCount + y.bitCount)
            [f32enc (axisValue x (s.r.mem.read s.r.rbit x.bitCount)),
              f32enc (axisValue y (s.r.mem.read (s.r.rbit + x.bitCount) y.bitCount))])) ∧
    (let i := Instr.v3unpack slot;
      encode i = ⟨BitVec.ofNat 32 (0x56 + 2 ^ 8 * slot), []⟩ ∧
      UsesReader i s (
        ((∀ x y z, s.slots[slot]? ≠ some (.vec3 x y z)) → Rejects i s .invalidArgument 0x84) ∧
        ∀ x y z, s.slots[slot]? = some (.vec3 x y z) →
          Consumes i s (x.bitCount + y.bitCount + z.bitCount)
            [f32enc (axisValue x (s.r.mem.read s.r.rbit x.bitCount)),
              f32enc (axisValue y (s.r.mem.read (s.r.rbit + x.bitCount) y.bitCount)),
              f32enc (axisValue z (s.r.mem.read (s.r.rbit + x.bitCount + y.bitCount) z.bitCount))]))

/-! ### The PositionPacker -/

/-- `PCFG` (45_positionpacker.md R220, R221): no such slot, or the first operand that is not finite, or the precision,
or the first axis at fault, or the slot holds the three axes. -/
def Obligations.PcfgConstructsThreeAxes : Prop :=
  ∀ (s : State) (slot : Nat) (minX minY minZ maxX maxY maxZ precision : Word),
    let i := Instr.pcfg slot minX minY minZ maxX maxY maxZ precision
    let words := [minX, minY, minZ, maxX, maxY, maxZ, precision]
    encode i = ⟨BitVec.ofNat 32 (0x60 + 2 ^ 8 * slot), words⟩ ∧
    (s.slots.length ≤ slot → Rejects i s .invalidArgument 0x84) ∧
    (slot < s.slots.length →
      (∀ (k : Nat) (w : Word), words[k]? = some w → f32dec w = none →
        (∀ (j : Nat) (u : Word), j < k → words[j]? = some u → f32dec u ≠ none) →
        Rejects i s .invalidArgument (BitVec.ofNat 8 k)) ∧
      ∀ x₀ y₀ z₀ x₁ y₁ z₁ pr : Rat,
        f32dec minX = some x₀ → f32dec minY = some y₀ → f32dec minZ = some z₀ →
        f32dec maxX = some x₁ → f32dec maxY = some y₁ → f32dec maxZ = some z₁ → f32dec precision = some pr →
        (pr ≤ 0 → Rejects i s .invalidArgument 6) ∧
        (0 < pr →
          (∀ info, PosAxisRefused 0 x₀ x₁ pr info → Rejects i s .invalidArgument info) ∧
          ∀ x : PosAxis, x.min = x₀ → x.max = x₁ → PosAxisAccepted pr x →
            (∀ info, PosAxisRefused 1 y₀ y₁ pr info → Rejects i s .invalidArgument info) ∧
            ∀ y : PosAxis, y.min = y₀ → y.max = y₁ → PosAxisAccepted pr y →
              (∀ info, PosAxisRefused 2 z₀ z₁ pr info → Rejects i s .invalidArgument info) ∧
              ∀ z : PosAxis, z.min = z₀ → z.max = z₁ → PosAxisAccepted pr z →
                Completes i s { s with slots := s.slots.set slot (.pos x y z pr) } []))

/-- `PPACK` (45_positionpacker.md R222): its refusals in their order, then the three codes of the clamped values, x, y,
z, all of them or none; a value outside the bounds is not refused. -/
def Obligations.PpackAppendsThreeCodes : Prop :=
  ∀ (s : State) (slot : Nat) (vx vy vz : Word), s.Inv →
    let i := Instr.ppack slot vx vy vz
    encode i = ⟨BitVec.ofNat 32 (0x61 + 2 ^ 8 * slot), [vx, vy, vz]⟩ ∧
    UsesWriter i s (
      ((∀ x y z pr, s.slots[slot]? ≠ some (.pos x y z pr)) → Rejects i s .invalidArgument 0x84) ∧
      ∀ x y z pr, s.slots[slot]? = some (.pos x y z pr) →
        (f32dec vx = none → Rejects i s .invalidArgument 0) ∧
        ∀ qx, f32dec vx = some qx →
          (f32dec vy = none → Rejects i s .invalidArgument 1) ∧
          ∀ qy, f32dec vy = some qy →
            (f32dec vz = none → Rejects i s .invalidArgument 2) ∧
            ∀ qz, f32dec vz = some qz →
              Appends i s (x.bits + y.bits + z.bits)
                (posField x qx + 2 ^ x.bits * (posField y qy + 2 ^ y.bits * posField z qz)))

/-- `PUNPACK` (45_positionpacker.md R223): the whole position is required first, then three codes are read and each
exact value is encoded once. -/
def Obligations.PunpackGivesThreeValuesBack : Prop :=
  ∀ (s : State) (slot : Nat), s.Inv →
    let i := Instr.punpack slot
    encode i = ⟨BitVec.ofNat 32 (0x62 + 2 ^ 8 * slot), []⟩ ∧
    UsesReader i s (
      ((∀ x y z pr, s.slots[slot]? ≠ some (.pos x y z pr)) → Rejects i s .invalidArgument 0x84) ∧
      ∀ x y z pr, s.slots[slot]? = some (.pos x y z pr) →
        Consumes i s (x.bits + y.bits + z.bits)
          [f32enc (posValue x (s.r.mem.read s.r.rbit x.bits)),
            f32enc (posValue y (s.r.mem.read (s.r.rbit + x.bits) y.bits)),
            f32enc (posValue z (s.r.mem.read (s.r.rbit + x.bits + y.bits) z.bits))])

/-! ### The UIntVariablePacker -/

/-- `UCFG` (47_uintvariable.md R250): no such slot, or the first width that breaks `1 ≤ small < medium < large ≤ 32`, or
the slot holds the three widths. -/
def Obligations.UcfgConstructsThreeWidths : Prop :=
  ∀ (s : State) (slot : Nat) (small medium large : Word),
    let i := Instr.ucfg slot small medium large
    encode i = ⟨BitVec.ofNat 32 (0x70 + 2 ^ 8 * slot), [small, medium, large]⟩ ∧
    (s.slots.length ≤ slot → Rejects i s .invalidArgument 0x84) ∧
    (slot < s.slots.length →
      (small.toNat < 1 → Rejects i s .invalidArgument 0) ∧
      (1 ≤ small.toNat → medium.toNat ≤ small.toNat → Rejects i s .invalidArgument 1) ∧
      (1 ≤ small.toNat → small.toNat < medium.toNat → large.toNat ≤ medium.toNat ∨ 32 < large.toNat →
        Rejects i s .invalidArgument 2) ∧
      (1 ≤ small.toNat → small.toNat < medium.toNat → medium.toNat < large.toNat → large.toNat ≤ 32 →
        Completes i s { s with slots := s.slots.set slot (.uvar small.toNat medium.toNat large.toNat) } []))

/-- `UPACK` (47_uintvariable.md R253, R251, R252): its refusals in their order, then the selector and the value in the
smallest bin that holds it, all of it or none. -/
def Obligations.UpackAppendsTheSmallestBin : Prop :=
  ∀ (s : State) (slot : Nat) (value : Word), s.Inv →
    let i := Instr.upack slot value
    encode i = ⟨BitVec.ofNat 32 (0x71 + 2 ^ 8 * slot), [value]⟩ ∧
    UsesWriter i s (
      ((∀ small medium large, s.slots[slot]? ≠ some (.uvar small medium large)) →
        Rejects i s .invalidArgument 0x84) ∧
      ∀ small medium large, s.slots[slot]? = some (.uvar small medium large) →
        (2 ^ large ≤ value.toNat → Rejects i s .outOfRange 0) ∧
        (value.toNat < 2 ^ large →
          Appends i s (uvarWidth small medium large value.toNat) (uvarField small medium value.toNat)))

/-- `UUNPACK` (47_uintvariable.md R255, R254): its refusals in their order, then selector bits and the payload of that
bin, each `Read` step with its own Underflow. -/
def Obligations.UunpackReadsTheSelectedBin : Prop :=
  ∀ (s : State) (slot : Nat), s.Inv →
    let i := Instr.uunpack slot
    encode i = ⟨BitVec.ofNat 32 (0x72 + 2 ^ 8 * slot), []⟩ ∧
    UsesReader i s (
      ((∀ small medium large, s.slots[slot]? ≠ some (.uvar small medium large)) →
        Rejects i s .invalidArgument 0x84) ∧
      ∀ small medium large, s.slots[slot]? = some (.uvar small medium large) →
        TakesUvar i s small medium large s.r.rbit (fun v => [BitVec.ofNat 32 v]))

/-- `UPACKN` (47_uintvariable.md R256): bit 0 of the first operand says whether a value is present; an absent value is
one 0 bit and is not examined, a present one a 1 bit and its encoding, all of it or none. -/
def Obligations.UpacknPrefixesAPresenceBit : Prop :=
  ∀ (s : State) (slot : Nat) (present value : Word), s.Inv →
    let i := Instr.upackn slot present value
    encode i = ⟨BitVec.ofNat 32 (0x73 + 2 ^ 8 * slot), [present, value]⟩ ∧
    UsesWriter i s (
      ((∀ small medium large, s.slots[slot]? ≠ some (.uvar small medium large)) →
        Rejects i s .invalidArgument 0x84) ∧
      ∀ small medium large, s.slots[slot]? = some (.uvar small medium large) →
        (present.getLsbD 0 = false → Appends i s 1 0) ∧
        (present.getLsbD 0 = true → 2 ^ large ≤ value.toNat → Rejects i s .outOfRange 1) ∧
        (present.getLsbD 0 = true → value.toNat < 2 ^ large →
          Appends i s (1 + uvarWidth small medium large value.toNat)
            (1 + 2 * uvarField small medium value.toNat)))

/-- `UUNPACKN` (47_uintvariable.md R257): a presence bit, and the value where it is 1; both result words are always
sent. -/
def Obligations.UunpacknReadsAPresenceBit : Prop :=
  ∀ (s : State) (slot : Nat), s.Inv →
    let i := Instr.uunpackn slot
    encode i = ⟨BitVec.ofNat 32 (0x74 + 2 ^ 8 * slot), []⟩ ∧
    UsesReader i s (
      ((∀ small medium large, s.slots[slot]? ≠ some (.uvar small medium large)) →
        Rejects i s .invalidArgument 0x84) ∧
      ∀ small medium large, s.slots[slot]? = some (.uvar small medium large) →
        ReadsAt i s s.r.rbit 1
          ((s.r.mem.bit s.r.rbit = false →
            Completes i s { s with r := { s.r with rbit := s.r.rbit + 1 } } [0#32, 0#32]) ∧
          (s.r.mem.bit s.r.rbit = true →
            TakesUvar i s small medium large (s.r.rbit + 1) (fun v => [1#32, BitVec.ofNat 32 v]))))

/-! ### Laws -/

/-- `f32enc` (42_scale.md R162): the nearest binary32 value to every rational within the finite range, the even word of
two that are equally near, every zero result `0x00000000`; and `f32enc(f32dec(w)) = w` but for negative zero. -/
def Obligations.FloatEncodingIsNearest : Prop :=
  (∀ (q b : Rat), IsFloat32 b → |q| ≤ b → ∃ r, f32dec (f32enc q) = some r ∧
    (∀ x, IsFloat32 x → |r - q| ≤ |x - q|) ∧
    (∀ x, IsFloat32 x → x ≠ r → |x - q| = |r - q| → (f32enc q).getLsbD 0 = false) ∧
    (r = 0 → f32enc q = 0x00000000#32)) ∧
  (∀ (w : Word) (q : Rat), f32dec w = some q → w ≠ 0x80000000#32 → f32enc q = w)

/-- The laws of the scale functions (42_scale.md R167): both are monotonic; the round trip of a value errs by at most
half a step; the round trip of a code is exact; after encoding, between binary32 bounds, a binary32 value errs by at
most a step. -/
def Obligations.ScaleFunctionsObeyTheirLaws : Prop :=
  ∀ (lo hi : Rat) (c d : Nat), lo < hi → c < d →
    (∀ v₁ v₂, lo ≤ v₁ → v₁ ≤ v₂ → v₂ ≤ hi → scaleToUInt v₁ lo hi c d ≤ scaleToUInt v₂ lo hi c d) ∧
    (∀ c₁ c₂, c ≤ c₁ → c₁ ≤ c₂ → c₂ ≤ d → scaleFromUInt c₁ c d lo hi ≤ scaleFromUInt c₂ c d lo hi) ∧
    (∀ v, lo ≤ v → v ≤ hi →
      |scaleFromUInt (scaleToUInt v lo hi c d) c d lo hi - v| ≤ (hi - lo) / ((d : Rat) - c) / 2) ∧
    (∀ k, c ≤ k → k ≤ d → scaleToUInt (scaleFromUInt k c d lo hi) lo hi c d = k) ∧
    (IsFloat32 lo → IsFloat32 hi → ∀ v, IsFloat32 v → lo ≤ v → v ≤ hi →
      ∃ q, f32dec (f32enc (scaleFromUInt (scaleToUInt v lo hi c d) c d lo hi)) = some q ∧
        |q - v| ≤ (hi - lo) / ((d : Rat) - c))

/-- The FloatPacker's laws (43_floatpacker.md R184): the step is at most the precision; the exact reconstruction errs by
at most half a step; and what `FPACK` appends, `FUNPACK` with the same descriptor gives back within the precision, zero
and the two bounds exactly, both moving their cursor by the same bit count. -/
def Obligations.FloatPackerRoundTrip : Prop :=
  ∀ ax : Axis, ax.Ok →
    (ax.max / (2 ^ ax.mag - 1) ≤ ax.max / (⌈ax.max / ax.prec⌉ : Rat) ∧
      ax.max / (⌈ax.max / ax.prec⌉ : Rat) ≤ ax.prec) ∧
    (∀ v, |v| ≤ ax.max → |axisValue ax (axisField ax v) - v| ≤ ax.max / (2 ^ ax.mag - 1) / 2) ∧
    axisField ax 0 = 0 ∧
    ∀ (s : State) (slot : Nat) (value : Word) (v : Rat), s.Inv → s.w.live = true → s.w.poison = false →
      s.slots[slot]? = some (.float ax) → ValueAccepted ax value v → s.w.wbit + ax.bitCount ≤ s.w.cap →
      ∃ s₁, exec (.fpack slot value) s = .next s₁ ∧ s₁.w.wbit = s.w.wbit + ax.bitCount ∧
        ∀ t : State, t.Inv → t.r.live = true → t.r.poison = false → t.slots[slot]? = some (.float ax) →
          t.r.rbit + ax.bitCount ≤ t.r.limit →
          (∀ j, j < ax.bitCount → t.r.mem.bit (t.r.rbit + j) = s₁.w.mem.bit (s.w.wbit + j)) →
          ∃ y q, Completes (.funpack slot) t { t with r := { t.r with rbit := t.r.rbit + ax.bitCount } } [y] ∧
            f32dec y = some q ∧ |q - v| ≤ ax.prec ∧ (v = 0 → y = 0x00000000#32) ∧ (|v| = ax.max → q = v)

/-- The variable packer's round trip (47_uintvariable.md R259, R258): what `UPACK` and `UPACKN` append, `UUNPACK` and
`UUNPACKN` with the same widths give back exactly, consuming the bits that were appended. -/
def Obligations.UIntVariableRoundTrip : Prop :=
  ∀ (s t : State) (slot : Nat) (value present : Word) (small medium large : Nat), s.Inv → t.Inv →
    s.w.live = true → s.w.poison = false → t.r.live = true → t.r.poison = false →
    s.slots[slot]? = some (.uvar small medium large) → t.slots[slot]? = some (.uvar small medium large) →
    (let n := uvarWidth small medium large value.toNat;
      value.toNat < 2 ^ large → s.w.wbit + n ≤ s.w.cap →
      ∃ s₁, exec (.upack slot value) s = .next s₁ ∧ s₁.w.wbit = s.w.wbit + n ∧
        (t.r.rbit + n ≤ t.r.limit →
          (∀ j, j < n → t.r.mem.bit (t.r.rbit + j) = s₁.w.mem.bit (s.w.wbit + j)) →
          Completes (.uunpack slot) t { t with r := { t.r with rbit := t.r.rbit + n } } [value])) ∧
    (let n := if present.getLsbD 0 = true then 1 + uvarWidth small medium large value.toNat else 1;
      (present.getLsbD 0 = true → value.toNat < 2 ^ large) → s.w.wbit + n ≤ s.w.cap →
      ∃ s₁, exec (.upackn slot present value) s = .next s₁ ∧ s₁.w.wbit = s.w.wbit + n ∧
        (t.r.rbit + n ≤ t.r.limit →
          (∀ j, j < n → t.r.mem.bit (t.r.rbit + j) = s₁.w.mem.bit (s.w.wbit + j)) →
          Completes (.uunpackn slot) t { t with r := { t.r with rbit := t.r.rbit + n } }
            (if present.getLsbD 0 = true then [1#32, value] else [0#32, 0#32])))

/-- The laws of a writer that stays live (40_writer.md R129): after a sequence of `WRITE`s the cursor is the sum of the
counts, the stream is the concatenation of the fields, all bits above the cursor are 0, and the exported bytes are that
stream cut into bytes. -/
def Obligations.WritesConcatenate : Prop :=
  ∀ (s : State) (fields : List (Nat × Word)), s.Inv → s.w.live = true → s.w.poison = false → s.w.wbit = 0 →
    (∀ f ∈ fields, f.1 ≤ 32) → fieldsWidth fields ≤ s.w.cap →
    ∃ t, execAll (fields.map fun f => .write f.1 f.2) s = .next t ∧
      t.responses = s.responses ++ fields.map (fun _ => okResponse []) ∧
      t.w.live = true ∧ t.w.poison = false ∧ t.w.cap = s.w.cap ∧ t.w.wbit = fieldsWidth fields ∧
      t.w.mem.read 0 (fieldsWidth fields) = fieldsValue fields ∧
      ZeroBits t.w.mem t.w.wbit t.w.cap ∧
      ∀ k : Nat, k < (fieldsWidth fields + 7) / 8 →
        Completes (.wbyte (BitVec.ofNat 32 k)) t t [BitVec.ofNat 32 (fieldsValue fields / 2 ^ (8 * k) % 2 ^ 8)]

/-- The round trip of integer fields (41_reader.md R147): fields written from a cursor at 0, the exported bytes fed to a
fresh reader, and `READ`s of the same counts in the same order give the low bits of every value back; fields of 0 bits
occupy no bits and are skipped on the read side. -/
def Obligations.IntegerFieldsRoundTrip : Prop :=
  ∀ (s t : State) (fields : List (Nat × Word)) (bytes : List Word), s.Inv → s.w.live = true → s.w.poison = false →
    s.w.wbit = 0 → s.r.live = false → (∀ f ∈ fields, f.1 ≤ 32) → fieldsWidth fields ≤ s.w.cap →
    fieldsWidth fields ≤ 8 * s.params.rCapMaxBytes →
    execAll (fields.map fun f => .write f.1 f.2) s = .next t →
    bytes.length = (fieldsWidth fields + 7) / 8 →
    (∀ (k : Nat) (b : Word), bytes[k]? = some b → Completes (.wbyte (BitVec.ofNat 32 k)) t t [b]) →
    let reads := fields.filter fun f => f.1 ≠ 0
    ∃ u, execAll (.ropen :: (bytes.map fun b => .rput b) ++ reads.map fun f => .read f.1) t = .next u ∧
      u.responses = t.responses ++ okResponse [] :: (bytes.map fun _ => okResponse []) ++
        reads.map fun f => okResponse [BitVec.ofNat 32 (f.2.toNat % 2 ^ f.1)]

/-- A vector pack that succeeds leaves the writer as the sequence of `FPACK`s of its axes does, with descriptors equal
to the axes (44_vectorpackers.md R207 (a)). -/
def Obligations.VectorPackIsAxisByAxis : Prop :=
  ∀ (s : State) (slot kx ky kz : Nat) (vx vy vz : Word) (x y z : Axis), s.Inv →
    s.w.live = true → s.w.poison = false →
    s.slots[kx]? = some (.float x) → s.slots[ky]? = some (.float y) →
    (∃ qx, ValueAccepted x vx qx) → (∃ qy, ValueAccepted y vy qy) →
    (s.slots[slot]? = some (.vec2 x y) → s.w.wbit + (x.bitCount + y.bitCount) ≤ s.w.cap →
      ∃ t u, exec (.v2pack slot vx vy) s = .next t ∧
        execAll [.fpack kx vx, .fpack ky vy] s = .next u ∧
        t.w = u.w ∧ t.w.wbit = s.w.wbit + (x.bitCount + y.bitCount)) ∧
    (s.slots[kz]? = some (.float z) → (∃ qz, ValueAccepted z vz qz) → s.slots[slot]? = some (.vec3 x y z) →
      s.w.wbit + (x.bitCount + y.bitCount + z.bitCount) ≤ s.w.cap →
      ∃ t u, exec (.v3pack slot vx vy vz) s = .next t ∧
        execAll [.fpack kx vx, .fpack ky vy, .fpack kz vz] s = .next u ∧
        t.w = u.w ∧ t.w.wbit = s.w.wbit + (x.bitCount + y.bitCount + z.bitCount))
end

