-- ==== Sys2Proof/Laws/Memory.lean ====
section
/-! SUPPORT. The laws of the storages: the canonical form and that every operation keeps it, what one bit reads as after
every operation, and that storages in canonical form are equal when their bytes are. -/

namespace Sys2Proof.Machine

/-! ### The canonical list of bytes -/

/-- Every address of the list is at or above `lo`. -/
def Above (lo : Nat) (l : List Host.Cell) : Prop := ∀ c ∈ l, lo ≤ c.1

theorem rising_cons {k : Nat} {b : Byte} {l : List Host.Cell} :
    rising ((k, b) :: l) = true ↔ Above (k + 1) l ∧ rising l = true := by
  induction l generalizing k b with
  | nil => simp [rising, Above]
  | cons c l ih =>
    obtain ⟨j, d⟩ := c
    simp only [rising, Bool.and_eq_true, decide_eq_true_eq, ih, Above, List.mem_cons]
    constructor
    · rintro ⟨h, ha, hr⟩
      refine ⟨?_, ha, hr⟩
      rintro c (rfl | hc)
      · exact h
      · have := ha c hc; omega
    · rintro ⟨h, ha, hr⟩
      exact ⟨h _ (.inl rfl), ha, hr⟩

theorem byteAt_above {l : List Host.Cell} {lo i : Nat} (h : Above lo l) (hi : i < lo) :
    byteAt l i = Memory.unlisted := by
  cases l with
  | nil => rfl
  | cons c l =>
    have : lo ≤ c.1 := h c (List.mem_cons_self ..)
    obtain ⟨k, b⟩ := c
    simp only [byteAt]
    rw [if_pos (by simp at this; omega)]

theorem putByte_above {l : List Host.Cell} {lo i : Nat} {b : Byte} (h : Above lo l) (hi : lo ≤ i) :
    Above lo (putByte l i b) := by
  induction l with
  | nil => intro c; simp only [putByte]; split <;> simp; rintro rfl; exact hi
  | cons d l ih =>
    obtain ⟨k, e⟩ := d
    have hl : Above lo l := fun c hc => h c (List.mem_cons_of_mem _ hc)
    have hk : lo ≤ k := h _ (List.mem_cons_self ..)
    intro c hc
    simp only [putByte] at hc
    split_ifs at hc
    · exact h c hc
    · rcases List.mem_cons.mp hc with rfl | hc
      · exact hi
      · exact h c hc
    · exact hl c hc
    · rcases List.mem_cons.mp hc with rfl | hc
      · exact hi
      · exact hl c hc
    · rcases List.mem_cons.mp hc with rfl | hc
      · exact hk
      · exact ih hl c hc

theorem putByte_rising {l : List Host.Cell} {i : Nat} {b : Byte} (h : rising l = true) :
    rising (putByte l i b) = true := by
  induction l with
  | nil => simp only [putByte]; split <;> rfl
  | cons d l ih =>
    obtain ⟨k, e⟩ := d
    obtain ⟨ha, hr⟩ := rising_cons.mp h
    simp only [putByte]
    split_ifs with h1 h2 h3 h4
    · exact h
    · refine rising_cons.mpr ⟨?_, h⟩
      intro c hc
      rcases List.mem_cons.mp hc with rfl | hc
      · exact h1
      · have := ha c hc; omega
    · exact hr
    · subst h3; exact rising_cons.mpr ⟨ha, hr⟩
    · exact rising_cons.mpr ⟨putByte_above ha (by omega), ih hr⟩

/-- What one byte of a rising list reads as after one byte of it is replaced. -/
theorem byteAt_putByte {l : List Host.Cell} (h : rising l = true) (i j : Nat) (b : Byte) :
    byteAt (putByte l i b) j = if j = i then b else byteAt l j := by
  induction l with
  | nil =>
    by_cases hb : b = Memory.unlisted <;> by_cases hj : j = i <;> simp_all [putByte, byteAt]
  | cons d l ih =>
    obtain ⟨k, e⟩ := d
    obtain ⟨ha, hr⟩ := rising_cons.mp h
    have hlow : ∀ x, x < k + 1 → byteAt l x = Memory.unlisted := fun x hx => byteAt_above ha hx
    by_cases h1 : i < k
    · by_cases hb : b = Memory.unlisted
      · by_cases hj : j = i
        · subst hj; simp [putByte, h1, hb, byteAt]
        · simp [putByte, h1, hb, hj]
      · simp only [putByte, if_pos h1, if_neg hb]
        by_cases hj : j = i
        · subst hj; simp [byteAt]
        · simp only [byteAt, if_neg hj]
          by_cases h2 : j < i
          · simp [h2, show j < k by omega]
          · simp [h2]
    · by_cases h2 : i = k
      · subst h2
        by_cases hb : b = Memory.unlisted
        · simp only [putByte, lt_irrefl, if_false, if_true, if_pos hb, byteAt]
          by_cases hj : j = i
          · subst hj; simp [hlow j (by omega), hb]
          · by_cases h3 : j < i
            · simp [hj, h3, hlow j (by omega)]
            · simp [hj, h3]
        · simp only [putByte, lt_irrefl, if_false, if_true, if_neg hb, byteAt]
          by_cases hj : j = i
          · subst hj; simp
          · simp [hj]
      · simp only [putByte, if_neg h1, if_neg h2, byteAt, ih hr]
        by_cases hj : j = i
        · subst hj; simp [h1, h2]
        · simp [hj]

/-- Every entry of the list satisfies `p`. -/
theorem putByte_all {p : Host.Cell → Prop} {l : List Host.Cell} {i : Nat} {b : Byte} (h : ∀ c ∈ l, p c)
    (hb : b ≠ Memory.unlisted → p (i, b)) : ∀ c ∈ putByte l i b, p c := by
  induction l with
  | nil =>
    intro c; simp only [putByte]; split
    · simp
    · rename_i h'; simp only [List.mem_singleton]; rintro rfl; exact hb h'
  | cons d l ih =>
    obtain ⟨k, e⟩ := d
    have hl : ∀ c ∈ l, p c := fun c hc => h c (List.mem_cons_of_mem _ hc)
    have hk := h _ (List.mem_cons_self ..)
    intro c hc
    simp only [putByte] at hc
    split_ifs at hc with h1 h2 h3 h4
    · exact h c hc
    · rcases List.mem_cons.mp hc with rfl | hc
      · exact hb h2
      · exact h c hc
    · exact hl c hc
    · rcases List.mem_cons.mp hc with rfl | hc
      · exact hb h4
      · exact hl c hc
    · rcases List.mem_cons.mp hc with rfl | hc
      · exact hk
      · exact ih hl c hc

/-! ### The canonical form of a storage -/

theorem Memory.wf_iff {m : Memory} :
    m.wf = true ↔ rising m.cells = true ∧ ∀ c ∈ m.cells, c.1 < m.size ∧ c.2 ≠ Memory.unlisted := by
  simp [Memory.wf, List.all_eq_true, bne_iff_ne]

theorem Memory.wf_rising {m : Memory} (h : m.wf = true) : rising m.cells = true := (Memory.wf_iff.mp h).1

theorem Memory.empty_wf (size : Nat) : Memory.wf ⟨size, []⟩ = true := rfl

theorem byteAt_ne_mem {l : List Host.Cell} {i : Nat} (h : byteAt l i ≠ Memory.unlisted) :
    (i, byteAt l i) ∈ l := by
  induction l with
  | nil => exact absurd rfl h
  | cons c l ih =>
    obtain ⟨k, b⟩ := c
    simp only [byteAt] at h ⊢
    split_ifs at h ⊢ with h1 h2
    · exact absurd rfl h
    · subst h2; exact List.mem_cons_self ..
    · exact List.mem_cons_of_mem _ (ih h)

theorem byteAt_mem {l : List Host.Cell} (h : rising l = true) {i : Nat} {b : Byte} (hm : (i, b) ∈ l) :
    byteAt l i = b := by
  induction l with
  | nil => simp at hm
  | cons c l ih =>
    obtain ⟨k, e⟩ := c
    obtain ⟨ha, hr⟩ := rising_cons.mp h
    rcases List.mem_cons.mp hm with heq | hm
    · obtain ⟨rfl, rfl⟩ := Prod.mk.injEq .. ▸ heq; simp [byteAt]
    · have := ha _ hm
      simp only [byteAt]
      rw [if_neg (by simp at this; omega), if_neg (by simp at this; omega), ih hr hm]

/-- A byte outside a storage in canonical form reads as an unlisted byte. -/
theorem Memory.byte_outside {m : Memory} (h : m.wf = true) {i : Nat} (hi : m.size ≤ i) :
    m.byte i = Memory.unlisted := by
  by_contra hne
  have := (Memory.wf_iff.mp h).2 _ (byteAt_ne_mem hne)
  simp at this; omega

theorem cells_eq_of_byteAt {l k : List Host.Cell} (hl : rising l = true) (hk : rising k = true)
    (nl : ∀ c ∈ l, c.2 ≠ Memory.unlisted) (nk : ∀ c ∈ k, c.2 ≠ Memory.unlisted)
    (h : ∀ i, byteAt l i = byteAt k i) : l = k := by
  induction l generalizing k with
  | nil =>
    cases k with
    | nil => rfl
    | cons c k =>
      have := h c.1
      rw [byteAt_mem hk (b := c.2) (List.mem_cons_self ..)] at this
      exact absurd this.symm (nk c (List.mem_cons_self ..))
  | cons c l ih =>
    cases k with
    | nil =>
      have := h c.1
      rw [byteAt_mem hl (b := c.2) (List.mem_cons_self ..)] at this
      exact absurd this (nl c (List.mem_cons_self ..))
    | cons d k =>
      obtain ⟨i, b⟩ := c
      obtain ⟨j, e⟩ := d
      obtain ⟨al, rl⟩ := rising_cons.mp hl
      obtain ⟨ak, rk⟩ := rising_cons.mp hk
      have hb : b ≠ Memory.unlisted := nl (i, b) (List.mem_cons_self ..)
      have he : e ≠ Memory.unlisted := nk (j, e) (List.mem_cons_self ..)
      have hij : i = j := by
        rcases Nat.lt_trichotomy i j with hlt | heq | hgt
        · have := h i; simp [byteAt, hlt] at this; exact absurd this hb
        · exact heq
        · have := h j; simp [byteAt, hgt] at this; exact absurd this.symm he
      subst hij
      have hbe : b = e := by have := h i; simpa [byteAt] using this
      subst hbe
      congr 1
      refine ih rl rk (fun c hc => nl c (List.mem_cons_of_mem _ hc))
        (fun c hc => nk c (List.mem_cons_of_mem _ hc)) fun x => ?_
      by_cases hx : x < i + 1
      · rw [byteAt_above al hx, byteAt_above ak hx]
      · have := h x
        simpa [byteAt, show ¬ x < i by omega, show x ≠ i by omega] using this

/-- Storages in canonical form with the same size and the same bytes are equal data. -/
theorem Memory.ext_of_byte {m n : Memory} (hm : m.wf = true) (hn : n.wf = true) (hs : m.size = n.size)
    (h : ∀ i, m.byte i = n.byte i) : m = n := by
  obtain ⟨rm, am⟩ := Memory.wf_iff.mp hm
  obtain ⟨rn, an⟩ := Memory.wf_iff.mp hn
  cases m; cases n
  simp only at hs
  subst hs
  congr 1
  exact cells_eq_of_byteAt rm rn (fun c hc => (am c hc).2) (fun c hc => (an c hc).2) h

theorem Memory.byte_eq_of_bit {m n : Memory} (h : ∀ s, m.bit s = n.bit s) (i : Nat) : m.byte i = n.byte i := by
  apply BitVec.eq_of_getLsbD_eq
  intro k hk
  have := h (8 * i + k)
  simpa [Memory.bit, Nat.mul_add_div, Nat.mul_add_mod, Nat.mod_eq_of_lt hk, Nat.div_eq_of_lt hk] using this

/-- Storages in canonical form with the same size and the same bits are equal data. -/
theorem Memory.ext_of_bit {m n : Memory} (hm : m.wf = true) (hn : n.wf = true) (hs : m.size = n.size)
    (h : ∀ s, m.bit s = n.bit s) : m = n :=
  Memory.ext_of_byte hm hn hs (Memory.byte_eq_of_bit h)

/-! ### One bit -/

theorem withBit_getLsbD (b : Byte) {k : Nat} (hk : k < 8) (v : Bool) {j : Nat} (hj : j < 8) :
    (withBit b k v).getLsbD j = if j = k then v else b.getLsbD j := by
  unfold withBit
  cases v <;> by_cases h : j = k <;> simp [hj, hk, h]

@[simp] theorem Memory.setBit_size (m : Memory) (s : Nat) (v : Bool) : (m.setBit s v).size = m.size := rfl

theorem Memory.setBit_rising {m : Memory} (h : rising m.cells = true) (s : Nat) (v : Bool) :
    rising (m.setBit s v).cells = true := putByte_rising h

/-- What one stream bit reads as after one stream bit is set. -/
theorem Memory.bit_setBit {m : Memory} (h : rising m.cells = true) (s t : Nat) (v : Bool) :
    (m.setBit s v).bit t = if t = s then v else m.bit t := by
  simp only [Memory.bit, Memory.byte, Memory.setBit, byteAt_putByte h]
  by_cases hd : t / 8 = s / 8
  · rw [if_pos hd, withBit_getLsbD _ (Nat.mod_lt _ (by decide)) _ (Nat.mod_lt _ (by decide)), ← hd]
    by_cases hm : t % 8 = s % 8
    · rw [if_pos hm, if_pos (by omega)]
    · rw [if_neg hm, if_neg (by rintro rfl; exact hm rfl)]
  · rw [if_neg hd, if_neg (by rintro rfl; exact hd rfl)]

theorem Memory.setBit_wf {m : Memory} (h : m.wf = true) {s : Nat} (hs : s < m.bitSize) (v : Bool) :
    (m.setBit s v).wf = true := by
  obtain ⟨hr, ha⟩ := Memory.wf_iff.mp h
  refine Memory.wf_iff.mpr ⟨putByte_rising hr, putByte_all ha fun hb => ⟨?_, hb⟩⟩
  simp only [Memory.setBit_size, Memory.bitSize] at *
  omega

/-! ### MemRead -/

/-- `MemRead(X, a, n)` of 20_memory.md R64, bit by bit. -/
theorem Memory.read_testBit (m : Memory) (a n i : Nat) :
    (m.read a n).testBit i = (decide (i < n) && m.bit (a + i)) := by
  induction n generalizing a i with
  | zero => simp [Memory.read]
  | succ n ih =>
    simp only [Memory.read]
    cases i with
    | zero => cases m.bit a <;> simp [Nat.testBit_zero, Nat.add_mod]
    | succ i =>
      have : ((m.bit a).toNat + 2 * m.read (a + 1) n).testBit (i + 1) = (m.read (a + 1) n).testBit i := by
        rw [Nat.testBit_succ]
        congr 1
        cases m.bit a
        · simp
        · simp; omega
      rw [this, ih]
      simp [Nat.add_assoc, Nat.add_comm 1 i]

/-- A result of `n` bits is below `2^n` (41_reader.md R142). -/
theorem Memory.read_lt (m : Memory) (a n : Nat) : m.read a n < 2 ^ n := by
  apply Nat.lt_pow_two_of_testBit
  intro i hi
  rw [Memory.read_testBit]
  simp; omega

/-- Two storages whose bits of a range agree read the same there. -/
theorem Memory.read_congr {m k : Memory} {a n : Nat} (h : ∀ i, i < n → m.bit (a + i) = k.bit (a + i)) :
    m.read a n = k.read a n := by
  apply Nat.eq_of_testBit_eq
  intro i
  rw [Memory.read_testBit, Memory.read_testBit]
  by_cases hi : i < n
  · simp [hi, h i hi]
  · simp [hi]

/-- Reading `j + k` bits is reading `j` and then `k` (20_memory.md R79). -/
theorem Memory.read_add (m : Memory) (a j k : Nat) :
    m.read a (j + k) = m.read a j + 2 ^ j * m.read (a + j) k := by
  induction j generalizing a with
  | zero => simp [Memory.read]
  | succ j ih =>
    rw [Nat.succ_add, Memory.read, ih, Memory.read, Nat.pow_succ]
    rw [show a + 1 + j = a + (j + 1) by omega]
    ring

/-! ### MemWrite -/

@[simp] theorem Memory.write_size (m : Memory) (a n v : Nat) : (m.write a n v).size = m.size := by
  induction n generalizing m a v with
  | zero => rfl
  | succ n ih => simp [Memory.write, ih]

@[simp] theorem Memory.write_bitSize (m : Memory) (a n v : Nat) : (m.write a n v).bitSize = m.bitSize := by
  simp [Memory.bitSize]

theorem Memory.write_rising {m : Memory} (h : rising m.cells = true) (a n v : Nat) :
    rising (m.write a n v).cells = true := by
  induction n generalizing m a v with
  | zero => exact h
  | succ n ih => exact ih (Memory.setBit_rising h _ _) _ _

/-- `MemWrite(X, a, n, v)` of 20_memory.md R65: the bits `a .. a+n-1` become those of `v`, no other bit changes. -/
theorem Memory.bit_write {m : Memory} (h : rising m.cells = true) (a n v t : Nat) :
    (m.write a n v).bit t = if a ≤ t ∧ t < a + n then v.testBit (t - a) else m.bit t := by
  induction n generalizing m a v with
  | zero => rw [if_neg (by omega)]; rfl
  | succ n ih =>
    rw [Memory.write, ih (Memory.setBit_rising h _ _), Memory.bit_setBit h]
    by_cases h1 : a + 1 ≤ t ∧ t < a + 1 + n
    · rw [if_pos h1, if_pos (by omega), show t - a = (t - (a + 1)) + 1 by omega, Nat.testBit_succ]
    · rw [if_neg h1]
      by_cases h2 : t = a
      · subst h2; rw [if_pos rfl, if_pos (by omega), Nat.sub_self]
      · rw [if_neg h2, if_neg (by omega)]

theorem Memory.write_wf {m : Memory} (h : m.wf = true) {a n : Nat} (hs : a + n ≤ m.bitSize) (v : Nat) :
    (m.write a n v).wf = true := by
  induction n generalizing m a v with
  | zero => exact h
  | succ n ih =>
    refine ih (Memory.setBit_wf h (by omega) _) ?_ _
    simp only [Memory.bitSize, Memory.setBit_size] at *; omega

/-- Reading back the bits just written gives the low bits of the value. -/
theorem Memory.read_write_same {m : Memory} (h : rising m.cells = true) (a n v : Nat) :
    (m.write a n v).read a n = v % 2 ^ n := by
  apply Nat.eq_of_testBit_eq
  intro i
  rw [Memory.read_testBit, Memory.bit_write h, Nat.testBit_mod_two_pow]
  by_cases hi : i < n
  · simp [hi]
  · simp [hi]

/-- Reading bits that a write does not touch gives what they were. -/
theorem Memory.read_write_disjoint {m : Memory} (h : rising m.cells = true) {a n b k : Nat} (v : Nat)
    (hd : b + k ≤ a ∨ a + n ≤ b) : (m.write a n v).read b k = m.read b k := by
  apply Memory.read_congr
  intro i hi
  rw [Memory.bit_write h, if_neg (by omega)]

/-- Two writes side by side are one write of both values. -/
theorem Memory.bit_write_write {m : Memory} (h : rising m.cells = true) (a j k u v t : Nat) (hu : u < 2 ^ j) :
    ((m.write a j u).write (a + j) k v).bit t = (m.write a (j + k) (u + 2 ^ j * v)).bit t := by
  rw [Memory.bit_write (Memory.write_rising h _ _ _), Memory.bit_write h, Memory.bit_write h]
  have key : ∀ i, (u + 2 ^ j * v).testBit i = if i < j then u.testBit i else v.testBit (i - j) := by
    intro i
    rw [Nat.add_comm, Nat.testBit_two_pow_mul_add _ hu]
  by_cases h1 : a + j ≤ t ∧ t < a + j + k
  · rw [if_pos h1, if_pos (by omega), key, if_neg (by omega)]; congr 1; omega
  · rw [if_neg h1]
    by_cases h2 : a ≤ t ∧ t < a + j
    · rw [if_pos h2, if_pos (by omega), key, if_pos (by omega)]
    · rw [if_neg h2, if_neg (by omega)]

/-- Two writes side by side are one write of both values: equal data. -/
theorem Memory.write_write {m : Memory} (h : m.wf = true) {a j k u : Nat} (v : Nat) (hu : u < 2 ^ j)
    (hs : a + j + k ≤ m.bitSize) :
    (m.write a j u).write (a + j) k v = m.write a (j + k) (u + 2 ^ j * v) := by
  refine Memory.ext_of_bit (Memory.write_wf (Memory.write_wf h (by omega) _) (by simpa using hs) _)
    (Memory.write_wf h (by omega) _) (by simp) fun t => ?_
  exact Memory.bit_write_write (Memory.wf_rising h) _ _ _ _ _ _ hu

/-! ### Zeroing a range -/

@[simp] theorem Memory.clear_size (m : Memory) (n : Nat) : (m.clear n).size = m.size := by
  simp [Memory.clear]

@[simp] theorem Memory.clear_bitSize (m : Memory) (n : Nat) : (m.clear n).bitSize = m.bitSize := by
  simp [Memory.bitSize]

theorem rising_filter {l : List Host.Cell} (h : rising l = true) (p : Host.Cell → Bool) :
    rising (l.filter p) = true := by
  induction l with
  | nil => rfl
  | cons c l ih =>
    obtain ⟨k, b⟩ := c
    obtain ⟨ha, hr⟩ := rising_cons.mp h
    rw [List.filter_cons]
    split
    · exact rising_cons.mpr ⟨fun c hc => ha c (List.mem_filter.mp hc).1, ih hr⟩
    · exact ih hr

theorem byteAt_filter {l : List Host.Cell} (h : rising l = true) (lo i : Nat) :
    byteAt (l.filter fun c => lo ≤ c.1) i = if i < lo then Memory.unlisted else byteAt l i := by
  induction l with
  | nil => simp [byteAt]
  | cons c l ih =>
    obtain ⟨k, b⟩ := c
    obtain ⟨ha, hr⟩ := rising_cons.mp h
    rw [List.filter_cons]
    by_cases hk : lo ≤ k
    · simp only [hk, decide_true, if_true, byteAt, ih hr]
      by_cases hi : i < lo
      · simp [hi, show i < k by omega]
      · simp [hi]
    · rw [if_neg (by simpa using hk), ih hr]
      by_cases hi : i < lo
      · simp [hi]
      · simp [hi, byteAt, show ¬ i < k by omega, show i ≠ k by omega]

theorem Memory.clear_rising {m : Memory} (h : rising m.cells = true) (n : Nat) :
    rising (m.clear n).cells = true := by
  unfold Memory.clear
  exact Memory.write_rising (rising_filter h _) _ _ _

/-- Zeroing bits `0 .. n-1` (40_writer.md R122, R124): those bits read 0, no other bit changes. -/
theorem Memory.bit_clear {m : Memory} (h : rising m.cells = true) (n t : Nat) :
    (m.clear n).bit t = if t < n then false else m.bit t := by
  unfold Memory.clear
  rw [Memory.bit_write (by exact rising_filter h _)]
  simp only [Memory.bit, Memory.byte, byteAt_filter h, Nat.zero_testBit]
  by_cases h1 : t / 8 < n / 8
  · rw [if_neg (by omega), if_pos h1, if_pos (by omega)]; simp [Memory.unlisted]
  · by_cases h2 : t < n
    · rw [if_pos (by omega), if_pos h2]
    · rw [if_neg (by omega), if_neg h1, if_neg h2]

theorem Memory.clear_wf {m : Memory} (h : m.wf = true) {n : Nat} (hn : n ≤ m.bitSize) : (m.clear n).wf = true := by
  obtain ⟨hr, ha⟩ := Memory.wf_iff.mp h
  have hf : Memory.wf { m with cells := m.cells.filter fun c => n / 8 ≤ c.1 } = true :=
    Memory.wf_iff.mpr ⟨rising_filter hr _, fun c hc => ha c (List.mem_filter.mp hc).1⟩
  refine Memory.write_wf hf ?_ _
  simp only [Memory.bitSize] at *
  omega

/-! ### A storage of any bytes -/

@[simp] theorem Memory.ofCells_size (size : Nat) (l : List Host.Cell) : (Memory.ofCells size l).size = size := rfl

theorem Memory.ofCells_wf (size : Nat) (l : List Host.Cell) : (Memory.ofCells size l).wf = true := by
  have key : ∀ (l acc : List Host.Cell), rising acc = true →
      (∀ c ∈ acc, c.1 < size ∧ c.2 ≠ Memory.unlisted) →
      rising (l.foldl (fun acc c => if c.1 < size then putByte acc c.1 c.2 else acc) acc) = true ∧
      ∀ c ∈ l.foldl (fun acc c => if c.1 < size then putByte acc c.1 c.2 else acc) acc,
        c.1 < size ∧ c.2 ≠ Memory.unlisted := by
    intro l
    induction l with
    | nil => intro acc hr ha; exact ⟨hr, ha⟩
    | cons d l ih =>
      intro acc hr ha
      simp only [List.foldl_cons]
      by_cases hd : d.1 < size
      · rw [if_pos hd]
        exact ih _ (putByte_rising hr) (putByte_all ha fun hb => ⟨hd, hb⟩)
      · rw [if_neg hd]; exact ih _ hr ha
  exact Memory.wf_iff.mpr (key l [] rfl (by simp))

end Sys2Proof.Machine
end

