-- ==== Sys2Proof/Laws/Numeric.lean ====
section
/-! SUPPORT. The numeric functions: what each result is, in terms of ordinary arithmetic. -/

namespace Sys2Proof.Machine

/-! ### Bit lengths -/

/-- `bitlen(d)` is the `k` with `2^(k-1) ≤ d < 2^k` (00_scope.md R10). -/
theorem bitlen_spec {d : Nat} (h : 1 ≤ d) : 2 ^ (bitlen d - 1) ≤ d ∧ d < 2 ^ bitlen d := by
  unfold bitlen
  exact ⟨by simpa using Nat.log2_self_le (by omega), Nat.lt_log2_self⟩

theorem bitlen_pos (d : Nat) : 1 ≤ bitlen d := Nat.succ_le_succ (Nat.zero_le _)

theorem bitlen_le {d k : Nat} (h : 1 ≤ d) (hd : d < 2 ^ k) : bitlen d ≤ k := by
  unfold bitlen; exact (Nat.log2_lt (by omega)).mpr hd

theorem bitlen_unique {d k : Nat} (hk : 1 ≤ k) (h1 : 2 ^ (k - 1) ≤ d) (h2 : d < 2 ^ k) : bitlen d = k := by
  have h0 : 1 ≤ d := le_trans Nat.one_le_two_pow h1
  refine le_antisymm (bitlen_le h0 h2) ?_
  have := (bitlen_spec h0).2
  have := (Nat.pow_lt_pow_iff_right (a := 2) (by norm_num)).mp (lt_of_le_of_lt h1 this)
  omega

theorem maxCode_add_one (n : Nat) : maxCode n + 1 = 2 ^ n := by
  unfold maxCode; have := Nat.one_le_two_pow (n := n); omega

theorem maxCode_cast (n : Nat) : (maxCode n : ℚ) = 2 ^ n - 1 := by
  have := maxCode_add_one n
  have : ((maxCode n + 1 : ℕ) : ℚ) = ((2 ^ n : ℕ) : ℚ) := by rw [this]
  push_cast at this; linarith

theorem maxCode_pos {n : Nat} (h : 1 ≤ n) : 1 ≤ maxCode n := by
  have := maxCode_add_one n
  have : 2 ^ 1 ≤ 2 ^ n := Nat.pow_le_pow_right (by norm_num) h
  omega

/-! ### Powers of two and scaled integers -/

theorem pow2_eq (k : Int) : pow2 k = (2 : ℚ) ^ k := by
  cases k with
  | ofNat n => simp [pow2, Rat.mkRat_eq_div]
  | negSucc n => simp [pow2, Rat.mkRat_eq_div, zpow_negSucc]

theorem pow2_pos (k : Int) : 0 < pow2 k := by rw [pow2_eq]; positivity

theorem pow2_add (j k : Int) : pow2 (j + k) = pow2 j * pow2 k := by
  simp only [pow2_eq]; exact zpow_add₀ (by norm_num) _ _

theorem pow2_lt {j k : Int} : pow2 j < pow2 k ↔ j < k := by
  simp only [pow2_eq]; exact zpow_lt_zpow_iff_right₀ (by norm_num)

theorem pow2_le {j k : Int} : pow2 j ≤ pow2 k ↔ j ≤ k := by
  simp only [pow2_eq]; exact zpow_le_zpow_iff_right₀ (by norm_num)

/-- `scaled s m k` is `(-1)^s * m * 2^k`. -/
theorem scaled_eq (s : Bool) (m : Nat) (k : Int) : scaled s m k = (if s then -1 else 1) * m * pow2 k := by
  rw [pow2_eq]
  cases k with
  | ofNat n => cases s <;> simp [scaled, Rat.mkRat_eq_div]
  | negSucc n => cases s <;> simp [scaled, Rat.mkRat_eq_div, zpow_negSucc, div_eq_mul_inv]

/-- The exponent of a positive rational (42_scale.md R162). -/
theorem expo_spec {a : ℚ} (h : 0 < a) : pow2 (expo a) ≤ a ∧ a < pow2 (expo a + 1) := by
  have hn : 0 < a.num := Rat.num_pos.mpr h
  obtain ⟨n, hnum⟩ := Int.eq_ofNat_of_zero_le hn.le
  have hn0 : n ≠ 0 := by rintro rfl; simp [hnum] at hn
  have hd0 : a.den ≠ 0 := a.den_nz
  have hdq : (0 : ℚ) < a.den := by exact_mod_cast Nat.pos_of_ne_zero hd0
  have ha : a = (n : ℚ) / a.den := by
    conv_lhs => rw [← Rat.num_div_den a, hnum]
    rfl
  have n1 : (2 : ℚ) ^ (Nat.log2 n) ≤ n := by exact_mod_cast Nat.log2_self_le hn0
  have n2 : (n : ℚ) < 2 ^ (Nat.log2 n + 1) := by exact_mod_cast Nat.lt_log2_self
  have d1 : (2 : ℚ) ^ (Nat.log2 a.den) ≤ a.den := by exact_mod_cast Nat.log2_self_le hd0
  have d2 : (a.den : ℚ) < 2 ^ (Nat.log2 a.den + 1) := by exact_mod_cast Nat.lt_log2_self
  have hk : (expo a) = if pow2 ((Nat.log2 n : Int) - Nat.log2 a.den) ≤ a then
      (Nat.log2 n : Int) - Nat.log2 a.den else (Nat.log2 n : Int) - Nat.log2 a.den - 1 := by
    simp [expo, hnum]
  have up : a < pow2 ((Nat.log2 n : Int) - Nat.log2 a.den + 1) := by
    rw [pow2_eq]
    refine lt_of_eq_of_lt ha ?_
    rw [div_lt_iff₀ hdq]
    calc (n : ℚ) < 2 ^ (Nat.log2 n + 1) := n2
      _ = 2 ^ ((Nat.log2 n : Int) - Nat.log2 a.den + 1) * 2 ^ (Nat.log2 a.den) := by
        rw [← zpow_natCast, ← zpow_natCast, ← zpow_add₀ (by norm_num)]; congr 1; push_cast; ring
      _ ≤ _ := mul_le_mul_of_nonneg_left d1 (by positivity)
  have low : pow2 ((Nat.log2 n : Int) - Nat.log2 a.den - 1) ≤ a := by
    rw [pow2_eq]
    refine le_of_le_of_eq ?_ ha.symm
    rw [le_div_iff₀ hdq]
    calc (2 : ℚ) ^ ((Nat.log2 n : Int) - Nat.log2 a.den - 1) * a.den
        ≤ 2 ^ ((Nat.log2 n : Int) - Nat.log2 a.den - 1) * 2 ^ (Nat.log2 a.den + 1) :=
          mul_le_mul_of_nonneg_left d2.le (by positivity)
      _ = 2 ^ (Nat.log2 n) := by
        rw [← zpow_natCast, ← zpow_natCast, ← zpow_add₀ (by norm_num)]; congr 1; push_cast; ring
      _ ≤ n := n1
  rw [hk]
  split
  · rename_i h1; exact ⟨h1, up⟩
  · rename_i h1; exact ⟨low, by simpa using not_le.mp h1⟩

/-! ### Roundings -/

/-- `rnd(q)` is `floor(q + 1/2)` for `q ≥ 0` (00_scope.md R10). -/
theorem rnd_cast {q : ℚ} (h : 0 ≤ q) : ((rnd q : ℕ) : ℤ) = ⌊q + 1 / 2⌋ := by
  unfold rnd
  exact Int.toNat_of_nonneg (Int.floor_nonneg.mpr (by linarith))

theorem rnd_le_add {q : ℚ} (h : 0 ≤ q) : (rnd q : ℚ) ≤ q + 1 / 2 := by
  have : ((rnd q : ℤ) : ℚ) ≤ q + 1 / 2 := by rw [rnd_cast h]; exact Int.floor_le _
  exact_mod_cast this

theorem lt_rnd_add {q : ℚ} (h : 0 ≤ q) : q < (rnd q : ℚ) + 1 / 2 := by
  have : q + 1 / 2 < ((rnd q : ℤ) : ℚ) + 1 := by rw [rnd_cast h]; exact Int.lt_floor_add_one _
  have : q + 1 / 2 < (rnd q : ℚ) + 1 := by exact_mod_cast this
  linarith

theorem rnd_mono {p q : ℚ} (h : p ≤ q) : rnd p ≤ rnd q := by
  unfold rnd
  exact Int.toNat_le_toNat (Int.floor_le_floor (by linarith))

@[simp] theorem rnd_natCast (n : ℕ) : rnd (n : ℚ) = n := by
  unfold rnd
  have : ⌊(n : ℚ) + 1 / 2⌋ = n := by
    rw [Int.floor_eq_iff]; constructor <;> push_cast <;> linarith
  rw [this]; rfl

theorem rnd_le_of_le {q : ℚ} {n : ℕ} (h : q ≤ n) : rnd q ≤ n := by
  have := rnd_mono h; rwa [rnd_natCast] at this

theorem le_rnd_of_le {q : ℚ} {n : ℕ} (h : (n : ℚ) ≤ q) : n ≤ rnd q := by
  have := rnd_mono h; rwa [rnd_natCast] at this

/-- `rne(q)` is at most one half away from `q ≥ 0`, and even where it is exactly one half away (42_scale.md R162). -/
theorem rne_spec {q : ℚ} (h : 0 ≤ q) :
    |(rne q : ℚ) - q| ≤ 1 / 2 ∧ (|(rne q : ℚ) - q| = 1 / 2 → rne q % 2 = 0) := by
  have f0 : (0 : ℤ) ≤ ⌊q⌋ := Int.floor_nonneg.mpr h
  obtain ⟨n, hn⟩ := Int.eq_ofNat_of_zero_le f0
  have l1 : (n : ℚ) ≤ q := by have := Int.floor_le q; rw [hn] at this; exact_mod_cast this
  have l2 : q < n + 1 := by have := Int.lt_floor_add_one q; rw [hn] at this; exact_mod_cast this
  have e : rne q = if q - n < 1 / 2 then n else if 1 / 2 < q - n then n + 1 else if n % 2 = 0 then n else n + 1 := by
    unfold rne
    simp only [hn]
    push_cast
    split_ifs <;> first | rfl | omega
  rw [e]
  split_ifs with h1 h2 h3
  · refine ⟨by rw [abs_le]; constructor <;> linarith, fun hh => ?_⟩
    rw [abs_of_nonpos (by linarith)] at hh; linarith
  · push_cast
    refine ⟨by rw [abs_le]; constructor <;> linarith, fun hh => ?_⟩
    rw [abs_of_nonneg (by linarith)] at hh; linarith
  · exact ⟨by rw [abs_le]; constructor <;> linarith, fun _ => h3⟩
  · push_cast
    exact ⟨by rw [abs_le]; constructor <;> linarith, fun _ => by omega⟩

@[simp] theorem rne_natCast (n : ℕ) : rne (n : ℚ) = n := by
  unfold rne; simp

theorem rne_mono {p q : ℚ} (hp : 0 ≤ p) (h : p ≤ q) : rne p ≤ rne q := by
  by_contra hlt
  have hlt : rne q + 1 ≤ rne p := by omega
  have h1 := (rne_spec hp).1
  have h2 := (rne_spec (hp.trans h)).1
  have hc : (rne q : ℚ) + 1 ≤ rne p := by exact_mod_cast hlt
  rw [abs_le] at h1 h2
  have e1 : (rne p : ℚ) - p = 1 / 2 := by linarith [h1.2, h2.1]
  have e2 : (rne q : ℚ) - q = -(1 / 2) := by linarith [h1.2, h2.1]
  have v1 := (rne_spec hp).2 (by rw [e1]; norm_num)
  have v2 := (rne_spec (hp.trans h)).2 (by rw [e2]; norm_num)
  have hc' : (rne p : ℚ) = rne q + 1 := by linarith
  have : rne p = rne q + 1 := by exact_mod_cast hc'
  omega

/-! ### The scale functions -/

/-- The exact value that `ScaleToUInt` rounds lies between the destination bounds. -/
theorem scaleToUInt_exact {v a b : ℚ} {lo hi : ℕ} (hab : a < b) (hlh : lo < hi) (h1 : a ≤ v) (h2 : v ≤ b) :
    (lo : ℚ) ≤ lo + (v - a) * ((hi : ℚ) - lo) / (b - a) ∧
      (lo : ℚ) + (v - a) * ((hi : ℚ) - lo) / (b - a) ≤ hi := by
  have hb : 0 < b - a := by linarith
  have hh : (0 : ℚ) < hi - lo := by have : (lo : ℚ) < hi := by exact_mod_cast hlh
                                    linarith
  have hv : 0 ≤ v - a := by linarith
  constructor
  · have : 0 ≤ (v - a) * ((hi : ℚ) - lo) / (b - a) := by positivity
    linarith
  · have : (v - a) * ((hi : ℚ) - lo) / (b - a) ≤ hi - lo := by
      rw [div_le_iff₀ hb, mul_comm]; gcongr
    linarith

/-- The result of `ScaleToUInt` lies between the destination bounds (42_scale.md R163). -/
theorem scaleToUInt_range {v a b : ℚ} {lo hi : ℕ} (hab : a < b) (hlh : lo < hi) (h1 : a ≤ v) (h2 : v ≤ b) :
    lo ≤ scaleToUInt v a b lo hi ∧ scaleToUInt v a b lo hi ≤ hi := by
  obtain ⟨l, u⟩ := scaleToUInt_exact hab hlh h1 h2
  exact ⟨le_rnd_of_le l, rnd_le_of_le u⟩

end Sys2Proof.Machine
end

