-- ==== Sys2Proof/Laws/State.lean ====
section
/-! SUPPORT. The fields of the state after each update the commands make, one lemma per field and update, true by
`rfl`. -/

namespace Sys2Proof.Machine

/-! ### Answering -/

@[simp] theorem respond_w (s : State) (r : Response) : (s.respond r).w = s.w := rfl
@[simp] theorem respond_r (s : State) (r : Response) : (s.respond r).r = s.r := rfl
@[simp] theorem respond_slots (s : State) (r : Response) : (s.respond r).slots = s.slots := rfl
@[simp] theorem respond_port (s : State) (r : Response) : (s.respond r).port = s.port := rfl
@[simp] theorem respond_responses (s : State) (r : Response) : (s.respond r).responses = s.responses ++ [r] := rfl
@[simp] theorem respond_freeIdx (s : State) (r : Response) : (s.respond r).freeIdx = s.freeIdx := rfl
@[simp] theorem respond_params (s : State) (r : Response) : (s.respond r).params = s.params := rfl
@[simp] theorem respond_nslot (s : State) (r : Response) : (s.respond r).nslot = s.nslot := rfl
@[simp] theorem takeFault_eq (f : Raise) (s : State) : takeFault f s = s.respond f.response := rfl

/-! ### Poisoning -/

@[simp] theorem Writer.poisoned_live (w : Writer) (n : Nat) : (w.poisoned n).live = w.live := rfl
@[simp] theorem Writer.poisoned_poison (w : Writer) (n : Nat) : (w.poisoned n).poison = true := rfl
@[simp] theorem Writer.poisoned_cap (w : Writer) (n : Nat) : (w.poisoned n).cap = w.cap := rfl
@[simp] theorem Writer.poisoned_size (w : Writer) (n : Nat) : (w.poisoned n).mem.size = w.mem.size := rfl
@[simp] theorem Reader.poisoned_live (r : Reader) (n : Nat) : (r.poisoned n).live = r.live := rfl
@[simp] theorem Reader.poisoned_poison (r : Reader) (n : Nat) : (r.poisoned n).poison = true := rfl
@[simp] theorem Reader.poisoned_size (r : Reader) (n : Nat) : (r.poisoned n).mem.size = r.mem.size := rfl

/-! ### The reset input -/

@[simp] theorem applyReset_port (s : State) : (applyReset s).port = s.port := rfl
@[simp] theorem applyReset_responses (s : State) : (applyReset s).responses = s.responses := rfl
@[simp] theorem applyReset_slots (s : State) : (applyReset s).slots = List.replicate s.nslot .empty := rfl
@[simp] theorem applyReset_w_live (s : State) : (applyReset s).w.live = false := rfl
@[simp] theorem applyReset_w_poison (s : State) : (applyReset s).w.poison = false := rfl
@[simp] theorem applyReset_w_cap (s : State) : (applyReset s).w.cap = 0 := rfl
@[simp] theorem applyReset_w_wbit (s : State) : (applyReset s).w.wbit = 0 := rfl
@[simp] theorem applyReset_w_size (s : State) : (applyReset s).w.mem.size = s.w.mem.size := rfl
@[simp] theorem applyReset_r_live (s : State) : (applyReset s).r.live = false := rfl
@[simp] theorem applyReset_r_poison (s : State) : (applyReset s).r.poison = false := rfl
@[simp] theorem applyReset_r_limit (s : State) : (applyReset s).r.limit = 0 := rfl
@[simp] theorem applyReset_r_rbit (s : State) : (applyReset s).r.rbit = 0 := rfl
@[simp] theorem applyReset_r_size (s : State) : (applyReset s).r.mem.size = s.r.mem.size := rfl

/-! ### The port -/

@[simp] theorem presentFirst_port (e : PortEvent) (s : State) : (presentFirst e s).port = e :: s.port := rfl
@[simp] theorem presentFirst_w (e : PortEvent) (s : State) : (presentFirst e s).w = s.w := rfl
@[simp] theorem presentFirst_r (e : PortEvent) (s : State) : (presentFirst e s).r = s.r := rfl
@[simp] theorem presentFirst_slots (e : PortEvent) (s : State) : (presentFirst e s).slots = s.slots := rfl
@[simp] theorem presentFirst_responses (e : PortEvent) (s : State) :
    (presentFirst e s).responses = s.responses := rfl
@[simp] theorem nextEvent_presentFirst (e : PortEvent) (s : State) :
    nextEvent (presentFirst e s) = some (e, s) := rfl

/-! ### Lifecycle -/

theorem Writer.lifecycle_live {w : Writer} : w.lifecycle = .live ↔ w.live = true ∧ w.poison = false := by
  unfold Writer.lifecycle Machine.lifecycle; cases w.live <;> cases w.poison <;> simp

theorem Writer.lifecycle_closed {w : Writer} : w.lifecycle = .closed ↔ w.live = false := by
  unfold Writer.lifecycle Machine.lifecycle; cases w.live <;> cases w.poison <;> simp

theorem Writer.lifecycle_poisoned {w : Writer} : w.lifecycle = .poisoned ↔ w.live = true ∧ w.poison = true := by
  unfold Writer.lifecycle Machine.lifecycle; cases w.live <;> cases w.poison <;> simp

theorem Reader.lifecycle_live {r : Reader} : r.lifecycle = .live ↔ r.live = true ∧ r.poison = false := by
  unfold Reader.lifecycle Machine.lifecycle; cases r.live <;> cases r.poison <;> simp

theorem Reader.lifecycle_closed {r : Reader} : r.lifecycle = .closed ↔ r.live = false := by
  unfold Reader.lifecycle Machine.lifecycle; cases r.live <;> cases r.poison <;> simp

theorem Reader.lifecycle_poisoned {r : Reader} : r.lifecycle = .poisoned ↔ r.live = true ∧ r.poison = true := by
  unfold Reader.lifecycle Machine.lifecycle; cases r.live <;> cases r.poison <;> simp

end Sys2Proof.Machine
end

