-- ==== Sys2Proof/Laws/Ops.lean ====
section
/-! SUPPORT. For each shared operation, once, everything it can do; and a rule for each way of joining lines, so that a
property of a command follows from those of its lines without unfolding them. -/

namespace Sys2Proof.Machine

/-! ### Lines one after the other -/

theorem bind_of_ok {α β : Type} {c : Cmd α} {k : α → Cmd β} {s t : State} {a : α} (h : c s = .ok a t) :
    (c >>= k) s = k a t := by
  show EStateM.bind c k s = _; unfold EStateM.bind; rw [h]

theorem bind_of_error {α β : Type} {c : Cmd α} {k : α → Cmd β} {s t : State} {e : Stop} (h : c s = .error e t) :
    (c >>= k) s = .error e t := by
  show EStateM.bind c k s = _; unfold EStateM.bind; rw [h]

@[simp] theorem pure_run {α : Type} (a : α) (s : State) : (pure a : Cmd α) s = .ok a s := rfl

theorem run_of_ok {c : Cmd (List Word)} {s t : State} {res : List Word} (h : c s = .ok res t) :
    run c s = .next (t.respond (okResponse res)) := by simp only [run, h]

theorem run_of_raised {c : Cmd (List Word)} {s t : State} {f : Raise} (h : c s = .error (.raised f) t) :
    run c s = .next (t.respond f.response) := by simp only [run, h]; rfl

/-- What lines of a command do from a state: if they finish, `Q` holds of their value and of the state they leave; if a
fault of the spec ends them, `E` holds of it and of the state they leave; if the model stops, `stops` holds. -/
def Sat {α : Type} (c : Cmd α) (s : State) (stops : Prop) (Q : α → State → Prop) (E : Raise → State → Prop) : Prop :=
  match c s with
  | .ok a t => Q a t
  | .error (.raised f) t => E f t
  | .error (.fault _) _ => stops

section
variable {α β : Type} {s : State} {stops : Prop} {E : Raise → State → Prop}

theorem Sat.pure {a : α} {Q : α → State → Prop} (h : Q a s) : Sat (Pure.pure a : Cmd α) s stops Q E := h

theorem Sat.bind {c : Cmd α} {k : α → Cmd β} {Q : β → State → Prop}
    (h : Sat c s stops (fun a t => Sat (k a) t stops Q E) E) : Sat (c >>= k) s stops Q E := by
  unfold Sat at h ⊢
  rcases hc : c s with ⟨a, t⟩ | ⟨e, t⟩
  · rw [bind_of_ok hc]; rw [hc] at h; exact h
  · rw [bind_of_error hc]; rw [hc] at h; cases e <;> exact h

theorem Sat.mono {c : Cmd α} {Q Q' : α → State → Prop} {E' : Raise → State → Prop} (h : Sat c s stops Q E)
    (hq : ∀ a t, Q a t → Q' a t) (he : ∀ f t, E f t → E' f t) : Sat c s stops Q' E' := by
  unfold Sat at *
  rcases hc : c s with ⟨a, t⟩ | ⟨_ | _, t⟩ <;> rw [hc] at h
  · exact hq _ _ h
  · exact he _ _ h
  · exact h

theorem Sat.ite {p : Prop} [Decidable p] {c d : Cmd α} {Q : α → State → Prop} (h : p → Sat c s stops Q E)
    (h' : ¬p → Sat d s stops Q E) : Sat (if p then c else d) s stops Q E := by
  split
  · exact h ‹_›
  · exact h' ‹_›

/-- A command that answers a next state does so with its results or with a fault. -/
theorem Sat.of_run {c : Cmd (List Word)} {Q : List Word → State → Prop} {t : State} (h : Sat c s stops Q E)
    (hr : run c s = .next t) :
    (∃ res u, Q res u ∧ t = u.respond (okResponse res)) ∨ ∃ f u, E f u ∧ t = u.respond f.response := by
  unfold Sat at h
  rcases hc : c s with ⟨a, u⟩ | ⟨_ | _, u⟩ <;> rw [hc] at h <;> simp only [run, hc] at hr
  · exact .inl ⟨a, u, h, (Host.Outcome.next.inj hr).symm⟩
  · exact .inr ⟨_, u, h, (Host.Outcome.next.inj hr).symm⟩
  · cases hr

/-- A command whose lines never stop the model answers a next state. -/
theorem Sat.run_next {c : Cmd (List Word)} {Q : List Word → State → Prop} (h : Sat c s False Q E) :
    ∃ t, run c s = .next t := by
  unfold Sat at h
  rcases hc : c s with ⟨a, u⟩ | ⟨_ | _, u⟩ <;> rw [hc] at h <;> simp only [run, hc]
  · exact ⟨_, rfl⟩
  · exact ⟨_, rfl⟩
  · exact h.elim

/-- A command never refuses. -/
theorem run_ne_refused (c : Cmd (List Word)) (r : Refusal) : run c s ≠ .refused r := by
  rcases hc : c s with ⟨a, u⟩ | ⟨_ | _, u⟩ <;> simp [run, hc]

/-! ### Faults -/

theorem Sat.raise {Q : α → State → Prop} {kind : FaultKind} {info : Nat}
    (h : E ⟨kind, BitVec.ofNat 8 info, none⟩ s) : Sat (raise kind info : Cmd α) s stops Q E := h

theorem Sat.raiseWith {Q : α → State → Prop} {kind : FaultKind} {info a b : Nat}
    (h : E ⟨kind, BitVec.ofNat 8 info, some (BitVec.ofNat 32 a, BitVec.ofNat 32 b)⟩ s) :
    Sat (raiseWith kind info a b : Cmd α) s stops Q E := h

theorem raiseIf_pos {c : Prop} [Decidable c] (h : c) (kind : FaultKind) (info : Nat) (s : State) :
    raiseIf c kind info s = .error (.raised ⟨kind, BitVec.ofNat 8 info, none⟩) s := by
  unfold raiseIf; rw [if_pos h]; rfl

theorem raiseIf_neg {c : Prop} [Decidable c] (h : ¬c) (kind : FaultKind) (info : Nat) (s : State) :
    raiseIf c kind info s = .ok () s := by
  unfold raiseIf; rw [if_neg h]; rfl

theorem Sat.raiseIf {c : Prop} [Decidable c] {Q : Unit → State → Prop} {kind : FaultKind} {info : Nat}
    (h : c → E ⟨kind, BitVec.ofNat 8 info, none⟩ s) (h' : ¬c → Q () s) :
    Sat (Machine.raiseIf c kind info) s stops Q E := by
  unfold Sat
  by_cases hc : c
  · rw [raiseIf_pos hc]; exact h hc
  · rw [raiseIf_neg hc]; exact h' hc

/-! ### The state -/

@[simp] theorem getState_run (s : State) : getState s = .ok s s := rfl

theorem Sat.getState {Q : State → State → Prop} (h : Q s s) : Sat getState s stops Q E := h

theorem Sat.modifyWriter {Q : Unit → State → Prop} {f : Writer → Writer} (h : Q () { s with w := f s.w }) :
    Sat (modifyWriter f) s stops Q E := h

theorem Sat.modifyReader {Q : Unit → State → Prop} {f : Reader → Reader} (h : Q () { s with r := f s.r }) :
    Sat (modifyReader f) s stops Q E := h

theorem Sat.setSlot {Q : Unit → State → Prop} {slot : Nat} {d : Descriptor}
    (h : Q () { s with slots := s.slots.set slot d }) : Sat (setSlot slot d) s stops Q E := h

/-- The state from the moment `W.poison` is set. -/
abbrev State.writerPoisoned (s : State) : State :=
  { s with w := s.w.poisoned s.freeIdx, freeIdx := s.freeIdx + 1 }

/-- The state from the moment `R.poison` is set. -/
abbrev State.readerPoisoned (s : State) : State :=
  { s with r := s.r.poisoned s.freeIdx, freeIdx := s.freeIdx + 1 }

/-! ### The preludes -/

theorem requireWriter_live {s : State} (h : s.w.lifecycle = .live) : requireWriter s = .ok () s := by
  obtain ⟨h1, h2⟩ := Writer.lifecycle_live.mp h
  unfold requireWriter
  rw [bind_of_ok (getState_run s), bind_of_ok (raiseIf_neg (by simp [h1]) ..), raiseIf_neg (by simp [h2])]

theorem requireWriter_closed {s : State} (h : s.w.live = false) :
    requireWriter s = .error (.raised ⟨.disposedResource, 0xFF, none⟩) s := by
  unfold requireWriter
  rw [bind_of_ok (getState_run s), bind_of_error (raiseIf_pos h ..)]; rfl

theorem requireWriter_poisoned {s : State} (h : s.w.live = true) (hp : s.w.poison = true) :
    requireWriter s = .error (.raised ⟨.poisoned, 0xFF, none⟩) s := by
  unfold requireWriter
  rw [bind_of_ok (getState_run s), bind_of_ok (raiseIf_neg (by simp [h]) ..), raiseIf_pos hp]; rfl

/-- Everything `RequireWriter()` can do (40_writer.md R120). -/
theorem Sat.requireWriter {Q : Unit → State → Prop}
    (hd : s.w.live = false → E ⟨.disposedResource, 0xFF, none⟩ s)
    (hp : s.w.live = true → s.w.poison = true → E ⟨.poisoned, 0xFF, none⟩ s)
    (hl : s.w.lifecycle = .live → Q () s) : Sat requireWriter s stops Q E := by
  unfold Sat
  rcases h : s.w.lifecycle with _ | _ | _
  · have := Writer.lifecycle_closed.mp h
    rw [requireWriter_closed this]; exact hd this
  · rw [requireWriter_live h]; exact hl h
  · obtain ⟨h1, h2⟩ := Writer.lifecycle_poisoned.mp h
    rw [requireWriter_poisoned h1 h2]; exact hp h1 h2

theorem requireReader_live {s : State} (h : s.r.lifecycle = .live) : requireReader s = .ok () s := by
  obtain ⟨h1, h2⟩ := Reader.lifecycle_live.mp h
  unfold requireReader
  rw [bind_of_ok (getState_run s), bind_of_ok (raiseIf_neg (by simp [h1]) ..), raiseIf_neg (by simp [h2])]

theorem requireReader_closed {s : State} (h : s.r.live = false) :
    requireReader s = .error (.raised ⟨.disposedResource, 0xFF, none⟩) s := by
  unfold requireReader
  rw [bind_of_ok (getState_run s), bind_of_error (raiseIf_pos h ..)]; rfl

theorem requireReader_poisoned {s : State} (h : s.r.live = true) (hp : s.r.poison = true) :
    requireReader s = .error (.raised ⟨.poisoned, 0xFF, none⟩) s := by
  unfold requireReader
  rw [bind_of_ok (getState_run s), bind_of_ok (raiseIf_neg (by simp [h]) ..), raiseIf_pos hp]; rfl

/-- Everything `RequireReader()` can do (41_reader.md R140). -/
theorem Sat.requireReader {Q : Unit → State → Prop}
    (hd : s.r.live = false → E ⟨.disposedResource, 0xFF, none⟩ s)
    (hp : s.r.live = true → s.r.poison = true → E ⟨.poisoned, 0xFF, none⟩ s)
    (hl : s.r.lifecycle = .live → Q () s) : Sat requireReader s stops Q E := by
  unfold Sat
  rcases h : s.r.lifecycle with _ | _ | _
  · have := Reader.lifecycle_closed.mp h
    rw [requireReader_closed this]; exact hd this
  · rw [requireReader_live h]; exact hl h
  · obtain ⟨h1, h2⟩ := Reader.lifecycle_poisoned.mp h
    rw [requireReader_poisoned h1 h2]; exact hp h1 h2

/-! ### The storages -/

theorem Sat.memReadW {Q : Nat → State → Prop} {a n : Nat} (h : a + n ≤ s.w.mem.bitSize → Q (s.w.mem.read a n) s)
    (hs : ¬a + n ≤ s.w.mem.bitSize → stops) : Sat (memReadW a n) s stops Q E := by
  unfold Sat Machine.memReadW
  by_cases hb : a + n ≤ s.w.mem.bitSize
  · rw [if_pos hb]; exact h hb
  · rw [if_neg hb]; exact hs hb

theorem Sat.memClearW {Q : Unit → State → Prop} {n : Nat}
    (h : n ≤ s.w.mem.bitSize → Q () { s with w := { s.w with mem := s.w.mem.clear n } })
    (hs : ¬n ≤ s.w.mem.bitSize → stops) : Sat (memClearW n) s stops Q E := by
  unfold Sat Machine.memClearW
  by_cases hb : n ≤ s.w.mem.bitSize
  · rw [if_pos hb]; exact h hb
  · rw [if_neg hb]; exact hs hb

theorem Sat.memClearR {Q : Unit → State → Prop} {n : Nat}
    (h : n ≤ s.r.mem.bitSize → Q () { s with r := { s.r with mem := s.r.mem.clear n } })
    (hs : ¬n ≤ s.r.mem.bitSize → stops) : Sat (memClearR n) s stops Q E := by
  unfold Sat Machine.memClearR
  by_cases hb : n ≤ s.r.mem.bitSize
  · rw [if_pos hb]; exact h hb
  · rw [if_neg hb]; exact hs hb

theorem Sat.memWriteR {Q : Unit → State → Prop} {a n v : Nat}
    (h : a + n ≤ s.r.mem.bitSize → Q () { s with r := { s.r with mem := s.r.mem.write a n v } })
    (hs : ¬a + n ≤ s.r.mem.bitSize → stops) : Sat (memWriteR a n v) s stops Q E := by
  unfold Sat Machine.memWriteR
  by_cases hb : a + n ≤ s.r.mem.bitSize
  · rw [if_pos hb]; exact h hb
  · rw [if_neg hb]; exact hs hb

/-! ### The primitive write step -/

theorem reserve_ok {s : State} {t : Nat} (h : s.w.wbit + t ≤ s.w.cap) : reserve t s = .ok () s := by
  unfold reserve
  rw [bind_of_ok (getState_run s)]
  simp only [gt_iff_lt, if_neg (Nat.not_lt.mpr h)]; rfl

theorem reserve_full {s : State} {t : Nat} (h : s.w.cap < s.w.wbit + t) :
    reserve t s = .error (.raised ⟨.overflow, 0xFF,
      some (BitVec.ofNat 32 t, BitVec.ofNat 32 (s.w.cap - s.w.wbit))⟩) s.writerPoisoned := by
  unfold reserve
  rw [bind_of_ok (getState_run s)]
  simp only [gt_iff_lt, if_pos h]; rfl

/-- Everything `Reserve(t)` can do (40_writer.md R128). -/
theorem Sat.reserve {Q : Unit → State → Prop} {t : Nat} (h : s.w.wbit + t ≤ s.w.cap → Q () s)
    (hf : s.w.cap < s.w.wbit + t → E ⟨.overflow, 0xFF,
      some (BitVec.ofNat 32 t, BitVec.ofNat 32 (s.w.cap - s.w.wbit))⟩ s.writerPoisoned) :
    Sat (reserve t) s stops Q E := by
  unfold Sat
  by_cases hb : s.w.wbit + t ≤ s.w.cap
  · rw [reserve_ok hb]; exact h hb
  · rw [reserve_full (by omega)]; exact hf (by omega)

/-- The state after `n` bits of `v` are appended at the writer's cursor. -/
abbrev State.appended (s : State) (v n : Nat) : State :=
  { s with w := { s.w with mem := s.w.mem.write s.w.wbit n (v % 2 ^ n), wbit := s.w.wbit + n } }

theorem appendBits_ok {s : State} {v n : Nat} (h : s.w.wbit + n ≤ s.w.mem.bitSize) :
    appendBits v n s = .ok () (s.appended v n) := by
  unfold appendBits
  rw [bind_of_ok (getState_run s)]
  have : memWriteW s.w.wbit n (v % 2 ^ n) s =
      .ok () { s with w := { s.w with mem := s.w.mem.write s.w.wbit n (v % 2 ^ n) } } := by
    unfold memWriteW; rw [if_pos h]
  rw [bind_of_ok this]; rfl

theorem appendBits_fault {s : State} {v n : Nat} (h : ¬s.w.wbit + n ≤ s.w.mem.bitSize) :
    appendBits v n s = .error (.fault .noSuchAddress) s := by
  unfold appendBits
  rw [bind_of_ok (getState_run s)]
  have : memWriteW s.w.wbit n (v % 2 ^ n) s = .error (.fault .noSuchAddress) s := by
    unfold memWriteW; rw [if_neg h]
  rw [bind_of_error this]

theorem writeBits_ok {s : State} {v n : Nat} (hn : n ≤ 32) (h : s.w.wbit + n ≤ s.w.cap)
    (hm : s.w.cap ≤ s.w.mem.bitSize) : writeBits v n s = .ok () (s.appended v n) := by
  unfold writeBits
  rw [if_neg (by omega)]
  by_cases h0 : n = 0
  · subst h0; rfl
  · rw [if_neg h0, bind_of_ok (reserve_ok h), appendBits_ok (by omega)]

theorem writeBits_count {s : State} {v n : Nat} (hn : 32 < n) :
    writeBits v n s = .error (.raised ⟨.invalidArgument, 0x83, none⟩) s.writerPoisoned := by
  unfold writeBits; rw [if_pos hn]; rfl

theorem writeBits_full {s : State} {v n : Nat} (hn : n ≤ 32) (h0 : n ≠ 0) (h : s.w.cap < s.w.wbit + n) :
    writeBits v n s = .error (.raised ⟨.overflow, 0xFF,
      some (BitVec.ofNat 32 n, BitVec.ofNat 32 (s.w.cap - s.w.wbit))⟩) s.writerPoisoned := by
  unfold writeBits; rw [if_neg (by omega), if_neg h0, bind_of_error (reserve_full h)]

/-- Everything the primitive write step `Write(v, n)` can do (40_writer.md R121). -/
theorem Sat.writeBits {Q : Unit → State → Prop} {v n : Nat}
    (h : n ≤ 32 → (n ≠ 0 → s.w.wbit + n ≤ s.w.cap) → (n ≠ 0 → s.w.wbit + n ≤ s.w.mem.bitSize) →
      Q () (s.appended v n))
    (hc : 32 < n → E ⟨.invalidArgument, 0x83, none⟩ s.writerPoisoned)
    (hf : n ≤ 32 → s.w.cap < s.w.wbit + n → E ⟨.overflow, 0xFF,
      some (BitVec.ofNat 32 n, BitVec.ofNat 32 (s.w.cap - s.w.wbit))⟩ s.writerPoisoned)
    (hs : s.w.wbit + n ≤ s.w.cap → ¬s.w.wbit + n ≤ s.w.mem.bitSize → stops) :
    Sat (writeBits v n) s stops Q E := by
  unfold Sat
  by_cases hn : n ≤ 32
  · by_cases h0 : n = 0
    · subst h0
      have h' := h (by omega) (by simp) (by simp)
      simp only [State.appended, Memory.write, Nat.add_zero] at h'
      unfold Machine.writeBits
      simpa using h'
    · by_cases hb : s.w.wbit + n ≤ s.w.cap
      · by_cases hm : s.w.wbit + n ≤ s.w.mem.bitSize
        · have : Machine.writeBits v n s = .ok () (s.appended v n) := by
            unfold Machine.writeBits
            rw [if_neg (by omega), if_neg h0, bind_of_ok (reserve_ok hb), appendBits_ok hm]
          rw [this]; exact h hn (fun _ => hb) (fun _ => hm)
        · have : Machine.writeBits v n s = .error (.fault .noSuchAddress) s := by
            unfold Machine.writeBits
            rw [if_neg (by omega), if_neg h0, bind_of_ok (reserve_ok hb), appendBits_fault hm]
          rw [this]; exact hs hb hm
      · rw [writeBits_full hn h0 (by omega)]; exact hf hn (by omega)
  · rw [writeBits_count (by omega)]; exact hc (by omega)

/-! ### The primitive read step -/

theorem require_ok {s : State} {t : Nat} (h : s.r.rbit + t ≤ s.r.limit) : require t s = .ok () s := by
  unfold require
  rw [bind_of_ok (getState_run s)]
  simp only [gt_iff_lt, if_neg (Nat.not_lt.mpr h)]; rfl

theorem require_short {s : State} {t : Nat} (h : s.r.limit < s.r.rbit + t) :
    require t s = .error (.raised ⟨.underflow, 0xFF,
      some (BitVec.ofNat 32 t, BitVec.ofNat 32 (s.r.limit - s.r.rbit))⟩) s.readerPoisoned := by
  unfold require
  rw [bind_of_ok (getState_run s)]
  simp only [gt_iff_lt, if_pos h]; rfl

/-- Everything `Require(t)` can do (41_reader.md R148). -/
theorem Sat.require {Q : Unit → State → Prop} {t : Nat} (h : s.r.rbit + t ≤ s.r.limit → Q () s)
    (hf : s.r.limit < s.r.rbit + t → E ⟨.underflow, 0xFF,
      some (BitVec.ofNat 32 t, BitVec.ofNat 32 (s.r.limit - s.r.rbit))⟩ s.readerPoisoned) :
    Sat (require t) s stops Q E := by
  unfold Sat
  by_cases hb : s.r.rbit + t ≤ s.r.limit
  · rw [require_ok hb]; exact h hb
  · rw [require_short (by omega)]; exact hf (by omega)

/-- The state after `n` bits are consumed at the reader's cursor. -/
abbrev State.consumed (s : State) (n : Nat) : State := { s with r := { s.r with rbit := s.r.rbit + n } }

theorem takeBits_ok {s : State} {n : Nat} (h : s.r.rbit + n ≤ s.r.mem.bitSize) :
    takeBits n s = .ok (s.r.mem.read s.r.rbit n) (s.consumed n) := by
  unfold takeBits
  have : memReadR s.r.rbit n s = .ok (s.r.mem.read s.r.rbit n) s := by unfold memReadR; rw [if_pos h]
  rw [bind_of_ok (getState_run s), bind_of_ok this]; rfl

theorem takeBits_fault {s : State} {n : Nat} (h : ¬s.r.rbit + n ≤ s.r.mem.bitSize) :
    takeBits n s = .error (.fault .noSuchAddress) s := by
  unfold takeBits
  have : memReadR s.r.rbit n s = .error (.fault .noSuchAddress) s := by unfold memReadR; rw [if_neg h]
  rw [bind_of_ok (getState_run s), bind_of_error this]

theorem readBits_ok {s : State} {n : Nat} (h1 : 1 ≤ n) (hn : n ≤ 32) (h : s.r.rbit + n ≤ s.r.limit)
    (hm : s.r.limit ≤ s.r.mem.bitSize) : readBits n s = .ok (s.r.mem.read s.r.rbit n) (s.consumed n) := by
  unfold readBits
  rw [if_neg (by omega), bind_of_ok (require_ok h), takeBits_ok (by omega)]

theorem readBits_count {s : State} {n : Nat} (hn : n = 0 ∨ 32 < n) :
    readBits n s = .error (.raised ⟨.invalidArgument, 0x83, none⟩) s.readerPoisoned := by
  unfold readBits; rw [if_pos hn]; rfl

theorem readBits_short {s : State} {n : Nat} (h1 : 1 ≤ n) (hn : n ≤ 32) (h : s.r.limit < s.r.rbit + n) :
    readBits n s = .error (.raised ⟨.underflow, 0xFF,
      some (BitVec.ofNat 32 n, BitVec.ofNat 32 (s.r.limit - s.r.rbit))⟩) s.readerPoisoned := by
  unfold readBits; rw [if_neg (by omega), bind_of_error (require_short h)]

/-- Everything the primitive read step `Read(n)` can do (41_reader.md R142). -/
theorem Sat.readBits {Q : Nat → State → Prop} {n : Nat}
    (h : 1 ≤ n → n ≤ 32 → s.r.rbit + n ≤ s.r.limit → s.r.rbit + n ≤ s.r.mem.bitSize →
      Q (s.r.mem.read s.r.rbit n) (s.consumed n))
    (hc : n = 0 ∨ 32 < n → E ⟨.invalidArgument, 0x83, none⟩ s.readerPoisoned)
    (hf : 1 ≤ n → n ≤ 32 → s.r.limit < s.r.rbit + n → E ⟨.underflow, 0xFF,
      some (BitVec.ofNat 32 n, BitVec.ofNat 32 (s.r.limit - s.r.rbit))⟩ s.readerPoisoned)
    (hs : s.r.rbit + n ≤ s.r.limit → ¬s.r.rbit + n ≤ s.r.mem.bitSize → stops) :
    Sat (readBits n) s stops Q E := by
  unfold Sat
  by_cases hn : n = 0 ∨ 32 < n
  · rw [readBits_count hn]; exact hc hn
  · by_cases hb : s.r.rbit + n ≤ s.r.limit
    · by_cases hm : s.r.rbit + n ≤ s.r.mem.bitSize
      · have : Machine.readBits n s = .ok (s.r.mem.read s.r.rbit n) (s.consumed n) := by
          unfold Machine.readBits
          rw [if_neg (by omega), bind_of_ok (require_ok hb), takeBits_ok hm]
        rw [this]; exact h (by omega) (by omega) hb hm
      · have : Machine.readBits n s = .error (.fault .noSuchAddress) s := by
          unfold Machine.readBits
          rw [if_neg (by omega), bind_of_ok (require_ok hb), takeBits_fault hm]
        rw [this]; exact hs hb hm
    · rw [readBits_short (by omega) (by omega) (by omega)]; exact hf (by omega) (by omega) (by omega)

/-! ### The slot table -/

theorem requireSlot_some {α : Type} {s : State} {slot : Nat} {view : Descriptor → Option α} {d : α}
    (h : s.slotAs slot view = some d) : requireSlot slot view s = .ok d s := by
  unfold requireSlot; rw [h]

theorem requireSlot_none {α : Type} {s : State} {slot : Nat} {view : Descriptor → Option α}
    (h : s.slotAs slot view = none) :
    requireSlot slot view s = .error (.raised ⟨.invalidArgument, 0x84, none⟩) s := by
  unfold requireSlot; rw [h]; rfl

/-- A slot that has the part asked for exists, and holds it. -/
theorem slotAs_some {s : State} {slot : Nat} {view : Descriptor → Option α} {d : α}
    (h : s.slotAs slot view = some d) : ∃ e ∈ s.slots, s.slots[slot]? = some e ∧ view e = some d := by
  unfold State.slotAs at h
  rcases he : s.slots[slot]? with _ | e <;> rw [he] at h
  · cases h
  · exact ⟨e, List.mem_of_getElem? he, rfl, h⟩

/-- Everything `RequireSlot` can do (10_state.md R49). -/
theorem Sat.requireSlot {slot : Nat} {view : Descriptor → Option α} {Q : α → State → Prop}
    (h : ∀ d, s.slotAs slot view = some d → Q d s)
    (hn : s.slotAs slot view = none → E ⟨.invalidArgument, 0x84, none⟩ s) :
    Sat (requireSlot slot view) s stops Q E := by
  unfold Sat
  rcases hd : s.slotAs slot view with _ | d
  · rw [requireSlot_none hd]; exact hn hd
  · rw [requireSlot_some hd]; exact h d hd

theorem requireSlotIndex_ok {s : State} {slot : Nat} (h : slot < s.slots.length) :
    requireSlotIndex slot s = .ok () s := by
  unfold requireSlotIndex
  rw [bind_of_ok (getState_run s), raiseIf_neg (by simpa [State.nslot] using h)]

theorem requireSlotIndex_none {s : State} {slot : Nat} (h : s.slots.length ≤ slot) :
    requireSlotIndex slot s = .error (.raised ⟨.invalidArgument, 0x84, none⟩) s := by
  unfold requireSlotIndex
  rw [bind_of_ok (getState_run s), raiseIf_pos (by simpa [State.nslot] using h)]; rfl

/-- Everything the slot check of a configuration command can do. -/
theorem Sat.requireSlotIndex {slot : Nat} {Q : Unit → State → Prop} (h : slot < s.slots.length → Q () s)
    (hn : s.slots.length ≤ slot → E ⟨.invalidArgument, 0x84, none⟩ s) :
    Sat (requireSlotIndex slot) s stops Q E := by
  unfold Sat
  by_cases hs : slot < s.slots.length
  · rw [requireSlotIndex_ok hs]; exact h hs
  · rw [requireSlotIndex_none (by omega)]; exact hn (by omega)

/-! ### Operands -/

theorem finite_some {i : Nat} {w : Word} {q : Rat} (h : f32dec w = some q) (s : State) :
    finite i w s = .ok q s := by unfold finite; rw [h]; rfl

theorem finite_none {i : Nat} {w : Word} (h : f32dec w = none) (s : State) :
    finite i w s = .error (.raised ⟨.invalidArgument, BitVec.ofNat 8 i, none⟩) s := by
  unfold finite; rw [h]; rfl

/-- Everything `Fin(i)` can do (42_scale.md R168). -/
theorem Sat.finite {i : Nat} {w : Word} {Q : Rat → State → Prop} (h : ∀ q, f32dec w = some q → Q q s)
    (hn : f32dec w = none → E ⟨.invalidArgument, BitVec.ofNat 8 i, none⟩ s) :
    Sat (finite i w) s stops Q E := by
  unfold Sat
  rcases hd : f32dec w with _ | q
  · rw [finite_none hd]; exact hn hd
  · rw [finite_some hd]; exact h q hd

end

end Sys2Proof.Machine
end

