-- ==== Sys2Proof/Laws/Packers.lean ====
section
/-! SUPPORT. For each shared operation of the packers, once, everything it can do: the construction and the check of an
axis, and the fields that are written and read. -/

namespace Sys2Proof.Machine

/-! ### Several appends, several takes -/

/-- What the writer needs for its writes to go well: the storage in canonical form and as long as the capacity. -/
structure Writer.Ready (w : Writer) : Prop where
  canonical : w.mem.wf = true
  fits : w.cap ≤ w.mem.bitSize

theorem Writer.Ok.ready {w : Writer} (h : w.Ok) : w.Ready := ⟨h.canonical, h.capFits⟩

theorem Memory.write_mod {m : Memory} (h : m.wf = true) {a n : Nat} (v : Nat) (hs : a + n ≤ m.bitSize) :
    m.write a n (v % 2 ^ n) = m.write a n v := by
  refine Memory.ext_of_bit (Memory.write_wf h hs _) (Memory.write_wf h hs _) (by simp) fun t => ?_
  rw [Memory.bit_write (Memory.wf_rising h), Memory.bit_write (Memory.wf_rising h)]
  split
  · rw [Nat.testBit_mod_two_pow, decide_eq_true (by omega), Bool.true_and]
  · rfl

theorem Writer.Ready.appended {s : State} (h : s.w.Ready) {v n : Nat} (hn : s.w.wbit + n ≤ s.w.cap) :
    (s.appended v n).w.Ready :=
  ⟨Memory.write_wf h.canonical (le_trans hn h.fits) _, by simpa using h.fits⟩

/-- Appending two fields is appending their concatenation. -/
theorem State.appended_appended {s : State} (h : s.w.Ready) {u v j k : Nat} (hn : s.w.wbit + (j + k) ≤ s.w.cap) :
    (s.appended u j).appended v k = s.appended (u % 2 ^ j + 2 ^ j * v) (j + k) := by
  have hf := h.fits
  have key : (s.w.mem.write s.w.wbit j (u % 2 ^ j)).write (s.w.wbit + j) k (v % 2 ^ k) =
      s.w.mem.write s.w.wbit (j + k) ((u % 2 ^ j + 2 ^ j * v) % 2 ^ (j + k)) := by
    rw [Memory.write_mod (Memory.write_wf h.canonical (by omega) _) _ (by simpa using by omega),
      Memory.write_write h.canonical _ (Nat.mod_lt _ (by positivity)) (by omega),
      Memory.write_mod h.canonical _ (by omega)]
  simp only [State.appended, key, Nat.add_assoc]

/-- An append as a `Stored` storage. -/
theorem stored_appended {s : State} (h : s.w.Ready) {v n : Nat} (hn : s.w.wbit + n ≤ s.w.cap) :
    Stored s.w.mem (s.w.mem.write s.w.wbit n (v % 2 ^ n)) s.w.wbit n v := by
  rw [Memory.write_mod h.canonical _ (le_trans hn h.fits)]
  exact ⟨by simp, fun b => Memory.bit_write (Memory.wf_rising h.canonical) ..⟩

theorem writeBits_ready {s : State} (h : s.w.Ready) {v n : Nat} (hn : n ≤ 32) (hb : s.w.wbit + n ≤ s.w.cap) :
    writeBits v n s = .ok () (s.appended v n) := writeBits_ok hn hb h.fits

/-! ### The construction of an axis -/

theorem bitCountFromRange_eq {n : Int} {k : Nat} (hk : 1 ≤ k) (h1 : 2 ^ (k - 1) ≤ n) (h2 : n < 2 ^ k) :
    bitCountFromRange 0 n = k := by
  have h0 : 0 ≤ n := le_trans (by positivity) h1
  obtain ⟨m, rfl⟩ := Int.eq_ofNat_of_zero_le h0
  unfold bitCountFromRange
  exact bitlen_unique hk (by simpa using by exact_mod_cast h1) (by simpa using by exact_mod_cast h2)

theorem bitCountFromRange_spec {n : Int} (h : 1 ≤ n) (h' : n ≤ 2 ^ 31 - 1) :
    1 ≤ bitCountFromRange 0 n ∧ bitCountFromRange 0 n ≤ 31 ∧ 2 ^ (bitCountFromRange 0 n - 1) ≤ n ∧
      n < 2 ^ bitCountFromRange 0 n := by
  obtain ⟨m, rfl⟩ := Int.eq_ofNat_of_zero_le (by omega : 0 ≤ n)
  have hm : 1 ≤ m := by omega
  have e : bitCountFromRange 0 (m : Int) = bitlen m := by unfold bitCountFromRange; simp
  rw [e]
  obtain ⟨a, b⟩ := bitlen_spec hm
  exact ⟨bitlen_pos m, bitlen_le hm (by omega), by exact_mod_cast a, by exact_mod_cast b⟩

theorem one_le_ceil_div {a b : ℚ} (ha : 0 < a) (hb : 0 < b) : 1 ≤ ⌈a / b⌉ :=
  Int.one_le_ceil_iff.mpr (by positivity)

/-- The axis that two accepted operand words construct. -/
theorem axisDerive_ok {iMax iPrec : Nat} {maxWord precWord : Word} {ax : Axis} (h : AxisAccepted maxWord precWord ax)
    (s : State) : axisDerive iMax maxWord iPrec precWord s = .ok ax s := by
  obtain ⟨h1, h2, h3, h4, h5, h6, h7, h8⟩ := h
  unfold axisDerive
  rw [bind_of_ok (finite_some h1 s), bind_of_ok (raiseIf_neg (not_le.mpr h2) ..), bind_of_ok (finite_some h3 s),
    bind_of_ok (raiseIf_neg (not_le.mpr h4) ..), bind_of_ok (raiseIf_neg (by unfold ceilq; omega) ..)]
  unfold ceilq
  rw [bitCountFromRange_eq h6 h7 h8, pure_run]

/-- The fault of two refused operand words. -/
theorem axisDerive_raised {iMax iPrec : Nat} {maxWord precWord : Word} {info : Byte}
    (h : AxisRefused (BitVec.ofNat 8 iMax) (BitVec.ofNat 8 iPrec) maxWord precWord info) (s : State) :
    axisDerive iMax maxWord iPrec precWord s = .error (.raised ⟨.invalidArgument, info, none⟩) s := by
  unfold axisDerive
  rcases h with ⟨h, rfl⟩ | ⟨mx, h1, h2, h3, rfl⟩
  · rcases hd : f32dec maxWord with _ | mx
    · rw [bind_of_error (finite_none hd s)]
    · rw [bind_of_ok (finite_some hd s), bind_of_error (raiseIf_pos (h mx hd) ..)]
  · rw [bind_of_ok (finite_some h1 s), bind_of_ok (raiseIf_neg (not_le.mpr h2) ..)]
    rcases hd : f32dec precWord with _ | pr
    · rw [bind_of_error (finite_none hd s)]
    · rw [bind_of_ok (finite_some hd s)]
      by_cases hp : pr ≤ 0
      · rw [bind_of_error (raiseIf_pos hp ..)]
      · rw [bind_of_ok (raiseIf_neg hp ..), bind_of_error (raiseIf_pos (by
          rcases h3 pr hd with h | h
          · exact absurd h hp
          · exact h) ..)]

/-- Two operand words construct an axis or are refused (43_floatpacker.md R181). -/
theorem axis_refused_or_accepted (iMax iPrec : Byte) (maxWord precWord : Word) :
    (∃ info, AxisRefused iMax iPrec maxWord precWord info) ∨ ∃ ax, AxisAccepted maxWord precWord ax := by
  by_cases h1 : ∃ mx, f32dec maxWord = some mx ∧ 0 < mx
  · obtain ⟨mx, h1, h2⟩ := h1
    by_cases h3 : ∃ pr, f32dec precWord = some pr ∧ 0 < pr ∧ ⌈mx / pr⌉ ≤ 2 ^ 31 - 1
    · obtain ⟨pr, h3, h4, h5⟩ := h3
      obtain ⟨b1, -, b2, b3⟩ := bitCountFromRange_spec (one_le_ceil_div h2 h4) h5
      exact .inr ⟨⟨mx, pr, _⟩, h1, h2, h3, h4, h5, b1, b2, b3⟩
    · refine .inl ⟨iPrec, .inr ⟨mx, h1, h2, fun pr hp => ?_, rfl⟩⟩
      by_contra hc
      push Not at hc
      exact h3 ⟨pr, hp, hc.1, hc.2⟩
  · exact .inl ⟨iMax, .inl ⟨fun mx hm => not_lt.mp fun h => h1 ⟨mx, hm, h⟩, rfl⟩⟩

theorem AxisAccepted.ok {maxWord precWord : Word} {ax : Axis} (h : AxisAccepted maxWord precWord ax) : ax.Ok := by
  obtain ⟨h1, h2, h3, h4, h5, h6, h7, h8⟩ := h
  have e := bitCountFromRange_eq h6 h7 h8
  have hs := bitCountFromRange_spec (one_le_ceil_div h2 h4) h5
  exact ⟨⟨_, h1⟩, ⟨_, h3⟩, h2, h4, h5, e.symm, h6, by rw [← e]; exact hs.2.1⟩

section
variable {s : State} {stops : Prop} {E : Raise → State → Prop}

/-- Everything `AxisDerive` can do (43_floatpacker.md R181). -/
theorem Sat.axisDerive {iMax iPrec : Nat} {maxWord precWord : Word} {Q : Axis → State → Prop}
    (h : ∀ ax, AxisAccepted maxWord precWord ax → Q ax s)
    (hr : ∀ info, AxisRefused (BitVec.ofNat 8 iMax) (BitVec.ofNat 8 iPrec) maxWord precWord info →
      E ⟨.invalidArgument, info, none⟩ s) : Sat (axisDerive iMax maxWord iPrec precWord) s stops Q E := by
  unfold Sat
  rcases axis_refused_or_accepted (BitVec.ofNat 8 iMax) (BitVec.ofNat 8 iPrec) maxWord precWord with
    ⟨info, hi⟩ | ⟨ax, ha⟩
  · rw [axisDerive_raised hi]; exact hr info hi
  · rw [axisDerive_ok ha]; exact h ax ha

/-! ### The check of a value on an axis -/

theorem axisCheck_ok {ax : Axis} {i : Nat} {value : Word} {v : ℚ} (h : ValueAccepted ax value v) (s : State) :
    axisCheck ax i value s = .ok v s := by
  unfold axisCheck
  rw [bind_of_ok (finite_some h.1 s), bind_of_ok (raiseIf_neg (not_lt.mpr h.2) ..), pure_run]

theorem axisCheck_raised {ax : Axis} {i : Nat} {value : Word} {kind : FaultKind} {info : Byte}
    (h : ValueRefused ax (BitVec.ofNat 8 i) value kind info) (s : State) :
    axisCheck ax i value s = .error (.raised ⟨kind, info, none⟩) s := by
  unfold axisCheck
  rcases h with ⟨h, rfl, rfl⟩ | ⟨v, h1, h2, rfl, rfl⟩
  · rw [bind_of_error (finite_none h s)]
  · rw [bind_of_ok (finite_some h1 s), bind_of_error (raiseIf_pos h2 ..)]

theorem value_refused_or_accepted (ax : Axis) (i : Byte) (value : Word) :
    (∃ kind info, ValueRefused ax i value kind info) ∨ ∃ v, ValueAccepted ax value v := by
  rcases h : f32dec value with _ | v
  · exact .inl ⟨_, _, .inl ⟨h, rfl, rfl⟩⟩
  · rcases lt_or_ge ax.max |v| with hv | hv
    · exact .inl ⟨_, _, .inr ⟨v, h, hv, rfl, rfl⟩⟩
    · exact .inr ⟨v, h, hv⟩

/-- Everything `AxisCheck` can do (43_floatpacker.md R185). -/
theorem Sat.axisCheck {ax : Axis} {i : Nat} {value : Word} {Q : ℚ → State → Prop}
    (h : ∀ v, ValueAccepted ax value v → Q v s)
    (hr : ∀ kind info, ValueRefused ax (BitVec.ofNat 8 i) value kind info → E ⟨kind, info, none⟩ s) :
    Sat (axisCheck ax i value) s stops Q E := by
  unfold Sat
  rcases value_refused_or_accepted ax (BitVec.ofNat 8 i) value with ⟨kind, info, hr'⟩ | ⟨v, hv⟩
  · rw [axisCheck_raised hr']; exact hr _ _ hr'
  · rw [axisCheck_ok hv]; exact h v hv

end

/-! ### The fields of an axis -/

theorem axisField_eq (ax : Axis) (v : ℚ) : axisField ax v = signBit v + 2 * axisCode ax v := by
  unfold axisField signBit axisCode scaleToUInt rnd
  rw [maxCode_cast]
  simp

theorem axisCode_le {ax : Axis} (h : 0 < ax.max) (hm : 1 ≤ ax.mag) {v : ℚ} (hv : |v| ≤ ax.max) :
    axisCode ax v ≤ maxCode ax.mag :=
  (scaleToUInt_range h (Nat.lt_of_lt_of_le Nat.zero_lt_one (maxCode_pos hm)) (abs_nonneg v) hv).2

theorem axisCode_lt {ax : Axis} (h : 0 < ax.max) (hm : 1 ≤ ax.mag) {v : ℚ} (hv : |v| ≤ ax.max) :
    axisCode ax v < 2 ^ ax.mag := by
  have := axisCode_le h hm hv; have := maxCode_add_one ax.mag; omega

theorem signBit_lt (v : ℚ) : signBit v < 2 := by unfold signBit; split <;> omega

theorem axisField_lt {ax : Axis} (h : ax.Ok) {v : ℚ} (hv : |v| ≤ ax.max) : axisField ax v < 2 ^ ax.bitCount := by
  have := axisCode_lt h.maxPos h.widthRange.1 hv
  have := signBit_lt v
  rw [axisField_eq, Axis.bitCount, Nat.pow_add]; omega

/-- What `AxisEmit` appends (43_floatpacker.md R186). -/
theorem axisEmit_ok {s : State} (hw : s.w.Ready) {ax : Axis} (h : ax.Ok) {v : ℚ}
    (hb : s.w.wbit + ax.bitCount ≤ s.w.cap) :
    axisEmit ax v s = .ok () (s.appended (axisField ax v) ax.bitCount) := by
  have hm := h.widthRange
  unfold Axis.bitCount at hb ⊢
  unfold axisEmit
  rw [bind_of_ok (writeBits_ready hw (by omega) (by omega)),
    writeBits_ready (hw.appended (by omega)) (by omega) (by simpa [Nat.add_assoc] using hb),
    State.appended_appended hw hb, axisField_eq, Nat.mod_eq_of_lt (by simpa using signBit_lt v)]
  rfl

theorem axisWord_eq (ax : Axis) (sg c : Nat) (hs : sg < 2) :
    axisWord ax sg c = f32enc (axisValue ax (sg + 2 * c)) := by
  unfold axisWord axisValue scaleFromUInt
  have h1 : (sg + 2 * c) % 2 = sg := by omega
  have h2 : (sg + 2 * c) / 2 = c := by omega
  rw [h1, h2, maxCode_cast]
  split <;> simp

/-- What `AxisTake` gives (43_floatpacker.md R187). -/
theorem axisTake_ok {s : State} {ax : Axis} (hm : 1 ≤ ax.mag ∧ ax.mag ≤ 31) (hl : s.r.limit ≤ s.r.mem.bitSize)
    (hb : s.r.rbit + ax.bitCount ≤ s.r.limit) :
    axisTake ax s = .ok (f32enc (axisValue ax (s.r.mem.read s.r.rbit ax.bitCount))) (s.consumed ax.bitCount) := by
  unfold Axis.bitCount at hb ⊢
  unfold axisTake
  have e1 := readBits_ok (s := s) (n := 1) (by omega) (by omega) (by omega) hl
  have e2 := readBits_ok (s := s.consumed 1) (n := ax.mag) (by omega) (by omega)
    (by simpa [Nat.add_assoc] using hb) hl
  rw [bind_of_ok e1, bind_of_ok e2, pure_run, axisWord_eq _ _ _ (Memory.read_lt _ _ 1), Memory.read_add]
  simp [State.consumed, Nat.add_assoc]

/-! ### The construction of an axis of a PositionPacker -/

theorem posSteps_cast {mn mx pr : ℚ} (h : mn < mx) (hp : 0 < pr) : ((posSteps mn mx pr : ℕ) : ℤ) = stepsOf mn mx pr :=
  rnd_cast (div_nonneg (by linarith) hp.le)

theorem posAxisDerive_ok {a : Nat} {pr : ℚ} {ax : PosAxis} (hp : 0 < pr) (h : PosAxisAccepted pr ax) (s : State) :
    posAxisDerive a ax.min ax.max pr s = .ok ax s := by
  obtain ⟨h1, h2, h3, h4, h5, h6⟩ := h
  have e := posSteps_cast h1 hp
  unfold posAxisDerive
  rw [bind_of_ok (raiseIf_neg (not_le.mpr h1) ..), bind_of_ok (raiseIf_neg (by omega) ..),
    bind_of_ok (raiseIf_neg (by omega) ..), pure_run, e, bitCountFromRange_eq h4 h5 h6]

theorem posAxisDerive_raised {a : Nat} {mn mx pr : ℚ} {info : Byte} (ha : a < 3) (hp : 0 < pr)
    (h : PosAxisRefused (BitVec.ofNat 8 a) mn mx pr info) (s : State) :
    posAxisDerive a mn mx pr s = .error (.raised ⟨.invalidArgument, info, none⟩) s := by
  unfold posAxisDerive
  rcases h with ⟨h, rfl⟩ | ⟨h1, h2, rfl⟩
  · rw [bind_of_error (raiseIf_pos h ..)]
    congr 3
    interval_cases a <;> rfl
  · have e := posSteps_cast h1 hp
    rw [bind_of_ok (raiseIf_neg (not_le.mpr h1) ..)]
    by_cases h3 : posSteps mn mx pr < 1
    · rw [bind_of_error (raiseIf_pos h3 ..)]; rfl
    · rw [bind_of_ok (raiseIf_neg h3 ..), bind_of_error (raiseIf_pos (by omega) ..)]; rfl

theorem posAxis_refused_or_accepted (a : Byte) (mn mx pr : ℚ) :
    (∃ info, PosAxisRefused a mn mx pr info) ∨ ∃ ax : PosAxis, ax.min = mn ∧ ax.max = mx ∧ PosAxisAccepted pr ax := by
  rcases le_or_gt mx mn with h | h
  · exact .inl ⟨_, .inl ⟨h, rfl⟩⟩
  · by_cases h2 : stepsOf mn mx pr < 1 ∨ 2 ^ 31 - 1 < stepsOf mn mx pr
    · exact .inl ⟨_, .inr ⟨h, h2, rfl⟩⟩
    · push Not at h2
      obtain ⟨b1, -, b2, b3⟩ := bitCountFromRange_spec h2.1 h2.2
      exact .inr ⟨⟨mn, mx, _⟩, rfl, rfl, h, h2.1, h2.2, b1, b2, b3⟩

theorem PosAxisAccepted.ok {pr : ℚ} {ax : PosAxis} (h : PosAxisAccepted pr ax) (hp : 0 < pr) (hmin : IsFloat32 ax.min)
    (hmax : IsFloat32 ax.max) : ax.Ok pr := by
  obtain ⟨h1, h2, h3, h4, h5, h6⟩ := h
  have e := posSteps_cast h1 hp
  have hb := bitCountFromRange_eq h4 h5 h6
  have hs := bitCountFromRange_spec h2 h3
  exact ⟨hmin, hmax, h1, by omega, by rw [e, hb], h4, by rw [← hb]; exact hs.2.1⟩

/-- Everything one axis of `PCFG` can do (45_positionpacker.md R220, R221). -/
theorem Sat.posAxisDerive {s : State} {stops : Prop} {E : Raise → State → Prop} {a : Nat} {mn mx pr : ℚ} (ha : a < 3)
    (hp : 0 < pr) {Q : PosAxis → State → Prop}
    (h : ∀ ax : PosAxis, ax.min = mn → ax.max = mx → PosAxisAccepted pr ax → Q ax s)
    (hr : ∀ info, PosAxisRefused (BitVec.ofNat 8 a) mn mx pr info → E ⟨.invalidArgument, info, none⟩ s) :
    Sat (posAxisDerive a mn mx pr) s stops Q E := by
  unfold Sat
  rcases posAxis_refused_or_accepted (BitVec.ofNat 8 a) mn mx pr with ⟨info, hi⟩ | ⟨ax, h1, h2, h3⟩
  · rw [posAxisDerive_raised ha hp hi]; exact hr info hi
  · subst h1 h2; rw [posAxisDerive_ok hp h3]; exact h ax rfl rfl h3

/-! ### The codes of a PositionPacker -/

theorem clamp_eq (v : ℚ) {mn mx : ℚ} (h : mn < mx) : clamp (v - mn) 0 (mx - mn) = min (max v mn) mx - mn := by
  unfold clamp
  rcases lt_or_ge v mn with h1 | h1
  · rw [if_pos (by linarith), max_eq_right h1.le, min_eq_left h.le, sub_self]
  · rw [if_neg (by linarith), max_eq_left h1]
    rcases lt_or_ge mx v with h2 | h2
    · rw [if_pos (by linarith), min_eq_right h2.le]
    · rw [if_neg (by linarith), min_eq_left h2]

theorem posCode_eq {ax : PosAxis} (h : ax.min < ax.max) (v : ℚ) : posCode ax v = posField ax v := by
  unfold posCode posField PosAxis.range scaleToUInt rnd
  rw [clamp_eq v h, maxCode_cast]
  simp

theorem posField_lt {ax : PosAxis} (h : ax.min < ax.max) (hb : 1 ≤ ax.bits) (v : ℚ) : posField ax v < 2 ^ ax.bits := by
  rw [← posCode_eq h]
  have hc : 0 ≤ clamp (v - ax.min) 0 ax.range ∧ clamp (v - ax.min) 0 ax.range ≤ ax.range := by
    have : 0 < ax.range := sub_pos.mpr h
    unfold clamp; split_ifs <;> constructor <;> linarith
  have hle := (scaleToUInt_range (sub_pos.mpr h : 0 < ax.range)
    (Nat.lt_of_lt_of_le Nat.zero_lt_one (maxCode_pos hb)) hc.1 hc.2).2
  exact lt_of_le_of_lt hle (by have := maxCode_add_one ax.bits; omega)

theorem posWord_eq (ax : PosAxis) (c : Nat) : posWord ax c = f32enc (posValue ax c) := by
  unfold posWord posValue scaleFromUInt PosAxis.range
  rw [maxCode_cast]
  simp

/-- What one axis of `PPACK` appends (45_positionpacker.md R222). -/
theorem posEmit_ok {s : State} (hw : s.w.Ready) {ax : PosAxis} {pr : ℚ} (h : ax.Ok pr) {v : ℚ}
    (hb : s.w.wbit + ax.bits ≤ s.w.cap) : posEmit ax v s = .ok () (s.appended (posField ax v) ax.bits) := by
  have := h.widthRange
  unfold posEmit
  rw [writeBits_ready hw (by omega) hb, posCode_eq h.ordered]

/-- What one axis of `PUNPACK` gives (45_positionpacker.md R223). -/
theorem posTake_ok {s : State} {ax : PosAxis} (hm : 1 ≤ ax.bits ∧ ax.bits ≤ 31) (hl : s.r.limit ≤ s.r.mem.bitSize)
    (hb : s.r.rbit + ax.bits ≤ s.r.limit) :
    posTake ax s = .ok (f32enc (posValue ax (s.r.mem.read s.r.rbit ax.bits))) (s.consumed ax.bits) := by
  unfold posTake
  rw [bind_of_ok (readBits_ok hm.1 (by omega) hb hl), pure_run, posWord_eq]

/-! ### The encodings of a UIntVariablePacker -/

theorem uSize_eq (small medium large v : Nat) : uSize (small, medium, large) v = uvarWidth small medium large v := rfl

/-- What `UEmit` appends (47_uintvariable.md R252). -/
theorem uEmit_ok {s : State} (hw : s.w.Ready) {small medium large v : Nat} (hl : large ≤ 32) (hm : medium ≤ 32)
    (hs : small ≤ 32) (hb : s.w.wbit + uvarWidth small medium large v ≤ s.w.cap) :
    uEmit (small, medium, large) v s =
      .ok () (s.appended (uvarField small medium v) (uvarWidth small medium large v)) := by
  unfold uEmit uvarField
  unfold uvarWidth at hb ⊢
  simp only
  by_cases h1 : v < 2 ^ small
  · simp only [if_pos h1] at hb ⊢
    rw [bind_of_ok (writeBits_ready hw (by omega) (by omega)),
      writeBits_ready (hw.appended (by omega)) (by omega) (by simpa [Nat.add_assoc] using hb),
      State.appended_appended hw hb]
    simp
  · simp only [if_neg h1] at hb ⊢
    by_cases h2 : v < 2 ^ medium
    · simp only [if_pos h2] at hb ⊢
      rw [bind_of_ok (writeBits_ready hw (by omega) (by omega)),
        bind_of_ok (writeBits_ready (hw.appended (by omega)) (by omega) (by simp only; omega)),
        State.appended_appended hw (by omega),
        writeBits_ready (hw.appended (by omega)) (by omega) (by simp only; omega),
        State.appended_appended hw (by omega)]
      rfl
    · simp only [if_neg h2] at hb ⊢
      rw [bind_of_ok (writeBits_ready hw (by omega) (by omega)),
        bind_of_ok (writeBits_ready (hw.appended (by omega)) (by omega) (by simp only; omega)),
        State.appended_appended hw (by omega),
        writeBits_ready (hw.appended (by omega)) (by omega) (by simp only; omega),
        State.appended_appended hw (by omega)]
      rfl

theorem uvarField_lt {small medium large v : Nat} (h : v < 2 ^ large) :
    uvarField small medium v < 2 ^ uvarWidth small medium large v := by
  unfold uvarField uvarWidth
  split_ifs <;> rw [Nat.pow_add] <;> omega

section
variable {s : State} {stops : Prop} {E : Raise → State → Prop}

/-- Everything `UTake` can do, with widths between 1 and 32 and a storage as long as the limit
(47_uintvariable.md R254). -/
theorem Sat.uTake {small medium large : Nat} {Q : Nat → State → Prop} (hs : 1 ≤ small ∧ small ≤ 32)
    (hm : 1 ≤ medium ∧ medium ≤ 32) (hl : 1 ≤ large ∧ large ≤ 32) (hf : s.r.limit ≤ s.r.mem.bitSize)
    (hc : s.r.rbit ≤ s.r.limit)
    (h0 : s.r.mem.bit s.r.rbit = false → s.r.rbit + 1 + small ≤ s.r.limit →
      Q (s.r.mem.read (s.r.rbit + 1) small) (s.consumed (1 + small)))
    (h1 : s.r.mem.bit s.r.rbit = true → s.r.mem.bit (s.r.rbit + 1) = false → s.r.rbit + 2 + medium ≤ s.r.limit →
      Q (s.r.mem.read (s.r.rbit + 2) medium) (s.consumed (2 + medium)))
    (h2 : s.r.mem.bit s.r.rbit = true → s.r.mem.bit (s.r.rbit + 1) = true → s.r.rbit + 2 + large ≤ s.r.limit →
      Q (s.r.mem.read (s.r.rbit + 2) large) (s.consumed (2 + large)))
    (he : ∀ k n, n ≤ 32 → s.r.rbit + k ≤ s.r.limit → s.r.limit < s.r.rbit + k + n → E ⟨.underflow, 0xFF,
      some (BitVec.ofNat 32 n, BitVec.ofNat 32 (s.r.limit - (s.r.rbit + k)))⟩ (s.consumed k).readerPoisoned) :
    Sat (uTake (small, medium, large)) s stops Q E := by
  have bit1 : ∀ a, s.r.mem.read a 1 = (s.r.mem.bit a).toNat := fun a => by simp [Memory.read]
  unfold Machine.uTake
  refine Sat.bind (Sat.readBits (fun _ _ hb _ => ?_) (fun h => by omega) (fun _ _ h => he 0 1 (by omega) (by omega) (by omega))
    (fun hb hb' => by omega))
  rw [bit1]
  rcases hb0 : s.r.mem.bit s.r.rbit with _ | _
  · rw [if_pos (by simp)]
    refine Sat.readBits (fun _ _ hb _ => ?_) (fun h => by omega) (fun _ _ h => he 1 small (by omega) (by omega) h)
      (fun hb hb' => by simp only at hb hb'; omega)
    have := h0 hb0 (by simpa using hb)
    simpa [State.consumed, Nat.add_assoc] using this
  · rw [if_neg (by simp)]
    refine Sat.bind (Sat.readBits (fun _ _ hb _ => ?_) (fun h => by omega) (fun _ _ h => he 1 1 (by omega) (by omega) h)
      (fun hb hb' => by simp only at hb hb'; omega))
    simp only [State.consumed]
    rw [bit1]
    rcases hb1 : s.r.mem.bit (s.r.rbit + 1) with _ | _
    · rw [if_pos (by simp)]
      refine Sat.readBits (fun _ _ hb _ => ?_) (fun h => by omega)
        (fun _ _ h => by
          simpa [State.consumed, Nat.add_assoc] using he 2 medium (by omega) (by simp only at hb; omega)
            (by simpa [Nat.add_assoc] using h))
        (fun hb hb' => by simp only at hb hb'; omega)
      have := h1 hb0 hb1 (by simpa [Nat.add_assoc] using hb)
      simpa [State.consumed, Nat.add_assoc] using this
    · rw [if_neg (by simp)]
      refine Sat.readBits (fun _ _ hb _ => ?_) (fun h => by omega)
        (fun _ _ h => by
          simpa [State.consumed, Nat.add_assoc] using he 2 large (by omega) (by simp only at hb; omega)
            (by simpa [Nat.add_assoc] using h))
        (fun hb hb' => by simp only at hb hb'; omega)
      have := h2 hb0 hb1 (by simpa [Nat.add_assoc] using hb)
      simpa [State.consumed, Nat.add_assoc] using this

end

end Sys2Proof.Machine
end

