-- ==== Sys2Proof/Laws/PerInstr.lean ====
section
/-! SUPPORT. One law per command: its packet carries the row of its own mnemonic in the opcode map, every fixed bit as
that row has it, and as many operand words as the row has operands (30_encoding.md R91, R92, R96). -/

namespace Sys2Proof.Laws.EncodeRow

/-- What the law says of a command. -/
def Statement (i : Instr) : Prop :=
  i.wellFormed = true → ∃ row, opcodeRow (encode i).header = some row ∧ row.mnemonic = i.mnemonic ∧
    (encode i).header &&& row.mask = row.pattern ∧ (encode i).ops.length = row.operands.length

/-- A header with neither slot nor count has the row of its opcode. -/
theorem plain_row (opc : Nat) (row : OpRow)
    (hr : opcodeRow (headerWord opc 0 0) = some row ∧ headerWord opc 0 0 &&& row.mask = row.pattern) :
    opcodeRow (headerWord opc 0 0) = some row ∧ headerWord opc 0 0 &&& row.mask = row.pattern := hr

/-- A header with a slot that fits and no count has the row of its opcode. -/
theorem slot_row (opc slot : Nat) (row : OpRow) (h : slotFits slot = true)
    (hr : ∀ k < 16, opcodeRow (headerWord opc k 0) = some row ∧ headerWord opc k 0 &&& row.mask = row.pattern) :
    opcodeRow (headerWord opc slot 0) = some row ∧ headerWord opc slot 0 &&& row.mask = row.pattern :=
  hr slot (of_decide_eq_true h)

/-- A header with a count that fits and no slot has the row of its opcode. -/
theorem cnt_row (opc cnt : Nat) (row : OpRow) (h : cntFits cnt = true)
    (hr : ∀ k < 64, opcodeRow (headerWord opc 0 k) = some row ∧ headerWord opc 0 k &&& row.mask = row.pattern) :
    opcodeRow (headerWord opc 0 cnt) = some row ∧ headerWord opc 0 cnt &&& row.mask = row.pattern :=
  hr cnt (of_decide_eq_true h)

theorem stat : Statement .stat :=
  fun _ => ⟨_, (plain_row 0x01 ⟨"STAT", 0x01, false, false, [], 1, 0x00000001#32, 0xFFFFFFFF#32⟩
    (by decide)).1, rfl, (plain_row 0x01 _ (by decide)).2, rfl⟩

theorem slotbits : ∀ slot, Statement (.slotbits slot) :=
  fun slot h => ⟨_, (slot_row 0x02 slot ⟨"SLOTBITS", 0x02, true, false, [], 3, 0x00000002#32, 0xFFFFF0FF#32⟩
    h (by decide)).1, rfl, (slot_row 0x02 slot _ h (by decide)).2, rfl⟩

theorem umax : ∀ slot, Statement (.umax slot) :=
  fun slot h => ⟨_, (slot_row 0x03 slot ⟨"UMAX", 0x03, true, false, [], 1, 0x00000003#32, 0xFFFFF0FF#32⟩
    h (by decide)).1, rfl, (slot_row 0x03 slot _ h (by decide)).2, rfl⟩

theorem wopen : ∀ capBytes, Statement (.wopen capBytes) :=
  fun capBytes _ => ⟨_, (plain_row 0x10 ⟨"WOPEN", 0x10, false, false, [.u32], 0, 0x00000010#32, 0xFFFFFFFF#32⟩
    (by decide)).1, rfl, (plain_row 0x10 _ (by decide)).2, rfl⟩

theorem write : ∀ cnt value, Statement (.write cnt value) :=
  fun cnt value h => ⟨_, (cnt_row 0x11 cnt ⟨"WRITE", 0x11, false, true, [.u32], 0, 0x00000011#32, 0xFFFC0FFF#32⟩
    h (by decide)).1, rfl, (cnt_row 0x11 cnt _ h (by decide)).2, rfl⟩

theorem wreset : Statement .wreset :=
  fun _ => ⟨_, (plain_row 0x12 ⟨"WRESET", 0x12, false, false, [], 0, 0x00000012#32, 0xFFFFFFFF#32⟩
    (by decide)).1, rfl, (plain_row 0x12 _ (by decide)).2, rfl⟩

theorem wbytelen : Statement .wbytelen :=
  fun _ => ⟨_, (plain_row 0x13 ⟨"WBYTELEN", 0x13, false, false, [], 1, 0x00000013#32, 0xFFFFFFFF#32⟩
    (by decide)).1, rfl, (plain_row 0x13 _ (by decide)).2, rfl⟩

theorem wbyte : ∀ index, Statement (.wbyte index) :=
  fun index _ => ⟨_, (plain_row 0x14 ⟨"WBYTE", 0x14, false, false, [.u32], 1, 0x00000014#32, 0xFFFFFFFF#32⟩
    (by decide)).1, rfl, (plain_row 0x14 _ (by decide)).2, rfl⟩

theorem wclose : Statement .wclose :=
  fun _ => ⟨_, (plain_row 0x15 ⟨"WCLOSE", 0x15, false, false, [], 0, 0x00000015#32, 0xFFFFFFFF#32⟩
    (by decide)).1, rfl, (plain_row 0x15 _ (by decide)).2, rfl⟩

theorem ropen : Statement .ropen :=
  fun _ => ⟨_, (plain_row 0x20 ⟨"ROPEN", 0x20, false, false, [], 0, 0x00000020#32, 0xFFFFFFFF#32⟩
    (by decide)).1, rfl, (plain_row 0x20 _ (by decide)).2, rfl⟩

theorem rput : ∀ byte, Statement (.rput byte) :=
  fun byte _ => ⟨_, (plain_row 0x21 ⟨"RPUT", 0x21, false, false, [.u32], 0, 0x00000021#32, 0xFFFFFFFF#32⟩
    (by decide)).1, rfl, (plain_row 0x21 _ (by decide)).2, rfl⟩

theorem read : ∀ cnt, Statement (.read cnt) :=
  fun cnt h => ⟨_, (cnt_row 0x22 cnt ⟨"READ", 0x22, false, true, [], 1, 0x00000022#32, 0xFFFC0FFF#32⟩
    h (by decide)).1, rfl, (cnt_row 0x22 cnt _ h (by decide)).2, rfl⟩

theorem rbytepos : Statement .rbytepos :=
  fun _ => ⟨_, (plain_row 0x23 ⟨"RBYTEPOS", 0x23, false, false, [], 1, 0x00000023#32, 0xFFFFFFFF#32⟩
    (by decide)).1, rfl, (plain_row 0x23 _ (by decide)).2, rfl⟩

theorem rclose : Statement .rclose :=
  fun _ => ⟨_, (plain_row 0x24 ⟨"RCLOSE", 0x24, false, false, [], 0, 0x00000024#32, 0xFFFFFFFF#32⟩
    (by decide)).1, rfl, (plain_row 0x24 _ (by decide)).2, rfl⟩

theorem bitcnt : ∀ min max, Statement (.bitcnt min max) :=
  fun min max _ => ⟨_, (plain_row 0x30 ⟨"BITCNT", 0x30, false, false, [.i32, .i32], 1, 0x00000030#32, 0xFFFFFFFF#32⟩
    (by decide)).1, rfl, (plain_row 0x30 _ (by decide)).2, rfl⟩

theorem scaletou : ∀ value srcMin srcMax dstMin dstMax, Statement (.scaletou value srcMin srcMax dstMin dstMax) :=
  fun value srcMin srcMax dstMin dstMax _ => ⟨_, (plain_row 0x31 ⟨"SCALETOU", 0x31, false, false, [.f32, .f32, .f32, .u32, .u32], 1, 0x00000031#32, 0xFFFFFFFF#32⟩
    (by decide)).1, rfl, (plain_row 0x31 _ (by decide)).2, rfl⟩

theorem scalefromu : ∀ code srcMin srcMax dstMin dstMax, Statement (.scalefromu code srcMin srcMax dstMin dstMax) :=
  fun code srcMin srcMax dstMin dstMax _ => ⟨_, (plain_row 0x32 ⟨"SCALEFROMU", 0x32, false, false, [.u32, .u32, .u32, .f32, .f32], 1, 0x00000032#32, 0xFFFFFFFF#32⟩
    (by decide)).1, rfl, (plain_row 0x32 _ (by decide)).2, rfl⟩

theorem fcfg : ∀ slot max precision, Statement (.fcfg slot max precision) :=
  fun slot max precision h => ⟨_, (slot_row 0x40 slot ⟨"FCFG", 0x40, true, false, [.f32, .f32], 0, 0x00000040#32, 0xFFFFF0FF#32⟩
    h (by decide)).1, rfl, (slot_row 0x40 slot _ h (by decide)).2, rfl⟩

theorem fpack : ∀ slot value, Statement (.fpack slot value) :=
  fun slot value h => ⟨_, (slot_row 0x41 slot ⟨"FPACK", 0x41, true, false, [.f32], 0, 0x00000041#32, 0xFFFFF0FF#32⟩
    h (by decide)).1, rfl, (slot_row 0x41 slot _ h (by decide)).2, rfl⟩

theorem funpack : ∀ slot, Statement (.funpack slot) :=
  fun slot h => ⟨_, (slot_row 0x42 slot ⟨"FUNPACK", 0x42, true, false, [], 1, 0x00000042#32, 0xFFFFF0FF#32⟩
    h (by decide)).1, rfl, (slot_row 0x42 slot _ h (by decide)).2, rfl⟩

theorem v2cfg : ∀ slot maxX maxY precX precY, Statement (.v2cfg slot maxX maxY precX precY) :=
  fun slot maxX maxY precX precY h => ⟨_, (slot_row 0x50 slot ⟨"V2CFG", 0x50, true, false, [.f32, .f32, .f32, .f32], 0, 0x00000050#32, 0xFFFFF0FF#32⟩
    h (by decide)).1, rfl, (slot_row 0x50 slot _ h (by decide)).2, rfl⟩

theorem v2pack : ∀ slot x y, Statement (.v2pack slot x y) :=
  fun slot x y h => ⟨_, (slot_row 0x51 slot ⟨"V2PACK", 0x51, true, false, [.f32, .f32], 0, 0x00000051#32, 0xFFFFF0FF#32⟩
    h (by decide)).1, rfl, (slot_row 0x51 slot _ h (by decide)).2, rfl⟩

theorem v2unpack : ∀ slot, Statement (.v2unpack slot) :=
  fun slot h => ⟨_, (slot_row 0x52 slot ⟨"V2UNPACK", 0x52, true, false, [], 2, 0x00000052#32, 0xFFFFF0FF#32⟩
    h (by decide)).1, rfl, (slot_row 0x52 slot _ h (by decide)).2, rfl⟩

theorem v3cfg : ∀ slot maxX maxY maxZ precX precY precZ, Statement (.v3cfg slot maxX maxY maxZ precX precY precZ) :=
  fun slot maxX maxY maxZ precX precY precZ h => ⟨_, (slot_row 0x54 slot ⟨"V3CFG", 0x54, true, false, [.f32, .f32, .f32, .f32, .f32, .f32], 0, 0x00000054#32, 0xFFFFF0FF#32⟩
    h (by decide)).1, rfl, (slot_row 0x54 slot _ h (by decide)).2, rfl⟩

theorem v3pack : ∀ slot x y z, Statement (.v3pack slot x y z) :=
  fun slot x y z h => ⟨_, (slot_row 0x55 slot ⟨"V3PACK", 0x55, true, false, [.f32, .f32, .f32], 0, 0x00000055#32, 0xFFFFF0FF#32⟩
    h (by decide)).1, rfl, (slot_row 0x55 slot _ h (by decide)).2, rfl⟩

theorem v3unpack : ∀ slot, Statement (.v3unpack slot) :=
  fun slot h => ⟨_, (slot_row 0x56 slot ⟨"V3UNPACK", 0x56, true, false, [], 3, 0x00000056#32, 0xFFFFF0FF#32⟩
    h (by decide)).1, rfl, (slot_row 0x56 slot _ h (by decide)).2, rfl⟩

theorem pcfg : ∀ slot minX minY minZ maxX maxY maxZ precision, Statement (.pcfg slot minX minY minZ maxX maxY maxZ precision) :=
  fun slot minX minY minZ maxX maxY maxZ precision h => ⟨_, (slot_row 0x60 slot ⟨"PCFG", 0x60, true, false, [.f32, .f32, .f32, .f32, .f32, .f32, .f32], 0, 0x00000060#32, 0xFFFFF0FF#32⟩
    h (by decide)).1, rfl, (slot_row 0x60 slot _ h (by decide)).2, rfl⟩

theorem ppack : ∀ slot x y z, Statement (.ppack slot x y z) :=
  fun slot x y z h => ⟨_, (slot_row 0x61 slot ⟨"PPACK", 0x61, true, false, [.f32, .f32, .f32], 0, 0x00000061#32, 0xFFFFF0FF#32⟩
    h (by decide)).1, rfl, (slot_row 0x61 slot _ h (by decide)).2, rfl⟩

theorem punpack : ∀ slot, Statement (.punpack slot) :=
  fun slot h => ⟨_, (slot_row 0x62 slot ⟨"PUNPACK", 0x62, true, false, [], 3, 0x00000062#32, 0xFFFFF0FF#32⟩
    h (by decide)).1, rfl, (slot_row 0x62 slot _ h (by decide)).2, rfl⟩

theorem ucfg : ∀ slot small medium large, Statement (.ucfg slot small medium large) :=
  fun slot small medium large h => ⟨_, (slot_row 0x70 slot ⟨"UCFG", 0x70, true, false, [.u32, .u32, .u32], 0, 0x00000070#32, 0xFFFFF0FF#32⟩
    h (by decide)).1, rfl, (slot_row 0x70 slot _ h (by decide)).2, rfl⟩

theorem upack : ∀ slot value, Statement (.upack slot value) :=
  fun slot value h => ⟨_, (slot_row 0x71 slot ⟨"UPACK", 0x71, true, false, [.u32], 0, 0x00000071#32, 0xFFFFF0FF#32⟩
    h (by decide)).1, rfl, (slot_row 0x71 slot _ h (by decide)).2, rfl⟩

theorem uunpack : ∀ slot, Statement (.uunpack slot) :=
  fun slot h => ⟨_, (slot_row 0x72 slot ⟨"UUNPACK", 0x72, true, false, [], 1, 0x00000072#32, 0xFFFFF0FF#32⟩
    h (by decide)).1, rfl, (slot_row 0x72 slot _ h (by decide)).2, rfl⟩

theorem upackn : ∀ slot present value, Statement (.upackn slot present value) :=
  fun slot present value h => ⟨_, (slot_row 0x73 slot ⟨"UPACKN", 0x73, true, false, [.u32, .u32], 0, 0x00000073#32, 0xFFFFF0FF#32⟩
    h (by decide)).1, rfl, (slot_row 0x73 slot _ h (by decide)).2, rfl⟩

theorem uunpackn : ∀ slot, Statement (.uunpackn slot) :=
  fun slot h => ⟨_, (slot_row 0x74 slot ⟨"UUNPACKN", 0x74, true, false, [], 2, 0x00000074#32, 0xFFFFF0FF#32⟩
    h (by decide)).1, rfl, (slot_row 0x74 slot _ h (by decide)).2, rfl⟩

end Sys2Proof.Laws.EncodeRow
end

