-- ==== Sys2Proof/Tests/Slice0.lean ====
section
/-! SUPPORT. Tests of single steps, their expected values taken from 95_test_vectors.md or written out from the encodings
of 30_encoding.md; and for every statement of Obligations.lean that has hypotheses, a theorem that concrete states and
operands meet them, at the boundaries of its clauses. -/

namespace Sys2Proof.Tests

open Sys2Proof Sys2Proof.Machine

/- The tests that decide by the kernel are elaborated one after the other: each waits for the kernel, and many waiting at
once need many threads. -/
set_option Elab.async false

/-! ### Helpers -/

/-- The last response of an outcome: its header word and its result words. -/
def answer : Host.Outcome State Fault Refusal → Option (List Word)
  | .next s => s.responses.getLast?.map Response.words
  | _ => none

/-- A look at the state an outcome leaves. -/
def look {α : Type} (f : State → α) : Host.Outcome State Fault Refusal → Option α
  | .next s => some (f s)
  | _ => none

/-- An axis with max 10 and precision 1/2: 20 steps, 5 magnitude bits, 6 bits in all. -/
def ax : Axis := ⟨10, 1 / 2, 5⟩

/-- An axis of a PositionPacker from -8 to 8 with precision 1/2: 32 steps, 6 bits. -/
def pax : PosAxis := ⟨-8, 8, 6⟩

/-- A slot table with every kind of descriptor. -/
def table : List Descriptor :=
  [.empty, .float ax, .vec2 ax ax, .vec3 ax ax ax, .pos pax pax pax (1 / 2), .uvar 4 8 16, .float ax]

/-- Both contexts live over storages of 8 bytes, the cursors given, the reader over two bytes. -/
def live (wbit rbit : Nat) : State where
  w := { live := true, poison := false, cap := 64, wbit := wbit, mem := ⟨8, []⟩ }
  r := { live := true, poison := false, limit := 64, rbit := rbit, mem := ⟨8, [(0, 0xA5), (1, 0x3C)]⟩ }
  slots := table
  port := []
  responses := []
  freeIdx := 0

/-- Both contexts closed. -/
def closed : State :=
  { live 0 0 with
    w := { live := false, poison := false, cap := 0, wbit := 0, mem := ⟨8, [(3, 7)]⟩ }
    r := { live := false, poison := false, limit := 0, rbit := 0, mem := ⟨8, [(3, 7)]⟩ } }

/-- Both contexts poisoned, their UNSPECIFIED fields given. -/
def poisonedAt (wbit rbit : Nat) : State :=
  { live 0 0 with
    w := { live := true, poison := true, cap := 64, wbit := wbit, mem := ⟨8, [(wbit % 8, 1)]⟩ }
    r := { live := true, poison := true, limit := 32, rbit := rbit, mem := ⟨8, [(rbit % 8, 1)]⟩ } }

/-- The reader live and fed with `limit` bits of zeros, its cursor at 0. -/
def fed (limit : Nat) : State :=
  { live 0 0 with r := { live := true, poison := false, limit := limit, rbit := 0, mem := ⟨8, []⟩ } }

theorem ax_ok : ax.Ok where
  maxFloat := ⟨0x41200000#32, by decide +kernel⟩
  precFloat := ⟨0x3F000000#32, by decide +kernel⟩
  maxPos := by norm_num [ax]
  precPos := by norm_num [ax]
  stepsFit := by decide +kernel
  width := by decide +kernel
  widthRange := by decide +kernel

theorem pax_ok : pax.Ok (1 / 2) where
  minFloat := ⟨0xC1000000#32, by decide +kernel⟩
  maxFloat := ⟨0x41000000#32, by decide +kernel⟩
  ordered := by norm_num [pax]
  stepsFit := by decide +kernel
  width := by decide +kernel
  widthRange := by decide +kernel

theorem table_ok : ∀ d ∈ table, d.Ok := by
  intro d hd
  simp only [table, List.mem_cons, List.not_mem_nil, or_false] at hd
  rcases hd with rfl | rfl | rfl | rfl | rfl | rfl | rfl
  · trivial
  · exact ax_ok
  · exact ⟨ax_ok, ax_ok⟩
  · exact ⟨ax_ok, ax_ok, ax_ok⟩
  · exact ⟨by norm_num, ⟨0x3F000000#32, by decide +kernel⟩, pax_ok, pax_ok, pax_ok⟩
  · show 1 ≤ 4 ∧ 4 < 8 ∧ 8 < 16 ∧ 16 ≤ 32
    decide
  · exact ax_ok

theorem zeros_of_empty (size lo hi : Nat) : ZeroBits ⟨size, []⟩ lo hi := by
  intro a _ _
  show ((0 : Byte)).getLsbD (a % 8) = false
  simp

theorem params_legal : Config.Params.Legal ⟨8, 8, 7⟩ := by decide +kernel

theorem live_inv (wbit rbit : Nat) (hw : wbit ≤ 64) (hr : rbit ≤ 64) : (live wbit rbit).Inv where
  params := params_legal
  writer := ⟨rfl, (rfl : 64 % 64 = 0), le_rfl, hw, fun h => Bool.noConfusion h, fun _ => zeros_of_empty 8 wbit 64⟩
  reader := ⟨rfl, (rfl : 64 % 8 = 0), le_rfl, hr, fun h => Bool.noConfusion h,
    fun _ _ h h' => absurd h' (Nat.not_lt.mpr h)⟩
  slots := table_ok

theorem closed_inv : closed.Inv where
  params := params_legal
  writer := ⟨rfl, rfl, Nat.zero_le _, le_rfl, fun _ => ⟨rfl, rfl, rfl⟩, fun h => Lifecycle.noConfusion h⟩
  reader := ⟨rfl, rfl, Nat.zero_le _, le_rfl, fun _ => ⟨rfl, rfl, rfl⟩, fun h => Lifecycle.noConfusion h⟩
  slots := table_ok

theorem one_byte_wf (k : Nat) (h : k < 8) : Memory.wf ⟨8, [(k, 1)]⟩ = true := by
  simp [Memory.wf, rising, Memory.unlisted, h]

theorem poisoned_inv (wbit rbit : Nat) (hw : wbit ≤ 64) (hr : rbit ≤ 32) : (poisonedAt wbit rbit).Inv where
  params := params_legal
  writer := ⟨one_byte_wf _ (Nat.mod_lt _ (by decide +kernel)), (rfl : 64 % 64 = 0), le_rfl, hw, fun h => Bool.noConfusion h,
    fun h => Lifecycle.noConfusion h⟩
  reader := ⟨one_byte_wf _ (Nat.mod_lt _ (by decide +kernel)), (rfl : 32 % 8 = 0), (by decide : 32 ≤ 64), hr,
    fun h => Bool.noConfusion h, fun h => Lifecycle.noConfusion h⟩
  slots := table_ok

theorem fed_inv (limit : Nat) (h8 : limit % 8 = 0) (h : limit ≤ 64) : (fed limit).Inv where
  params := params_legal
  writer := (live_inv 0 0 (by decide +kernel) (by decide +kernel)).writer
  reader := ⟨rfl, h8, h, Nat.zero_le _, fun h => Bool.noConfusion h, fun _ => zeros_of_empty 8 limit 64⟩
  slots := table_ok

/-! ### Well-formed terms: each check refuses an ill-formed term -/

theorem test_slot_15_is_well_formed : (Instr.fpack 15 0).wellFormed = true := by decide +kernel
theorem test_cnt_63_is_well_formed : (Instr.write 63 0).wellFormed = true := by decide +kernel

theorem test_cnt_64_is_refused : [Instr.write 64 0, .read 64].all (fun i => !i.wellFormed) = true := by decide +kernel

theorem test_slot_16_is_refused :
    [Instr.slotbits 16, .umax 16, .fcfg 16 0 0, .fpack 16 0, .funpack 16, .v2cfg 16 0 0 0 0, .v2pack 16 0 0,
      .v2unpack 16, .v3cfg 16 0 0 0 0 0 0, .v3pack 16 0 0 0, .v3unpack 16, .pcfg 16 0 0 0 0 0 0 0, .ppack 16 0 0 0,
      .punpack 16, .ucfg 16 0 0 0, .upack 16 0, .uunpack 16, .upackn 16 0 0, .uunpackn 16].all
      (fun i => !i.wellFormed) = true := by decide +kernel

/-! ### Decoding: words written out from 30_encoding.md R91 and R96 -/

theorem test_decode_diagnostics :
    decode ⟨0x00000001#32, []⟩ = .ok .stat ∧
    decode ⟨0x00000F02#32, []⟩ = .ok (.slotbits 15) ∧
    decode ⟨0x00000703#32, []⟩ = .ok (.umax 7) := by decide +kernel

theorem test_decode_writer :
    decode ⟨0x00000010#32, [0x0000000A#32]⟩ = .ok (.wopen 10#32) ∧
    decode ⟨0x0003F011#32, [0x80000001#32]⟩ = .ok (.write 63 0x80000001#32) ∧
    decode ⟨0x00000012#32, []⟩ = .ok .wreset ∧
    decode ⟨0x00000013#32, []⟩ = .ok .wbytelen ∧
    decode ⟨0x00000014#32, [0x00000002#32]⟩ = .ok (.wbyte 2#32) ∧
    decode ⟨0x00000015#32, []⟩ = .ok .wclose := by decide +kernel

theorem test_decode_reader :
    decode ⟨0x00000020#32, []⟩ = .ok .ropen ∧
    decode ⟨0x00000021#32, [0xFFFFE6E6#32]⟩ = .ok (.rput 0xFFFFE6E6#32) ∧
    decode ⟨0x00014022#32, []⟩ = .ok (.read 20) ∧
    decode ⟨0x00000023#32, []⟩ = .ok .rbytepos ∧
    decode ⟨0x00000024#32, []⟩ = .ok .rclose := by decide +kernel

theorem test_decode_pure :
    decode ⟨0x00000030#32, [0x000003E8#32, 0x000007D0#32]⟩ = .ok (.bitcnt 1000#32 2000#32) ∧
    decode ⟨0x00000031#32, [1#32, 2#32, 3#32, 4#32, 5#32]⟩ = .ok (.scaletou 1#32 2#32 3#32 4#32 5#32) ∧
    decode ⟨0x00000032#32, [1#32, 2#32, 3#32, 4#32, 5#32]⟩ = .ok (.scalefromu 1#32 2#32 3#32 4#32 5#32) := by decide +kernel

theorem test_decode_float :
    decode ⟨0x00000340#32, [0x42C80000#32, 0x3DCCCCCD#32]⟩ = .ok (.fcfg 3 0x42C80000#32 0x3DCCCCCD#32) ∧
    decode ⟨0x00000341#32, [0x41480000#32]⟩ = .ok (.fpack 3 0x41480000#32) ∧
    decode ⟨0x00000342#32, []⟩ = .ok (.funpack 3) := by decide +kernel

theorem test_decode_vectors :
    decode ⟨0x00000650#32, [1#32, 2#32, 3#32, 4#32]⟩ = .ok (.v2cfg 6 1#32 2#32 3#32 4#32) ∧
    decode ⟨0x00000651#32, [1#32, 2#32]⟩ = .ok (.v2pack 6 1#32 2#32) ∧
    decode ⟨0x00000652#32, []⟩ = .ok (.v2unpack 6) ∧
    decode ⟨0x00000154#32, [1#32, 2#32, 3#32, 4#32, 5#32, 6#32]⟩ = .ok (.v3cfg 1 1#32 2#32 3#32 4#32 5#32 6#32) ∧
    decode ⟨0x00000155#32, [1#32, 2#32, 3#32]⟩ = .ok (.v3pack 1 1#32 2#32 3#32) ∧
    decode ⟨0x00000156#32, []⟩ = .ok (.v3unpack 1) := by decide +kernel

theorem test_decode_position :
    decode ⟨0x00000460#32, [1#32, 2#32, 3#32, 4#32, 5#32, 6#32, 7#32]⟩ =
      .ok (.pcfg 4 1#32 2#32 3#32 4#32 5#32 6#32 7#32) ∧
    decode ⟨0x00000461#32, [1#32, 2#32, 3#32]⟩ = .ok (.ppack 4 1#32 2#32 3#32) ∧
    decode ⟨0x00000462#32, []⟩ = .ok (.punpack 4) := by decide +kernel

theorem test_decode_uint :
    decode ⟨0x00000770#32, [4#32, 8#32, 16#32]⟩ = .ok (.ucfg 7 4#32 8#32 16#32) ∧
    decode ⟨0x00000771#32, [200#32]⟩ = .ok (.upack 7 200#32) ∧
    decode ⟨0x00000772#32, []⟩ = .ok (.uunpack 7) ∧
    decode ⟨0x00000773#32, [1#32, 9#32]⟩ = .ok (.upackn 7 1#32 9#32) ∧
    decode ⟨0x00000774#32, []⟩ = .ok (.uunpackn 7) := by decide +kernel

/-- 95_test_vectors.md section 2.1. -/
theorem test_decode_refusals :
    decode ⟨0x00040000#32, []⟩ = .error .illegalOpcode ∧ decode ⟨0x00000053#32, []⟩ = .error .illegalOpcode ∧
    decode ⟨0x80000001#32, []⟩ = .error .reservedField ∧ decode ⟨0x00000101#32, []⟩ = .error .reservedField ∧
    decode ⟨0x00001010#32, [8#32]⟩ = .error .reservedField ∧ decode ⟨0x00040011#32, []⟩ = .error .reservedField ∧
    decode ⟨0x00001011#32, []⟩ = .error .operandCount ∧ decode ⟨0x00000013#32, [0#32]⟩ = .error .operandCount := by
  decide +kernel

theorem test_table_words :
    decodeTableWord 64 0x000000AB00003011 = some (.write 3 0xAB#32) ∧ decodeTableWord 32 0x00003022 = some (.read 3) ∧
    decodeTableWord 32 0x00000000 = none := by decide +kernel

theorem test_fetch_word_runs :
    step (State.reset.withFetchWord 64 0x0000000A00000010) = exec (.wopen 10#32) State.reset := rfl

/-- The examples of 30_encoding.md R110. -/
theorem test_assembler :
    assembleLine "WRITE #20, 0xABCDE".toList = some ⟨0x00014011#32, [0x000ABCDE#32]⟩ ∧
    assembleLine "FPACK s3, 12.5 ; a comment".toList = some ⟨0x00000341#32, [0x41480000#32]⟩ := by decide +kernel

/-- Log 11: just below the end of the binary32 range a literal is the largest finite word, at the end it has none. -/
theorem test_literal_range :
    Literal.encode .f32 (.decimal (mkRat ((2 ^ 25 - 1) * 2 ^ 103 - 1) 1)) = some 0x7F7FFFFF#32 ∧
    Literal.encode .f32 (.decimal (mkRat ((2 ^ 25 - 1) * 2 ^ 103) 1)) = none ∧
    Literal.encode .f32 (.decimal (mkRat (-(2 ^ 25 - 1) * 2 ^ 103) 1)) = none ∧
    assembleLine "FPACK s3, 1000000000000000000000000000000000000000".toList = none := by decide +kernel

/-! ### Single steps -/

theorem test_stat : answer (exec .stat (live 0 0)) = some [0x00010000#32, 5#32] := by decide +kernel
theorem test_stat_poisoned : answer (exec .stat (poisonedAt 0 0)) = some [0x00010000#32, 15#32] := by decide +kernel

theorem test_slotbits : answer (exec (.slotbits 3) (live 0 0)) = some [0x00030000#32, 18#32, 3#32, 2#32] := by
  decide +kernel
theorem test_slotbits_uvar : answer (exec (.slotbits 5) (live 0 0)) = some [0x00008401#32] := by decide +kernel

theorem test_umax : answer (exec (.umax 5) (live 0 0)) = some [0x00010000#32, 0xFFFF#32] := by decide +kernel
theorem test_umax_float : answer (exec (.umax 1) (live 0 0)) = some [0x00008401#32] := by decide +kernel

/-- 95_test_vectors.md section 2.2: the capacity is rounded up to whole cells. -/
theorem test_wopen : look (fun s => (s.w.live, s.w.cap, s.w.wbit)) (exec (.wopen 10#32) State.reset) =
    some (true, 128, 0) := by decide +kernel
theorem test_wopen_too_large : answer (exec (.wopen 65537#32) State.reset) = some [0x00000001#32] := by decide +kernel

/-- 95_test_vectors.md section 2.2, `WRITE #20, 0xABCDE` behind 3 bits. -/
theorem test_write : look (fun s => (s.w.wbit, s.w.mem.cell 0)) (exec (.write 20 0xFFFABCDE#32) (live 3 0)) =
    some (23, 0x000000000055E6F0#64) := by decide +kernel
theorem test_write_zero_bits : look (fun s => (s.w.wbit, s.w.poison)) (exec (.write 0 1#32) (live 64 0)) =
    some (64, false) := by decide +kernel

theorem test_wreset : look (fun s => (s.w.poison, s.w.wbit, s.w.mem.cells, s.w.cap)) (exec .wreset (poisonedAt 9 0)) =
    some (false, 0, [], 64) := by decide +kernel
theorem test_wreset_closed : answer (exec .wreset closed) = some [0x0000FF05#32] := by decide +kernel

theorem test_wbytelen : answer (exec .wbytelen (live 23 0)) = some [0x00010000#32, 3#32] := by decide +kernel
theorem test_wbytelen_poisoned : answer (exec .wbytelen (poisonedAt 0 0)) = some [0x0000FF06#32] := by decide +kernel

theorem test_wbyte : answer (exec (.wbyte 2#32)
    { live 23 0 with w := { (live 23 0).w with mem := ⟨8, [(0, 0xF5), (1, 0xE6), (2, 0x55)]⟩ } }) =
      some [0x00010000#32, 0x55#32] := by decide +kernel
theorem test_wbyte_past : answer (exec (.wbyte 3#32) (live 23 0)) = some [0x00000001#32] := by decide +kernel

theorem test_wclose : look (fun s => (s.w.live, s.w.cap, s.w.wbit)) (exec .wclose (live 23 0)) = some (false, 0, 0) := by
  decide +kernel
theorem test_wclose_closed : answer (exec .wclose closed) = some [0x0000FF05#32] := by decide +kernel

theorem test_ropen : look (fun s => (s.r.live, s.r.limit, s.r.mem.cells)) (exec .ropen closed) = some (true, 0, []) := by
  decide +kernel
theorem test_ropen_open : answer (exec .ropen (live 0 0)) = some [0x00008501#32] := by decide +kernel

/-- 95_test_vectors.md section 2.3: only the low 8 bits are stored. -/
theorem test_rput : look (fun s => (s.r.limit, s.r.mem.cells)) (exec (.rput 0xFFFFE6E6#32) (fed 8)) =
    some (16, [(1, 0xE6)]) := by decide +kernel
theorem test_rput_poisoned : answer (exec (.rput 0#32) (poisonedAt 0 0)) = some [0x0000FF06#32] := by decide +kernel

/-- 95_test_vectors.md section 2.3, the interleaved feed: bits 4 to 11 of the bytes A5 and 3C. -/
theorem test_read : answer (exec (.read 8) (live 0 4)) = some [0x00010000#32, 0xCA#32] := by decide +kernel
theorem test_read_closed : answer (exec (.read 40) closed) = some [0x0000FF05#32] := by decide +kernel

theorem test_rbytepos : answer (exec .rbytepos (live 0 23)) = some [0x00010000#32, 2#32] := by decide +kernel
theorem test_rclose : look (fun s => (s.r.live, s.r.limit, s.r.rbit)) (exec .rclose (poisonedAt 0 5)) =
    some (false, 0, 0) := by decide +kernel

/-- 95_test_vectors.md section 2.4: the difference is not wrapped. -/
theorem test_bitcnt : answer (exec (.bitcnt 0x80000000#32 0x7FFFFFFF#32) closed) = some [0x00010000#32, 32#32] := by
  decide +kernel
theorem test_bitcnt_signed : answer (exec (.bitcnt 1#32 0xFFFFFFFF#32) closed) = some [0x00000101#32] := by
  decide +kernel

/-- 95_test_vectors.md section 2.5: a tie goes up; 12.5 of 0 to 100 is code 128 of 1023. -/
theorem test_scaletou : answer (exec (.scaletou 0x3F000000#32 0#32 0x3F800000#32 0#32 1#32) closed) =
    some [0x00010000#32, 1#32] := by decide +kernel
theorem test_scaletou_range : answer (exec (.scaletou 0x3FC00000#32 0xBF800000#32 0x3F800000#32 10#32 20#32) closed) =
    some [0x00000004#32] := by decide +kernel
theorem test_scalefromu : answer (exec (.scalefromu 1#32 0#32 3#32 0#32 0x3F800000#32) closed) =
    some [0x00010000#32, 0x3EAAAAAB#32] := by decide +kernel
theorem test_scalefromu_infinite : answer (exec (.scalefromu 5#32 0#32 10#32 0x7F800000#32 0x3F800000#32) closed) =
    some [0x00000301#32] := by decide +kernel

theorem test_fcfg : look (fun s => s.slots[0]?) (exec (.fcfg 0 0x42C80000#32 0x3DCCCCCD#32) closed) =
    some (some (.float ⟨100, mkRat 13421773 134217728, 10⟩)) := by decide +kernel
theorem test_fcfg_zero_precision : answer (exec (.fcfg 0 0x3F800000#32 0#32) closed) = some [0x00000101#32] := by
  decide +kernel

/-- -2 on `ax`: sign 1, code `rnd(2 * 31 / 10) = 6`. -/
theorem test_fpack : look (fun s => (s.w.wbit, s.w.mem.cell 0)) (exec (.fpack 1 0xC0000000#32) (live 0 0)) =
    some (6, 13#64) := by decide +kernel
theorem test_fpack_range : answer (exec (.fpack 1 0x41200001#32) (live 0 0)) = some [0x00000004#32] := by decide +kernel
/-- Bits 0 to 5 of the byte A5 are 37: sign 1, code 18, `-(18 * 10 / 31)`. -/
theorem test_funpack : answer (exec (.funpack 1) (live 0 0)) = some [0x00010000#32, 0xC0B9CE74#32] := by decide +kernel
theorem test_funpack_kind : answer (exec (.funpack 5) (live 0 0)) = some [0x00008401#32] := by decide +kernel

theorem test_v2cfg : look (fun s => s.slots[0]?)
    (exec (.v2cfg 0 0x41200000#32 0x41200000#32 0x3F000000#32 0x3F000000#32) closed) = some (some (.vec2 ax ax)) := by
  decide +kernel
/-- 95_test_vectors.md E9: the operand at fault is `max.y`, operand 1. -/
theorem test_v2cfg_axis : answer (exec (.v2cfg 0 0x41200000#32 0#32 0x3C23D70A#32 0x3F000000#32) closed) =
    some [0x00000101#32] := by decide +kernel
theorem test_v2pack : look (fun s => (s.w.wbit, s.w.mem.cell 0)) (exec (.v2pack 2 0xC0000000#32 0x41200000#32) (live 0 0)) =
    some (12, 3981#64) := by decide +kernel
theorem test_v2pack_second : answer (exec (.v2pack 2 0#32 0x7F800000#32) (live 0 0)) = some [0x00000101#32] := by
  decide +kernel
theorem test_v2unpack : look (fun s => (s.r.rbit, (answer (.next s)).map List.length)) (exec (.v2unpack 2) (live 0 52)) =
    some (64, some 3) := by decide +kernel
theorem test_v2unpack_zero : answer (exec (.v2unpack 2) (live 0 16)) = some [0x00020000#32, 0#32, 0#32] := by
  decide +kernel

theorem test_v3cfg : look (fun s => s.slots[0]?)
    (exec (.v3cfg 0 0x41200000#32 0x41200000#32 0x41200000#32 0x3F000000#32 0x3F000000#32 0x3F000000#32) closed) =
      some (some (.vec3 ax ax ax)) := by decide +kernel
theorem test_v3cfg_slot : answer (exec (.v3cfg 7 0#32 0#32 0#32 0#32 0#32 0#32) closed) = some [0x00008401#32] := by
  decide +kernel
theorem test_v3pack : look (fun s => (s.w.wbit, s.w.mem.cell 0))
    (exec (.v3pack 3 0#32 0xC0000000#32 0x41200000#32) (live 0 0)) = some (18, 254784#64) := by decide +kernel
theorem test_v3pack_third : answer (exec (.v3pack 3 0#32 0#32 0xC1300000#32) (live 0 0)) = some [0x00000204#32] := by
  decide +kernel
theorem test_v3unpack_zero : answer (exec (.v3unpack 3) (live 0 16)) = some [0x00030000#32, 0#32, 0#32, 0#32] := by
  decide +kernel
theorem test_v3unpack_cursor : look (fun s => s.r.rbit) (exec (.v3unpack 3) (live 0 46)) = some 64 := by decide +kernel

theorem test_pcfg : look (fun s => s.slots[0]?)
    (exec (.pcfg 0 0xC1000000#32 0xC1000000#32 0xC1000000#32 0x41000000#32 0x41000000#32 0x41000000#32 0x3F000000#32)
      closed) = some (some (.pos pax pax pax (1 / 2))) := by decide +kernel
theorem test_pcfg_order : answer
    (exec (.pcfg 0 0#32 0#32 0#32 0x41000000#32 0#32 0x41000000#32 0x3F000000#32) closed) = some [0x00000401#32] := by
  decide +kernel
/-- -9 is clamped to -8, code 0; 0 is code `rnd(8 * 63 / 16) = 32`; 9 is clamped to 8, code 63. -/
theorem test_ppack : look (fun s => (s.w.wbit, s.w.mem.cell 0))
    (exec (.ppack 4 0xC1100000#32 0#32 0x41100000#32) (live 0 0)) = some (18, 260096#64) := by decide +kernel
theorem test_ppack_infinite : answer (exec (.ppack 4 0#32 0#32 0x7F800000#32) (live 0 0)) = some [0x00000201#32] := by
  decide +kernel
theorem test_punpack : answer (exec (.punpack 4) (live 0 16)) =
    some [0x00030000#32, 0xC1000000#32, 0xC1000000#32, 0xC1000000#32] := by decide +kernel
theorem test_punpack_cursor : look (fun s => s.r.rbit) (exec (.punpack 4) (live 0 46)) = some 64 := by decide +kernel

theorem test_ucfg : look (fun s => s.slots[0]?) (exec (.ucfg 0 4#32 8#32 16#32) closed) = some (some (.uvar 4 8 16)) := by
  decide +kernel
theorem test_ucfg_order : answer (exec (.ucfg 0 4#32 4#32 16#32) closed) = some [0x00000101#32] := by decide +kernel
/-- 95_test_vectors.md section 2.9: `UPACK 200` is `1, 0` and 8 bits: bytes 21 03. -/
theorem test_upack : look (fun s => (s.w.wbit, s.w.mem.cell 0)) (exec (.upack 5 200#32) (live 0 0)) =
    some (10, 0x321#64) := by decide +kernel
theorem test_upack_range : answer (exec (.upack 5 65536#32) (live 0 0)) = some [0x00000004#32] := by decide +kernel
/-- Bit 0 of A5 is 1, bit 1 is 0; bits 2 to 9 of A5, 3C are 0x29. -/
theorem test_uunpack : answer (exec (.uunpack 5) (live 0 0)) = some [0x00010000#32, 0x29#32] := by decide +kernel
theorem test_uunpack_cursor : look (fun s => s.r.rbit) (exec (.uunpack 5) (live 0 0)) = some 10 := by decide +kernel
theorem test_upackn_absent : look (fun s => (s.w.wbit, s.w.mem.cell 0)) (exec (.upackn 5 2#32 65536#32) (live 0 0)) =
    some (1, 0#64) := by decide +kernel
theorem test_upackn : look (fun s => (s.w.wbit, s.w.mem.cell 0)) (exec (.upackn 5 1#32 9#32) (live 0 0)) =
    some (6, 37#64) := by decide +kernel
/-- 95_test_vectors.md section 2.9: the byte 25 holds presence 1, selector 0 and the value 9. -/
theorem test_uunpackn : answer (exec (.uunpackn 5) { fed 8 with r := { (fed 8).r with mem := ⟨8, [(0, 0x25)]⟩ } }) =
    some [0x00020000#32, 1#32, 9#32] := by decide +kernel
theorem test_uunpackn_absent : answer (exec (.uunpackn 5) (fed 8)) = some [0x00020000#32, 0#32, 0#32] := by
  decide +kernel

/-- 93_implementation_defined.md U1: the writer is poisoned and the response has both detail words. -/
theorem test_overflow : look (fun s => (s.w.poison, s.w.cap, s.responses.map Response.words))
    (exec (.write 5 0#32) (live 60 0)) = some (true, 64, [[0x0002FF02#32, 5#32, 4#32]]) := rfl
theorem test_underflow : look (fun s => (s.r.poison, s.responses.map Response.words)) (exec (.read 9) (fed 8)) =
    some (true, [[0x0002FF03#32, 9#32, 8#32]]) := rfl

/-! ### Witnesses: states and operands that meet the hypotheses of the statements -/

/-- The state with events presented. -/
def presented (es : List PortEvent) (s : State) : State := { s with port := es }

theorem presented_inv {s : State} (h : s.Inv) (es : List PortEvent) : (presented es s).Inv :=
  ⟨h.params, h.writer, h.reader, h.slots⟩

/-- Both contexts live, the reader full, over the bytes given. -/
def reading (cells : List Host.Cell) : State := { live 0 0 with r := { (live 0 0).r with mem := ⟨8, cells⟩ } }

theorem reading_inv (cells : List Host.Cell) (h : Memory.wf ⟨8, cells⟩ = true) : (reading cells).Inv where
  params := params_legal
  writer := (live_inv 0 0 (by decide +kernel) (by decide +kernel)).writer
  reader := ⟨h, (rfl : 64 % 8 = 0), (by decide : 64 ≤ 64), Nat.zero_le _, fun h => Bool.noConfusion h,
    fun _ _ h h' => absurd h' (Nat.not_lt.mpr h)⟩
  slots := table_ok

/-- The writer live, the reader closed. -/
def writing : State := { live 0 0 with r := closed.r }

theorem writing_inv : writing.Inv where
  params := params_legal
  writer := (live_inv 0 0 (by decide +kernel) (by decide +kernel)).writer
  reader := closed_inv.reader
  slots := table_ok

theorem ax_accepted : AxisAccepted 0x41200000#32 0x3F000000#32 ax := by unfold AxisAccepted; decide +kernel

theorem widest_axis_accepted : AxisAccepted 0x4EFFFFFF#32 0x3F800000#32 ⟨2147483520, 1, 31⟩ := by
  unfold AxisAccepted; decide +kernel

theorem narrowest_axis_accepted : AxisAccepted 0x3F800000#32 0x40000000#32 ⟨1, 2, 1⟩ := by
  unfold AxisAccepted; decide +kernel

/-- `max` 0, infinite; then `precision` 0, infinite, and one that needs 2^31 steps. -/
theorem axes_refused :
    AxisRefused 0 1 0#32 0x3F000000#32 0 ∧ AxisRefused 0 1 0x7F800000#32 0#32 0 ∧
    AxisRefused 0 1 0x41200000#32 0#32 1 ∧ AxisRefused 0 1 0x41200000#32 0x7F800000#32 1 ∧
    AxisRefused 0 1 0x4F000000#32 0x3F800000#32 1 := by
  refine ⟨.inl ⟨?_, rfl⟩, .inl ⟨?_, rfl⟩, .inr ⟨10, ?_, ?_, ?_, rfl⟩, .inr ⟨10, ?_, ?_, ?_, rfl⟩,
    .inr ⟨2147483648, ?_, ?_, ?_, rfl⟩⟩
  · intro q h; rw [show f32dec 0#32 = some 0 by decide +kernel] at h; cases h; exact le_rfl
  · intro q h; rw [show f32dec 0x7F800000#32 = none by decide +kernel] at h; cases h
  · decide +kernel
  · norm_num
  · intro q h; rw [show f32dec 0#32 = some 0 by decide +kernel] at h; cases h; exact .inl le_rfl
  · decide +kernel
  · norm_num
  · intro q h; rw [show f32dec 0x7F800000#32 = none by decide +kernel] at h; cases h
  · decide +kernel
  · norm_num
  · intro q h
    rw [show f32dec 0x3F800000#32 = some 1 by decide +kernel] at h; cases h
    exact .inr (by decide +kernel)

theorem refused_with (a b : Byte) :
    AxisRefused a b 0#32 0x3F000000#32 a ∧ AxisRefused a b 0x41200000#32 0#32 b := by
  refine ⟨.inl ⟨?_, rfl⟩, .inr ⟨10, by decide +kernel, by norm_num, ?_, rfl⟩⟩
  · intro q h; rw [show f32dec 0#32 = some 0 by decide +kernel] at h; cases h; exact le_rfl
  · intro q h; rw [show f32dec 0#32 = some 0 by decide +kernel] at h; cases h; exact .inl le_rfl

/-- NaN, and the value next above the largest. -/
theorem values_refused (i : Byte) :
    ValueRefused ax i 0x7FC00000#32 .invalidArgument i ∧ ValueRefused ax i 0x41200001#32 .outOfRange i :=
  ⟨.inl ⟨by decide +kernel, rfl, rfl⟩, .inr ⟨mkRat 10485761 1048576, by decide +kernel, by decide +kernel, rfl, rfl⟩⟩

/-- Both bounds and zero. -/
theorem values_accepted :
    ValueAccepted ax 0x41200000#32 10 ∧ ValueAccepted ax 0xC1200000#32 (-10) ∧ ValueAccepted ax 0#32 0 := by
  unfold ValueAccepted; decide +kernel

/-- The coarsest precision that still gives one step, and the axis of 32 steps. -/
theorem pos_axes_accepted : PosAxisAccepted (1 / 2) pax ∧ PosAxisAccepted 8 ⟨0, 4, 1⟩ := by
  unfold PosAxisAccepted; decide +kernel

/-- Equal bounds; less than half a step; 2^31 steps. -/
theorem pos_axes_refused (a : Byte) :
    PosAxisRefused a 4 4 (1 / 2) (3 + a) ∧ PosAxisRefused a 0 3 8 6 ∧ PosAxisRefused a 0 2147483648 1 6 := by
  refine ⟨.inl ⟨le_rfl, rfl⟩, .inr ⟨?_, .inl ?_, rfl⟩, .inr ⟨?_, .inr ?_, rfl⟩⟩ <;> decide +kernel

theorem witness_DecodeOfEncode : (Instr.write 63 0xFFFFFFFF#32).wellFormed = true ∧
    (Instr.pcfg 15 1#32 2#32 3#32 4#32 5#32 6#32 7#32).wellFormed = true := by decide +kernel

theorem witness_EncodeOfDecode : decode ⟨0x0003F011#32, [7#32]⟩ = .ok (.write 63 7#32) := by decide +kernel

theorem witness_DecodingMakesThreeChecksInOrder :
    (∀ row ∈ opcodeMap, row.opc ≠ bitField 0x00000000#32 7 0) ∧
    (∃ row ∈ opcodeMap, row.opc = bitField 0x00040011#32 7 0 ∧ 0x00040011#32 &&& row.mask ≠ row.pattern) ∧
    (∃ row ∈ opcodeMap, row.opc = bitField 0x00001011#32 7 0 ∧ 0x00001011#32 &&& row.mask = row.pattern ∧
      ([] : List Word).length ≠ row.operands.length) ∧
    (∃ row ∈ opcodeMap, row.opc = bitField 0x0003F011#32 7 0 ∧ 0x0003F011#32 &&& row.mask = row.pattern ∧
      [1#32].length = row.operands.length) := by decide +kernel

theorem witness_RefusedPacketsChangeNothing :
    (presented [.packet ⟨0x00000053#32, []⟩] (live 0 0)).port = [.packet ⟨0x00000053#32, []⟩] ∧
    (∀ row ∈ opcodeMap, row.opc ≠ bitField 0x00000053#32 7 0) ∧
    (∃ row ∈ opcodeMap, row.opc = bitField 0x80000001#32 7 0 ∧ bitField 0x80000001#32 31 18 ≠ 0) ∧
    (∃ row ∈ opcodeMap, row.opc = bitField 0x00000101#32 7 0 ∧ row.usesSlot = false ∧ bitField 0x00000101#32 11 8 ≠ 0) ∧
    (∃ row ∈ opcodeMap, row.opc = bitField 0x00001041#32 7 0 ∧ row.usesCnt = false ∧ bitField 0x00001041#32 17 12 ≠ 0) ∧
    (∃ row ∈ opcodeMap, row.opc = bitField 0x00000013#32 7 0 ∧ 0x00000013#32 &&& row.mask = row.pattern ∧
      [0#32].length ≠ row.operands.length) := by decide +kernel

theorem witness_StepRunsTheDecodedCommand :
    State.reset.port = [] ∧
    (presented [.packet ⟨0x00000012#32, []⟩, .reset] (live 0 0)).port = .packet ⟨0x00000012#32, []⟩ :: [.reset] ∧
    decode ⟨0x00000012#32, []⟩ = .ok .wreset ∧ decodeTableWord 64 0x000000AB00003011 = some (.write 3 0xAB#32) ∧
    (presented [.reset] (live 0 0)).port = .reset :: [] := by
  decide +kernel

theorem witness_ResetLeavesTheStatedValues :
    (presented [.reset, .reset] (live 3 5)).port = .reset :: [.reset] := rfl

/-- The smallest and the largest instance. -/
theorem witness_ResetStateMeetsInvariant :
    Config.Params.Legal ⟨8, 8, 1⟩ ∧ Config.Params.Legal ⟨2 ^ 28, 2 ^ 28, 16⟩ ∧ Config.bpe1.Legal := by decide +kernel

theorem witness_EveryStepKeepsInvariant :
    (presented [.packet ⟨0x00004011#32, [9#32]⟩] (live 60 0)).Inv ∧
    ∃ t, step (presented [.packet ⟨0x00004011#32, [9#32]⟩] (live 60 0)) = .next t ∧ t.w.wbit = 64 :=
  ⟨presented_inv (live_inv 60 0 (by decide +kernel) (by decide +kernel)) _, _, rfl, rfl⟩

theorem witness_NoStepFromTheInvariantStops :
    (presented [.packet ⟨0x00005011#32, [9#32]⟩] (live 60 0)).Inv ∧ (presented [.reset] (poisonedAt 64 32)).Inv :=
  ⟨presented_inv (live_inv 60 0 (by decide +kernel) (by decide +kernel)) _, presented_inv (poisoned_inv 64 32 (by decide +kernel) (by decide +kernel)) _⟩

theorem witness_NoStepChangesTheParameters :
    ∃ t, step (presented [.packet ⟨0x00000015#32, []⟩] (live 60 0)) = .next t ∧ t.w.cap = 0 := ⟨_, rfl, rfl⟩

theorem witness_EveryPacketGivesOneResponse :
    (presented [.packet ⟨0x000000FF#32, []⟩, .reset] (live 0 0)).Inv ∧
    (presented [.packet ⟨0x000000FF#32, []⟩, .reset] (live 0 0)).port = .packet ⟨0x000000FF#32, []⟩ :: [.reset] :=
  ⟨presented_inv (live_inv 0 0 (by decide +kernel) (by decide +kernel)) _, rfl⟩

theorem witness_ResponsesCarryTheirResults :
    (live 60 0).Inv ∧
    (∃ t, exec .stat (live 60 0) = .next t ∧ t.responses = (live 60 0).responses ++ [okResponse [5#32]]) ∧
    (∃ t, exec (.write 5 0#32) (live 60 0) = .next t ∧
      t.responses = (live 60 0).responses ++ [⟨some .overflow, 0xFF, [5#32, 4#32]⟩]) ∧
    (∃ t, exec (.fpack 0 0#32) (live 60 0) = .next t ∧
      t.responses = (live 60 0).responses ++ [⟨some .invalidArgument, 0x84, []⟩]) :=
  ⟨live_inv 60 0 (by decide +kernel) (by decide +kernel), ⟨_, rfl, rfl⟩, ⟨_, rfl, rfl⟩, ⟨_, rfl, rfl⟩⟩

/-- Each way of poisoning, and a fault that poisons nothing. -/
theorem witness_FaultsPoisonAsListedOrChangeNothing :
    (live 60 0).Inv ∧ (fed 8).Inv ∧
    (∃ t, exec (.write 33 0#32) (live 60 0) = .next t ∧
      t.responses = (live 60 0).responses ++ [⟨some .invalidArgument, 0x83, []⟩]) ∧
    (∃ t, exec (.write 5 0#32) (live 60 0) = .next t ∧
      t.responses = (live 60 0).responses ++ [⟨some .overflow, 0xFF, [5#32, 4#32]⟩]) ∧
    (∃ t, exec (.read 0) (fed 8) = .next t ∧
      t.responses = (fed 8).responses ++ [⟨some .invalidArgument, 0x83, []⟩]) ∧
    (∃ t, exec (.read 9) (fed 8) = .next t ∧
      t.responses = (fed 8).responses ++ [⟨some .underflow, 0xFF, [9#32, 8#32]⟩]) ∧
    (∃ t, exec (.rput 1#32) (live 60 0) = .next t ∧
      t.responses = (live 60 0).responses ++ [⟨some .overflow, 0xFF, [8#32, 0#32]⟩]) ∧
    (∃ t, exec (.wbyte 8#32) (live 60 0) = .next t ∧
      t.responses = (live 60 0).responses ++ [⟨some .invalidArgument, 0, []⟩]) :=
  ⟨live_inv 60 0 (by decide +kernel) (by decide +kernel), fed_inv 8 (by decide +kernel) (by decide +kernel), ⟨_, rfl, rfl⟩, ⟨_, rfl, rfl⟩, ⟨_, rfl, rfl⟩,
    ⟨_, rfl, rfl⟩, ⟨_, rfl, rfl⟩, ⟨_, rfl, rfl⟩⟩

/-- The three branches of `UsesWriter` and of `UsesReader`; every statement that uses these words rests on them. -/
theorem witness_PreludesRefuseClosedAndPoisoned :
    (Instr.wbytelen.isWriterCommand = true ∧ Instr.rbytepos.isReaderCommand = true) ∧
    (closed.w.live = false ∧ closed.r.live = false) ∧
    ((poisonedAt 3 3).w.live = true ∧ (poisonedAt 3 3).w.poison = true) ∧
    ((poisonedAt 3 3).r.live = true ∧ (poisonedAt 3 3).r.poison = true) ∧
    ((live 3 3).w.live = true ∧ (live 3 3).w.poison = false) ∧
    ((live 3 3).r.live = true ∧ (live 3 3).r.poison = false) ∧
    closed.Inv ∧ (poisonedAt 3 3).Inv ∧ (live 3 3).Inv :=
  ⟨⟨rfl, rfl⟩, ⟨rfl, rfl⟩, ⟨rfl, rfl⟩, ⟨rfl, rfl⟩, ⟨rfl, rfl⟩, ⟨rfl, rfl⟩, closed_inv,
    poisoned_inv 3 3 (by decide +kernel) (by decide +kernel), live_inv 3 3 (by decide +kernel) (by decide +kernel)⟩

theorem witness_LifecycleFollowsItsTransitions :
    (poisonedAt 3 3).Inv ∧ ∃ t, exec .wreset (poisonedAt 3 3) = .next t ∧
      t.responses = (poisonedAt 3 3).responses ++ [okResponse []] :=
  ⟨poisoned_inv 3 3 (by decide +kernel) (by decide +kernel), _, rfl, rfl⟩

theorem witness_ContextsAreIndependent :
    (∃ t, exec .wclose (live 3 3) = .next t) ∧ Instr.wclose.touchesReader = false ∧
    (∃ t, exec .rclose (live 3 3) = .next t) ∧ Instr.rclose.touchesWriter = false := ⟨⟨_, rfl⟩, rfl, ⟨_, rfl⟩, rfl⟩

theorem witness_SlotsChangeOnlyByConfiguration :
    (∃ t, exec (.ucfg 0 4#32 8#32 16#32) closed = .next t ∧ t.responses = closed.responses ++ [okResponse []]) ∧
    (∃ t, exec (.ucfg 0 0#32 8#32 16#32) closed = .next t ∧
      t.responses = closed.responses ++ [⟨some .invalidArgument, 0, []⟩] ∧ t.slots[0]? = some .empty) ∧
    (Instr.ucfg 0 4#32 8#32 16#32).configuredSlot = some 0 ∧ (Instr.ucfg 0 4#32 8#32 16#32).configuredSlot ≠ some 1 :=
  ⟨⟨_, rfl, rfl⟩, ⟨_, rfl, rfl, rfl⟩, rfl, by decide +kernel⟩

/-- Two poisoned states that differ in every UNSPECIFIED field, and a `WRESET` to come. -/
theorem witness_UnspecifiedFieldsAreNeverObserved :
    let s := presented [.packet ⟨0x00000012#32, []⟩] (poisonedAt 0 0)
    let t := presented [.packet ⟨0x00000012#32, []⟩] (poisonedAt 9 5)
    s.Inv ∧ t.Inv ∧ s.SameSeen t ∧ s ≠ t ∧ ∃ s', step s = .next s' :=
  ⟨presented_inv (poisoned_inv 0 0 (by decide +kernel) (by decide +kernel)) _, presented_inv (poisoned_inv 9 5 (by decide +kernel) (by decide +kernel)) _,
    ⟨⟨rfl, rfl, rfl, rfl, fun h => Lifecycle.noConfusion h, fun h => Lifecycle.noConfusion h⟩,
      ⟨rfl, rfl, rfl, fun h => Lifecycle.noConfusion h, fun h => Lifecycle.noConfusion h,
        fun h => Lifecycle.noConfusion h⟩, rfl, rfl, rfl⟩,
    fun h => absurd (congrArg (fun s => s.w.wbit) h) (by decide +kernel), _, rfl⟩

/-- An access that ends on the last bit. -/
theorem witness_StorageAccessPrimitives :
    Memory.wf ⟨8, [(0, 1), (7, 0x80)]⟩ = true ∧ 60 + 4 ≤ Memory.bitSize ⟨8, []⟩ ∧ 60 + (1 + 3) ≤ Memory.bitSize ⟨8, []⟩ := by
  decide +kernel

/-- A field that crosses a cell boundary and ends on the last bit, and one of one bit. -/
theorem witness_TwoCellWriteIsMemWrite :
    Memory.wf ⟨16, [(0, 0xFF)]⟩ = true ∧ 16 % 8 = 0 ∧ 48 + 32 ≤ Memory.bitSize ⟨16, [(0, 0xFF)]⟩ ∧
    127 + 1 ≤ Memory.bitSize ⟨16, [(0, 0xFF)]⟩ ∧ ZeroBits ⟨16, [(0, 0xFF)]⟩ 48 80 :=
  ⟨by decide +kernel, by decide +kernel, by decide +kernel, by decide +kernel, fun a h h' => by interval_cases a <;> rfl⟩

theorem witness_TwoCellReadIsMemRead :
    Memory.wf ⟨16, [(0, 0xFF), (15, 0x80)]⟩ = true ∧ 16 % 8 = 0 ∧ 48 + 32 ≤ Memory.bitSize ⟨16, [(0, 0xFF)]⟩ ∧
    96 + 32 ≤ Memory.bitSize ⟨16, [(0, 0xFF)]⟩ := by decide +kernel

theorem witness_StatReadsTheLifecycleBits : (poisonedAt 3 3).Inv := poisoned_inv 3 3 (by decide +kernel) (by decide +kernel)

theorem witness_SlotbitsReportsBitCounts :
    (live 0 0).slots[1]? = some (.float ax) ∧ (live 0 0).slots[2]? = some (.vec2 ax ax) ∧
    (live 0 0).slots[3]? = some (.vec3 ax ax ax) ∧ (live 0 0).slots[4]? = some (.pos pax pax pax (1 / 2)) ∧
    (live 0 0).slots.length ≤ 7 ∧ (live 0 0).slots[0]? = some .empty ∧ (live 0 0).slots[5]? = some (.uvar 4 8 16) :=
  ⟨rfl, rfl, rfl, rfl, by decide +kernel, rfl, rfl⟩

theorem witness_UmaxReportsMaxValue :
    (live 0 0).slots[5]? = some (.uvar 4 8 16) ∧
    ∀ small medium large, (live 0 0).slots[1]? ≠ some (.uvar small medium large) :=
  ⟨rfl, fun _ _ _ h => by cases h⟩

theorem witness_WopenConstructsTheWriter :
    ((live 0 0).Inv ∧ (live 0 0).w.live = true) ∧ closed.Inv ∧ closed.w.live = false ∧
    closed.params.wCapMaxBytes < (9#32).toNat ∧ (8#32).toNat ≤ closed.params.wCapMaxBytes :=
  ⟨⟨live_inv 0 0 (by decide +kernel) (by decide +kernel), rfl⟩, closed_inv, rfl, by decide +kernel, by decide +kernel⟩

/-- Counts 0, 1, 32 and 33; a field that ends on the capacity, and one a bit longer. -/
theorem witness_WriteAppendsTheLowBits :
    (live 32 0).Inv ∧ (live 33 0).Inv ∧ (live 32 0).w.live = true ∧ (live 32 0).w.poison = false ∧ 32 < 33 ∧
    (live 32 0).w.wbit + 32 ≤ (live 32 0).w.cap ∧ (live 33 0).w.cap < (live 33 0).w.wbit + 32 :=
  ⟨live_inv 32 0 (by decide +kernel) (by decide +kernel), live_inv 33 0 (by decide +kernel) (by decide +kernel), rfl, rfl, by decide +kernel, by decide +kernel, by decide +kernel⟩

theorem witness_WresetZeroesTheWriter :
    (closed.Inv ∧ closed.w.live = false) ∧ (poisonedAt 3 3).Inv ∧ (poisonedAt 3 3).w.live = true :=
  ⟨⟨closed_inv, rfl⟩, poisoned_inv 3 3 (by decide +kernel) (by decide +kernel), rfl⟩

theorem witness_ByteCountsOfTheCursors :
    closed.w.live = false ∧ (live 3 3).w.live = true ∧ (live 3 3).w.poison = false ∧ (live 3 3).r.live = true ∧
    (live 3 3).r.poison = false := ⟨rfl, rfl, rfl, rfl, rfl⟩

theorem witness_WbyteExportsOneByte :
    (live 9 0).Inv ∧ (live 9 0).w.live = true ∧ (live 9 0).w.poison = false ∧
    ((live 9 0).w.wbit + 7) / 8 ≤ (2#32).toNat ∧ (1#32).toNat < ((live 9 0).w.wbit + 7) / 8 :=
  ⟨live_inv 9 0 (by decide +kernel) (by decide +kernel), rfl, rfl, by decide +kernel, by decide +kernel⟩

theorem witness_ReleasesCloseTheContext :
    closed.w.live = false ∧ closed.r.live = false ∧ (poisonedAt 3 3).w.live = true ∧ (poisonedAt 3 3).r.live = true :=
  ⟨rfl, rfl, rfl, rfl⟩

theorem witness_RopenConstructsTheReader :
    closed.Inv ∧ closed.r.live = false ∧ (poisonedAt 3 3).Inv ∧ (poisonedAt 3 3).r.live = true :=
  ⟨closed_inv, rfl, poisoned_inv 3 3 (by decide +kernel) (by decide +kernel), rfl⟩

theorem witness_RputFeedsOneByte :
    (fed 56).Inv ∧ (fed 64).Inv ∧ (fed 56).r.live = true ∧ (fed 56).r.poison = false ∧
    (fed 56).r.limit + 8 ≤ 8 * (fed 56).params.rCapMaxBytes ∧ 8 * (fed 64).params.rCapMaxBytes < (fed 64).r.limit + 8 :=
  ⟨fed_inv 56 (by decide +kernel) (by decide +kernel), fed_inv 64 (by decide +kernel) (by decide +kernel), rfl, rfl, by decide +kernel, by decide +kernel⟩

theorem witness_ReadConsumesBits :
    (live 0 32).Inv ∧ (live 0 33).Inv ∧ (live 0 32).r.live = true ∧ (live 0 32).r.poison = false ∧
    (live 0 32).r.rbit + 32 ≤ (live 0 32).r.limit ∧ (live 0 33).r.limit < (live 0 33).r.rbit + 32 :=
  ⟨live_inv 0 32 (by decide +kernel) (by decide +kernel), live_inv 0 33 (by decide +kernel) (by decide +kernel), rfl, rfl, by decide +kernel, by decide +kernel⟩

theorem witness_BitcntCountsBits :
    (7#32).toInt ≤ (7#32).toInt ∧ (0x80000000#32).toInt < (0x7FFFFFFF#32).toInt ∧
    (0xFFFFFFFF#32).toInt < (0#32).toInt := by decide +kernel

theorem witness_ScaletouInterpolatesAndRounds :
    f32dec 0x7FC00000#32 = none ∧ f32dec 0xBF800000#32 = some (-1) ∧ f32dec 0x3F800000#32 = some 1 ∧
    f32dec 0x40000000#32 = some 2 ∧ (1 : Rat) ≤ 1 ∧ (-1 : Rat) < 1 ∧ (20#32).toNat ≤ (20#32).toNat ∧
    (10#32).toNat < (20#32).toNat ∧ (1 : Rat) < 2 := by decide +kernel

theorem witness_ScalefromuInterpolates :
    (10#32).toNat ≤ (10#32).toNat ∧ (10#32).toNat < (20#32).toNat ∧ f32dec 0x7F800000#32 = none ∧
    f32dec 0xBF800000#32 = some (-1) ∧ f32dec 0x3F800000#32 = some 1 ∧ (1 : Rat) ≤ 1 ∧ (-1 : Rat) < 1 ∧
    (9#32).toNat < (10#32).toNat ∧ (20#32).toNat < (21#32).toNat := by decide +kernel

theorem witness_FcfgConstructsAnAxis :
    closed.slots.length ≤ 7 ∧ 6 < closed.slots.length ∧
    (∃ info, AxisRefused 0 1 0x4F000000#32 0x3F800000#32 info) ∧ (∃ axis, AxisAccepted 0x4EFFFFFF#32 0x3F800000#32 axis) ∧
    (∃ axis, AxisAccepted 0x3F800000#32 0x40000000#32 axis) :=
  ⟨by decide +kernel, by decide +kernel, ⟨1, axes_refused.2.2.2.2⟩, ⟨_, widest_axis_accepted⟩, ⟨_, narrowest_axis_accepted⟩⟩

/-- A field of 6 bits that ends on the capacity, and one a bit too late; both bounds accepted, the next value refused. -/
theorem witness_FpackAppendsSignAndMagnitude :
    (live 58 0).Inv ∧ (live 59 0).Inv ∧ (∀ axis, (live 58 0).slots[2]? ≠ some (.float axis)) ∧
    (live 58 0).slots[1]? = some (.float ax) ∧ (live 58 0).w.wbit + ax.bitCount ≤ (live 58 0).w.cap ∧
    (live 59 0).w.cap < (live 59 0).w.wbit + ax.bitCount ∧
    ValueRefused ax 0 0x41200001#32 .outOfRange 0 ∧ ValueAccepted ax 0x41200000#32 10 ∧
    ValueAccepted ax 0xC1200000#32 (-10) :=
  ⟨live_inv 58 0 (by decide +kernel) (by decide +kernel), live_inv 59 0 (by decide +kernel) (by decide +kernel), fun _ h => (by cases h), rfl, by decide +kernel,
    by decide +kernel, (values_refused 0).2, values_accepted.1, values_accepted.2.1⟩

theorem witness_FunpackGivesTheValueBack :
    (live 0 58).Inv ∧ (live 0 59).Inv ∧ (∀ axis, (live 0 58).slots[2]? ≠ some (.float axis)) ∧
    (live 0 58).slots[1]? = some (.float ax) ∧ (live 0 58).r.rbit + ax.bitCount ≤ (live 0 58).r.limit ∧
    (live 0 59).r.limit < (live 0 59).r.rbit + ax.bitCount :=
  ⟨live_inv 0 58 (by decide +kernel) (by decide +kernel), live_inv 0 59 (by decide +kernel) (by decide +kernel), fun _ h => (by cases h), rfl, by decide +kernel,
    by decide +kernel⟩

theorem witness_VectorConfigurationsConstructTheirAxes :
    closed.slots.length ≤ 7 ∧ 6 < closed.slots.length ∧ AxisRefused 0 2 0#32 0x3F000000#32 0 ∧
    AxisRefused 1 3 0x41200000#32 0#32 3 ∧ AxisRefused 2 5 0x41200000#32 0#32 5 ∧
    AxisAccepted 0x41200000#32 0x3F000000#32 ax :=
  ⟨by decide +kernel, by decide +kernel, (refused_with 0 2).1, (refused_with 1 3).2, (refused_with 2 5).2, ax_accepted⟩

theorem witness_VectorPacksAppendTheirAxes :
    (live 46 0).Inv ∧ (live 47 0).Inv ∧ (live 46 0).slots[2]? = some (.vec2 ax ax) ∧
    (live 46 0).slots[3]? = some (.vec3 ax ax ax) ∧ (∀ x y, (live 46 0).slots[3]? ≠ some (.vec2 x y)) ∧
    (∀ x y z, (live 46 0).slots[2]? ≠ some (.vec3 x y z)) ∧
    (live 46 0).w.wbit + (ax.bitCount + ax.bitCount + ax.bitCount) ≤ (live 46 0).w.cap ∧
    (live 47 0).w.cap < (live 47 0).w.wbit + (ax.bitCount + ax.bitCount + ax.bitCount) ∧
    ValueRefused ax 1 0x41200001#32 .outOfRange 1 ∧ ValueRefused ax 2 0x7FC00000#32 .invalidArgument 2 ∧
    ValueAccepted ax 0x41200000#32 10 :=
  ⟨live_inv 46 0 (by decide +kernel) (by decide +kernel), live_inv 47 0 (by decide +kernel) (by decide +kernel), rfl, rfl, fun _ _ h => (by cases h),
    fun _ _ _ h => (by cases h), by decide +kernel, by decide +kernel, (values_refused 1).2, (values_refused 2).1, values_accepted.1⟩

theorem witness_VectorUnpacksGiveTheirAxesBack :
    (live 0 46).Inv ∧ (live 0 53).Inv ∧ (live 0 46).slots[2]? = some (.vec2 ax ax) ∧
    (live 0 46).slots[3]? = some (.vec3 ax ax ax) ∧
    (live 0 46).r.rbit + (ax.bitCount + ax.bitCount + ax.bitCount) ≤ (live 0 46).r.limit ∧
    (live 0 53).r.limit < (live 0 53).r.rbit + (ax.bitCount + ax.bitCount) :=
  ⟨live_inv 0 46 (by decide +kernel) (by decide +kernel), live_inv 0 53 (by decide +kernel) (by decide +kernel), rfl, rfl, by decide +kernel, by decide +kernel⟩

/-- The axis from 0 to 4 with precision 8: half a step counts as one. -/
theorem witness_PcfgConstructsThreeAxes :
    closed.slots.length ≤ 7 ∧ 6 < closed.slots.length ∧ f32dec 0x7F800000#32 = none ∧ f32dec 0#32 = some 0 ∧
    f32dec 0x40800000#32 = some 4 ∧ f32dec 0x40400000#32 = some 3 ∧ f32dec 0x41000000#32 = some 8 ∧
    f32dec 0xBF800000#32 = some (-1) ∧ PosAxisAccepted 8 ⟨0, 4, 1⟩ ∧ PosAxisRefused 1 0 3 8 6 ∧
    PosAxisRefused 2 4 4 8 5 :=
  ⟨by decide +kernel, by decide +kernel, by decide +kernel, by decide +kernel, by decide +kernel, by decide +kernel, by decide +kernel,
    by decide +kernel, pos_axes_accepted.2, (pos_axes_refused 1).2.1, .inl ⟨le_rfl, rfl⟩⟩

theorem witness_PpackAppendsThreeCodes :
    (live 46 0).Inv ∧ (live 47 0).Inv ∧ (live 46 0).slots[4]? = some (.pos pax pax pax (1 / 2)) ∧
    (∀ x y z pr, (live 46 0).slots[3]? ≠ some (.pos x y z pr)) ∧ f32dec 0x7FC00000#32 = none ∧
    f32dec 0x41000000#32 = some 8 ∧ (live 46 0).w.wbit + (pax.bits + pax.bits + pax.bits) ≤ (live 46 0).w.cap ∧
    (live 47 0).w.cap < (live 47 0).w.wbit + (pax.bits + pax.bits + pax.bits) :=
  ⟨live_inv 46 0 (by decide +kernel) (by decide +kernel), live_inv 47 0 (by decide +kernel) (by decide +kernel), rfl, fun _ _ _ _ h => (by cases h),
    by decide +kernel, by decide +kernel, by decide +kernel, by decide +kernel⟩

theorem witness_PunpackGivesThreeValuesBack :
    (live 0 46).Inv ∧ (live 0 47).Inv ∧ (live 0 46).slots[4]? = some (.pos pax pax pax (1 / 2)) ∧
    (live 0 46).r.rbit + (pax.bits + pax.bits + pax.bits) ≤ (live 0 46).r.limit ∧
    (live 0 47).r.limit < (live 0 47).r.rbit + (pax.bits + pax.bits + pax.bits) :=
  ⟨live_inv 0 46 (by decide +kernel) (by decide +kernel), live_inv 0 47 (by decide +kernel) (by decide +kernel), rfl, by decide +kernel, by decide +kernel⟩

theorem witness_UcfgConstructsThreeWidths :
    closed.slots.length ≤ 7 ∧ 6 < closed.slots.length ∧ (0#32).toNat < 1 ∧ 1 ≤ (1#32).toNat ∧
    (1#32).toNat ≤ (1#32).toNat ∧ (1#32).toNat < (2#32).toNat ∧ (2#32).toNat ≤ (2#32).toNat ∧ 32 < (33#32).toNat ∧
    (31#32).toNat < (32#32).toNat ∧ (32#32).toNat ≤ 32 := by decide +kernel

/-- The largest value of each bin and the smallest of the next. -/
theorem witness_UpackAppendsTheSmallestBin :
    (live 46 0).Inv ∧ (live 47 0).Inv ∧ (live 46 0).slots[5]? = some (.uvar 4 8 16) ∧
    (∀ a b c, (live 46 0).slots[1]? ≠ some (.uvar a b c)) ∧ 2 ^ 16 ≤ (65536#32).toNat ∧ (65535#32).toNat < 2 ^ 16 ∧
    uvarWidth 4 8 16 15 = 5 ∧ uvarWidth 4 8 16 16 = 10 ∧ uvarWidth 4 8 16 255 = 10 ∧ uvarWidth 4 8 16 256 = 18 ∧
    (live 46 0).w.wbit + 18 ≤ (live 46 0).w.cap ∧ (live 47 0).w.cap < (live 47 0).w.wbit + 18 :=
  ⟨live_inv 46 0 (by decide +kernel) (by decide +kernel), live_inv 47 0 (by decide +kernel) (by decide +kernel), rfl, fun _ _ _ h => (by cases h),
    by decide +kernel, by decide +kernel, by decide +kernel, by decide +kernel, by decide +kernel, by decide +kernel, by decide +kernel, by decide +kernel⟩

/-- Selector bits 0; 1, 0; and 1, 1; a payload that ends on the limit, one that does not fit, and no bit left. -/
theorem witness_UunpackReadsTheSelectedBin :
    (reading [(0, 1)]).Inv ∧ (reading [(0, 3)]).Inv ∧ (live 0 64).Inv ∧ (live 0 59).Inv ∧
    (reading [(0, 1)]).slots[5]? = some (.uvar 4 8 16) ∧ (live 0 0).r.mem.bit 59 = false ∧
    (reading [(0, 1)]).r.mem.bit 0 = true ∧ (reading [(0, 1)]).r.mem.bit 1 = false ∧
    (reading [(0, 3)]).r.mem.bit 1 = true ∧ (live 0 64).r.limit < 64 + 1 ∧ (live 0 59).r.limit < 59 + 1 + 5 ∧
    59 + 1 + 4 ≤ (live 0 59).r.limit :=
  ⟨reading_inv _ (by decide +kernel), reading_inv _ (by decide +kernel), live_inv 0 64 (by decide +kernel) (by decide +kernel),
    live_inv 0 59 (by decide +kernel) (by decide +kernel), rfl, by decide +kernel, by decide +kernel, by decide +kernel, by decide +kernel, by decide +kernel, by decide +kernel, by decide +kernel⟩

theorem witness_UpacknPrefixesAPresenceBit :
    (live 45 0).Inv ∧ (live 64 0).Inv ∧ (live 45 0).slots[5]? = some (.uvar 4 8 16) ∧ (2#32).getLsbD 0 = false ∧
    (1#32).getLsbD 0 = true ∧ 2 ^ 16 ≤ (65536#32).toNat ∧ (65535#32).toNat < 2 ^ 16 ∧
    (live 45 0).w.wbit + (1 + uvarWidth 4 8 16 65535) ≤ (live 45 0).w.cap ∧ (live 64 0).w.cap < (live 64 0).w.wbit + 1 :=
  ⟨live_inv 45 0 (by decide +kernel) (by decide +kernel), live_inv 64 0 (by decide +kernel) (by decide +kernel), rfl, by decide +kernel, by decide +kernel, by decide +kernel,
    by decide +kernel, by decide +kernel, by decide +kernel⟩

theorem witness_UunpacknReadsAPresenceBit :
    (reading [(0, 7)]).Inv ∧ (live 0 64).Inv ∧ (reading [(0, 7)]).slots[5]? = some (.uvar 4 8 16) ∧
    (live 0 0).r.mem.bit 63 = false ∧ (reading [(0, 7)]).r.mem.bit 0 = true ∧ (live 0 64).r.limit < 64 + 1 :=
  ⟨reading_inv _ (by decide +kernel), live_inv 0 64 (by decide +kernel) (by decide +kernel), rfl, by decide +kernel, by decide +kernel, by decide +kernel⟩

/-- The largest finite value bounds itself; a word that is not negative zero decodes. -/
theorem witness_FloatEncodingIsNearest :
    IsFloat32 (mkRat (16777215 * 2 ^ 104) 1) ∧ |(mkRat (16777215 * 2 ^ 104) 1 : Rat)| ≤ mkRat (16777215 * 2 ^ 104) 1 ∧
    f32dec 0x00000001#32 = some (mkRat 1 (2 ^ 149)) ∧ 0x00000001#32 ≠ 0x80000000#32 :=
  ⟨⟨0x7F7FFFFF#32, by decide +kernel⟩, by decide +kernel, by decide +kernel, by decide +kernel⟩

theorem witness_ScaleFunctionsObeyTheirLaws :
    ((-1 : Rat) < 1 ∧ (10 : Nat) < 20) ∧ IsFloat32 (-1) ∧ IsFloat32 1 ∧ IsFloat32 (1 / 2) ∧ (-1 : Rat) ≤ 1 / 2 ∧
    (1 / 2 : Rat) ≤ 1 :=
  ⟨⟨by norm_num, by decide +kernel⟩, ⟨0xBF800000#32, by decide +kernel⟩, ⟨0x3F800000#32, by decide +kernel⟩,
    ⟨0x3F000000#32, by decide +kernel⟩, by norm_num, by norm_num⟩

/-- -2 on `ax` is the field 13; a reader that holds those bits. -/
theorem witness_FloatPackerRoundTrip :
    ax.Ok ∧ (live 58 0).Inv ∧ (live 58 0).slots[1]? = some (.float ax) ∧ ValueAccepted ax 0x41200000#32 10 ∧
    (live 58 0).w.wbit + ax.bitCount ≤ (live 58 0).w.cap ∧
    (reading [(0, 62)]).Inv ∧ (reading [(0, 62)]).slots[1]? = some (.float ax) ∧
    (reading [(0, 62)]).r.rbit + ax.bitCount ≤ (reading [(0, 62)]).r.limit ∧
    look (fun t => (List.range 6).all fun j => (reading [(0, 62)]).r.mem.bit j == t.w.mem.bit (58 + j))
      (exec (.fpack 1 0x41200000#32) (live 58 0)) = some true :=
  ⟨ax_ok, live_inv 58 0 (by decide +kernel) (by decide +kernel), rfl, values_accepted.1, by decide +kernel, reading_inv _ (by decide +kernel), rfl,
    by decide +kernel, by decide +kernel⟩

/-- 15 in the smallest bin of 4, 8, 16, without and with a presence bit; readers that hold those bits. -/
theorem witness_UIntVariableRoundTrip :
    (live 59 0).Inv ∧ (live 58 0).Inv ∧ (reading [(0, 30)]).Inv ∧ (reading [(0, 61)]).Inv ∧
    (live 59 0).slots[5]? = some (.uvar 4 8 16) ∧ (reading [(0, 30)]).slots[5]? = some (.uvar 4 8 16) ∧
    (15#32).toNat < 2 ^ 16 ∧ (live 59 0).w.wbit + uvarWidth 4 8 16 15 ≤ (live 59 0).w.cap ∧
    look (fun t => (List.range 5).all fun j => (reading [(0, 30)]).r.mem.bit j == t.w.mem.bit (59 + j))
      (exec (.upack 5 15#32) (live 59 0)) = some true ∧
    look (fun t => (List.range 6).all fun j => (reading [(0, 61)]).r.mem.bit j == t.w.mem.bit (58 + j))
      (exec (.upackn 5 1#32 15#32) (live 58 0)) = some true :=
  ⟨live_inv 59 0 (by decide +kernel) (by decide +kernel), live_inv 58 0 (by decide +kernel) (by decide +kernel), reading_inv _ (by decide +kernel),
    reading_inv _ (by decide +kernel), rfl, rfl, by decide +kernel, by decide +kernel, by decide +kernel, by decide +kernel⟩

/-- Fields of 3, 0, 32 and 29 bits that fill the capacity. -/
theorem witness_WritesConcatenate :
    (live 0 0).Inv ∧ (live 0 0).w.live = true ∧ (live 0 0).w.poison = false ∧ (live 0 0).w.wbit = 0 ∧
    (∀ f ∈ [(3, 5#32), (0, 7#32), (32, 9#32), (29, 1#32)], f.1 ≤ 32) ∧
    fieldsWidth [(3, 5#32), (0, 7#32), (32, 9#32), (29, 1#32)] = (live 0 0).w.cap :=
  ⟨live_inv 0 0 (by decide +kernel) (by decide +kernel), rfl, rfl, rfl, by decide +kernel, by decide +kernel⟩

theorem witness_IntegerFieldsRoundTrip :
    writing.Inv ∧ writing.w.live = true ∧ writing.w.poison = false ∧ writing.w.wbit = 0 ∧ writing.r.live = false ∧
    (∀ f ∈ [(3, 13#32), (0, 7#32)], f.1 ≤ 32) ∧ fieldsWidth [(3, 13#32), (0, 7#32)] ≤ writing.w.cap ∧
    fieldsWidth [(3, 13#32), (0, 7#32)] ≤ 8 * writing.params.rCapMaxBytes ∧
    ∃ t, execAll ([(3, 13#32), (0, 7#32)].map fun f => .write f.1 f.2) writing = .next t ∧
      [5#32].length = (fieldsWidth [(3, 13#32), (0, 7#32)] + 7) / 8 ∧
      ∀ (k : Nat) (b : Word), [5#32][k]? = some b → Completes (.wbyte (BitVec.ofNat 32 k)) t t [b] := by
  refine ⟨writing_inv, rfl, rfl, rfl, rfl, by decide +kernel, by decide +kernel, by decide +kernel, _, rfl, rfl, ?_⟩
  intro k b h
  match k with
  | 0 => cases h; rfl
  | k + 1 => cases h

theorem witness_VectorPackIsAxisByAxis :
    (live 46 0).Inv ∧ (live 46 0).w.live = true ∧ (live 46 0).w.poison = false ∧
    (live 46 0).slots[1]? = some (.float ax) ∧ (live 46 0).slots[6]? = some (.float ax) ∧
    (live 46 0).slots[2]? = some (.vec2 ax ax) ∧ (live 46 0).slots[3]? = some (.vec3 ax ax ax) ∧
    (∃ q, ValueAccepted ax 0x41200000#32 q) ∧
    (live 46 0).w.wbit + (ax.bitCount + ax.bitCount + ax.bitCount) ≤ (live 46 0).w.cap :=
  ⟨live_inv 46 0 (by decide +kernel) (by decide +kernel), rfl, rfl, rfl, rfl, rfl, rfl, ⟨_, values_accepted.1⟩, by decide +kernel⟩

end Sys2Proof.Tests
end

section
/-! SUPPORT. What the lines of a command can do, by class: lines that change nothing, lines that never look at the state,
lines that move one of the two streams; and from these, once for all 34 commands, what a command can do (`Effect`). -/

namespace Sys2Proof.Machine

/-! ### Faults by what they poison -/

/-- A fault that poisons no context, whatever command raises it (60_exceptions.md R288, R295). -/
abbrev Raise.Plain (f : Raise) : Prop :=
  f.kind ≠ .overflow ∧ f.kind ≠ .underflow ∧ (f.kind = .invalidArgument → f.info ≠ 0x83)

/-- A fault with which the primitive write step poisons the writer (40_writer.md R121, R128). -/
abbrev Raise.PoisonsWriter (f : Raise) : Prop :=
  f.kind = .overflow ∨ (f.kind = .invalidArgument ∧ f.info = 0x83)

/-- A fault with which the primitive read step poisons the reader (41_reader.md R142, R148). -/
abbrev Raise.PoisonsReader (f : Raise) : Prop :=
  f.kind = .underflow ∨ (f.kind = .invalidArgument ∧ f.info = 0x83)

@[simp] theorem Raise.response_fault (f : Raise) : f.response.fault = some f.kind := rfl
@[simp] theorem Raise.response_info (f : Raise) : f.response.info = f.info := rfl
@[simp] theorem okResponse_fault (results : List Word) : (okResponse results).fault = none := rfl

/-- An InvalidArgument that names an operand is not the one that names the count. -/
theorem operand_ne_infoCount {i : Nat} (h : i < 0x83) : BitVec.ofNat 8 i ≠ 0x83#8 := by
  intro he
  have hn := congrArg BitVec.toNat he
  simp only [BitVec.toNat_ofNat] at hn
  omega

/-! ### Lines that change nothing -/

section
variable {α β : Type}

/-- Lines that change no state, from whatever state they run, and whose faults poison nothing. Here and below, a stop of
the model (an access past a storage, log 9) is left out: it answers no next state. -/
def Quiet (c : Cmd α) : Prop := ∀ s, Sat c s True (fun _ t => t = s) (fun f t => f.Plain ∧ t = s)

theorem Quiet.pure (a : α) : Quiet (Pure.pure a : Cmd α) := fun _ => Sat.pure rfl

theorem Quiet.bind {c : Cmd α} {k : α → Cmd β} (hc : Quiet c) (hk : ∀ a, Quiet (k a)) : Quiet (c >>= k) :=
  fun s => Sat.bind ((hc s).mono (fun a _ ht => ht ▸ hk a s) fun _ _ h => h)

theorem Quiet.getState : Quiet getState := fun _ => Sat.getState rfl

theorem Quiet.raiseIf {p : Prop} [Decidable p] {kind : FaultKind} {info : Nat}
    (h : Raise.Plain ⟨kind, BitVec.ofNat 8 info, none⟩) : Quiet (raiseIf p kind info) :=
  fun _ => Sat.raiseIf (fun _ => ⟨h, rfl⟩) fun _ => rfl

theorem Quiet.requireWriter : Quiet requireWriter :=
  fun _ => Sat.requireWriter (fun _ => ⟨by decide, rfl⟩) (fun _ _ => ⟨by decide, rfl⟩) fun _ => rfl

theorem Quiet.requireReader : Quiet requireReader :=
  fun _ => Sat.requireReader (fun _ => ⟨by decide, rfl⟩) (fun _ _ => ⟨by decide, rfl⟩) fun _ => rfl

theorem Quiet.requireSlot {slot : Nat} {view : Descriptor → Option α} : Quiet (requireSlot slot view) :=
  fun _ => Sat.requireSlot (fun _ _ => rfl) fun _ => ⟨by decide, rfl⟩

theorem Quiet.memReadW {a n : Nat} : Quiet (memReadW a n) :=
  fun _ => Sat.memReadW (fun _ => rfl) fun _ => trivial

theorem Quiet.finite {i : Nat} {w : Word} (hi : i < 0x83) : Quiet (finite i w) :=
  fun _ => Sat.finite (fun _ _ => rfl) fun _ => ⟨⟨by simp, by simp, fun _ => operand_ne_infoCount hi⟩, rfl⟩

theorem Quiet.axisCheck {ax : Axis} {i : Nat} {value : Word} (hi : i < 0x83) : Quiet (axisCheck ax i value) := by
  refine fun _ => Sat.axisCheck (fun _ _ => rfl) fun kind info hr => ⟨?_, rfl⟩
  rcases hr with ⟨-, rfl, rfl⟩ | ⟨_, -, -, rfl, rfl⟩
  · exact ⟨by simp, by simp, fun _ => operand_ne_infoCount hi⟩
  · exact ⟨by simp, by simp, by simp⟩

/-! ### Lines that never look at the state -/

/-- Lines that never look at the state and leave it as it is: the same value from every state, and `P` holds of it, or
the same fault from every state, and it poisons nothing. -/
def Computes (c : Cmd α) (P : α → Prop) : Prop :=
  (∃ a, P a ∧ ∀ s, c s = .ok a s) ∨ ∃ f : Raise, f.Plain ∧ ∀ s, c s = .error (.raised f) s

theorem Computes.sat {c : Cmd α} {P : α → Prop} {s : State} {stops : Prop} {Q : α → State → Prop}
    {E : Raise → State → Prop} (hc : Computes c P) (h : ∀ a, P a → Q a s) (hf : ∀ f : Raise, f.Plain → E f s) :
    Sat c s stops Q E := by
  unfold Sat
  rcases hc with ⟨a, ha, hok⟩ | ⟨f, hp, herr⟩
  · rw [hok s]; exact h a ha
  · rw [herr s]; exact hf f hp

theorem Computes.pure {P : α → Prop} {a : α} (h : P a) : Computes (Pure.pure a : Cmd α) P := .inl ⟨a, h, fun _ => rfl⟩

theorem Computes.bind {c : Cmd α} {k : α → Cmd β} {P : α → Prop} {Q : β → Prop} (hc : Computes c P)
    (hk : ∀ a, P a → Computes (k a) Q) : Computes (c >>= k) Q := by
  rcases hc with ⟨a, ha, hok⟩ | ⟨f, hf, herr⟩
  · rcases hk a ha with ⟨b, hb, hok'⟩ | ⟨f, hf, herr⟩
    · exact .inl ⟨b, hb, fun s => by rw [bind_of_ok (hok s), hok']⟩
    · exact .inr ⟨f, hf, fun s => by rw [bind_of_ok (hok s), herr]⟩
  · exact .inr ⟨f, hf, fun s => by rw [bind_of_error (herr s)]⟩

theorem Computes.raiseIf {p : Prop} [Decidable p] {kind : FaultKind} {info : Nat}
    (h : Raise.Plain ⟨kind, BitVec.ofNat 8 info, none⟩) : Computes (raiseIf p kind info) fun _ => ¬p := by
  by_cases hp : p
  · exact .inr ⟨_, h, raiseIf_pos hp kind info⟩
  · exact .inl ⟨(), hp, raiseIf_neg hp kind info⟩

theorem Computes.finite {i : Nat} {w : Word} (hi : i < 0x83) : Computes (finite i w) IsFloat32 := by
  rcases h : f32dec w with _ | q
  · exact .inr ⟨_, ⟨by simp, by simp, fun _ => operand_ne_infoCount hi⟩, finite_none h⟩
  · exact .inl ⟨q, ⟨w, h⟩, finite_some h⟩

theorem Computes.axisDerive {iMax iPrec : Nat} {maxWord precWord : Word} (hm : iMax < 0x83) (hp : iPrec < 0x83) :
    Computes (axisDerive iMax maxWord iPrec precWord) Axis.Ok := by
  rcases axis_refused_or_accepted (BitVec.ofNat 8 iMax) (BitVec.ofNat 8 iPrec) maxWord precWord with
    ⟨info, hr⟩ | ⟨ax, ha⟩
  · refine .inr ⟨_, ⟨by simp, by simp, fun _ => ?_⟩, axisDerive_raised hr⟩
    rcases hr with ⟨-, rfl⟩ | ⟨_, -, -, -, rfl⟩
    · exact operand_ne_infoCount hm
    · exact operand_ne_infoCount hp
  · exact .inl ⟨ax, ha.ok, axisDerive_ok ha⟩

theorem Computes.posAxisDerive {a : Nat} (ha : a < 3) {mn mx pr : ℚ} (hp : 0 < pr) (hmn : IsFloat32 mn)
    (hmx : IsFloat32 mx) : Computes (posAxisDerive a mn mx pr) fun ax => ax.Ok pr := by
  rcases posAxis_refused_or_accepted (BitVec.ofNat 8 a) mn mx pr with ⟨info, hr⟩ | ⟨ax, rfl, rfl, hacc⟩
  · refine .inr ⟨_, ⟨by simp, by simp, fun _ => ?_⟩, posAxisDerive_raised ha hp hr⟩
    rcases hr with ⟨-, rfl⟩ | ⟨-, -, rfl⟩
    · interval_cases a <;> decide
    · decide
  · exact .inl ⟨ax, hacc.ok hp hmn hmx, posAxisDerive_ok hp hacc⟩

/-! ### Lines that move a stream -/

/-- How one of the two streams moves: what one primitive step does to the state, what becomes of the state when a step
fails, and the faults it fails with. -/
structure Motion where
  one   : State → State → Prop
  spoil : State → State
  fault : Raise → Prop

/-- The state after any number of primitive steps of the stream. -/
def Motion.Moved (m : Motion) : State → State → Prop := Relation.ReflTransGen m.one

/-- The writer's stream: bits are appended within the capacity, or the writer is poisoned (40_writer.md R121). -/
def appending : Motion where
  one s t := ∃ v n, s.w.wbit + n ≤ s.w.cap ∧ s.w.wbit + n ≤ s.w.mem.bitSize ∧ t = s.appended v n
  spoil := State.writerPoisoned
  fault := Raise.PoisonsWriter

/-- The reader's stream: bits are consumed within the limit, or the reader is poisoned (41_reader.md R142). -/
def consuming : Motion where
  one s t := ∃ n, s.r.rbit + n ≤ s.r.limit ∧ t = s.consumed n
  spoil := State.readerPoisoned
  fault := Raise.PoisonsReader

/-- The stream ends early in `t`: some primitive steps were done, the next one failed with `f`. -/
def Motion.Spoiled (m : Motion) (s : State) (f : Raise) (t : State) : Prop :=
  m.fault f ∧ ∃ u, m.Moved s u ∧ t = m.spoil u

/-- Lines that do nothing but move the stream. -/
def Motion.Moves (m : Motion) (c : Cmd α) : Prop := ∀ s, Sat c s True (fun _ t => m.Moved s t) (m.Spoiled s)

/-- Lines that move the stream after checks of their own, so that a fault of a check leaves the state as it was. -/
def Motion.Rule (m : Motion) (c : Cmd α) : Prop :=
  ∀ s, Sat c s True (fun _ t => m.Moved s t) (fun f t => (f.Plain ∧ t = s) ∨ m.Spoiled s f t)

variable {m : Motion}

theorem Motion.Moves.pure (a : α) : m.Moves (Pure.pure a : Cmd α) := fun _ => Sat.pure .refl

theorem Motion.Moves.bind {c : Cmd α} {k : α → Cmd β} (hc : m.Moves c) (hk : ∀ a, m.Moves (k a)) :
    m.Moves (c >>= k) := by
  refine fun s => Sat.bind ((hc s).mono (fun a t ht => ?_) fun _ _ h => h)
  refine (hk a t).mono (fun _ _ hu => ht.trans hu) fun f u hu => ?_
  obtain ⟨hf, v, hv, rfl⟩ := hu
  exact ⟨hf, v, ht.trans hv, rfl⟩

theorem Motion.Moves.ite {p : Prop} [Decidable p] {c d : Cmd α} (hc : m.Moves c) (hd : m.Moves d) :
    m.Moves (if p then c else d) := fun s => Sat.ite (fun _ => hc s) fun _ => hd s

theorem Motion.Rule.moves {c : Cmd α} (hc : m.Moves c) : m.Rule c :=
  fun s => (hc s).mono (fun _ _ h => h) fun _ _ h => .inr h

/-- A check before the lines that move the stream. -/
theorem Motion.Rule.check {c : Cmd α} {k : α → Cmd β} (hc : Quiet c) (hk : ∀ a, m.Rule (k a)) : m.Rule (c >>= k) :=
  fun s => Sat.bind ((hc s).mono (fun a _ ht => ht ▸ hk a s) fun _ _ h => .inl h)

theorem Motion.Rule.ite {p : Prop} [Decidable p] {c d : Cmd α} (hc : m.Rule c) (hd : m.Rule d) :
    m.Rule (if p then c else d) := fun s => Sat.ite (fun _ => hc s) fun _ => hd s

theorem moves_reserve {t : Nat} : appending.Moves (reserve t) :=
  fun s => Sat.reserve (fun _ => .refl) fun _ => ⟨.inl rfl, s, .refl, rfl⟩

theorem moves_writeBits {v n : Nat} : appending.Moves (writeBits v n) := by
  refine fun s => Sat.writeBits (fun _ hcap hmem => ?_) (fun _ => ⟨.inr ⟨rfl, rfl⟩, s, .refl, rfl⟩)
    (fun _ _ => ⟨.inl rfl, s, .refl, rfl⟩) fun _ _ => trivial
  by_cases hn : n = 0
  · subst hn
    exact .refl
  · exact .single ⟨v, n, hcap hn, hmem hn, rfl⟩

theorem moves_axisEmit {ax : Axis} {v : Rat} : appending.Moves (axisEmit ax v) :=
  .bind moves_writeBits fun _ => moves_writeBits

theorem moves_posEmit {ax : PosAxis} {v : Rat} : appending.Moves (posEmit ax v) := moves_writeBits

theorem moves_uEmit {d : Nat × Nat × Nat} {v : Nat} : appending.Moves (uEmit d v) := by
  have two : ∀ a b x n, appending.Moves (do writeBits a 1; writeBits b 1; writeBits x n) := fun _ _ _ _ =>
    .bind moves_writeBits fun _ => .bind moves_writeBits fun _ => moves_writeBits
  exact .ite (.bind moves_writeBits fun _ => moves_writeBits) (.ite (two _ _ _ _) (two _ _ _ _))

theorem moves_require {t : Nat} : consuming.Moves (require t) :=
  fun s => Sat.require (fun _ => .refl) fun _ => ⟨.inl rfl, s, .refl, rfl⟩

theorem moves_readBits {n : Nat} : consuming.Moves (readBits n) :=
  fun s => Sat.readBits (fun _ _ hlim _ => .single ⟨n, hlim, rfl⟩) (fun _ => ⟨.inr ⟨rfl, rfl⟩, s, .refl, rfl⟩)
    (fun _ _ _ => ⟨.inl rfl, s, .refl, rfl⟩) fun _ _ => trivial

theorem moves_axisTake {ax : Axis} : consuming.Moves (axisTake ax) :=
  .bind moves_readBits fun _ => .bind moves_readBits fun _ => .pure _

theorem moves_posTake {ax : PosAxis} : consuming.Moves (posTake ax) := .bind moves_readBits fun _ => .pure _

theorem moves_uTake {d : Nat × Nat × Nat} : consuming.Moves (uTake d) :=
  .bind moves_readBits fun _ => .ite moves_readBits
    (.bind moves_readBits fun _ => .ite moves_readBits moves_readBits)

end

end Sys2Proof.Machine

namespace Sys2Proof

/-- The commands that answer and change nothing (48_diagnostics.md R270 to R272, 46_bitcount.md R241, 42_scale.md R165,
R166, 40_writer.md R125, R126, 41_reader.md R145). -/
def Instr.onlyAnswers : Instr → Bool
  | .stat | .slotbits _ | .umax _ | .wbytelen | .wbyte _ | .rbytepos | .bitcnt _ _ | .scaletou _ _ _ _ _
  | .scalefromu _ _ _ _ _ => true
  | _ => false

end Sys2Proof

namespace Sys2Proof.Machine

/-! ### The classes of commands, as lines -/

theorem exec_of_onlyAnswers {i : Instr} (hi : i.onlyAnswers = true) :
    ∃ c, (∀ s, exec i s = run c s) ∧ Quiet c := by
  cases i <;> cases hi
  case stat => exact ⟨_, fun _ => rfl, .bind .getState fun _ => .pure _⟩
  case slotbits => exact ⟨_, fun _ => rfl, .bind .requireSlot fun _ => .pure _⟩
  case umax => exact ⟨_, fun _ => rfl, .bind .requireSlot fun _ => .pure _⟩
  case wbytelen => exact ⟨_, fun _ => rfl, .bind .requireWriter fun _ => .bind .getState fun _ => .pure _⟩
  case wbyte =>
    exact ⟨_, fun _ => rfl, .bind .requireWriter fun _ => .bind .getState fun _ => .bind (.raiseIf (by decide)) fun _ =>
      .bind .memReadW fun _ => .pure _⟩
  case rbytepos => exact ⟨_, fun _ => rfl, .bind .requireReader fun _ => .bind .getState fun _ => .pure _⟩
  case bitcnt => exact ⟨_, fun _ => rfl, .bind (.raiseIf (by decide)) fun _ => .pure _⟩
  case scaletou =>
    exact ⟨_, fun _ => rfl, .bind (.finite (by decide)) fun _ => .bind (.finite (by decide)) fun _ =>
      .bind (.finite (by decide)) fun _ => .bind (.raiseIf (by decide)) fun _ => .bind (.raiseIf (by decide)) fun _ =>
      .bind (.raiseIf (by decide)) fun _ => .pure _⟩
  case scalefromu =>
    exact ⟨_, fun _ => rfl, .bind (.raiseIf (by decide)) fun _ => .bind (.finite (by decide)) fun _ =>
      .bind (.finite (by decide)) fun _ => .bind (.raiseIf (by decide)) fun _ => .bind (.raiseIf (by decide)) fun _ =>
      .pure _⟩

theorem exec_of_appendsBits {i : Instr} (hi : i.appendsBits = true) :
    ∃ c : Cmd (List Word), (∀ s, exec i s = run (do requireWriter; c) s) ∧ appending.Rule c := by
  cases i <;> cases hi
  case write => exact ⟨_, fun _ => rfl, .moves (.bind moves_writeBits fun _ => .pure _)⟩
  case fpack =>
    exact ⟨_, fun _ => rfl, .check .requireSlot fun _ => .check (.axisCheck (by decide)) fun _ =>
      .moves (.bind moves_reserve fun _ => .bind moves_axisEmit fun _ => .pure _)⟩
  case v2pack =>
    exact ⟨_, fun _ => rfl, .check .requireSlot fun _ => .check (.axisCheck (by decide)) fun _ =>
      .check (.axisCheck (by decide)) fun _ =>
      .moves (.bind moves_reserve fun _ => .bind moves_axisEmit fun _ => .bind moves_axisEmit fun _ =>
        .pure _)⟩
  case v3pack =>
    exact ⟨_, fun _ => rfl, .check .requireSlot fun _ => .check (.axisCheck (by decide)) fun _ =>
      .check (.axisCheck (by decide)) fun _ => .check (.axisCheck (by decide)) fun _ =>
      .moves (.bind moves_reserve fun _ => .bind moves_axisEmit fun _ => .bind moves_axisEmit fun _ =>
        .bind moves_axisEmit fun _ => .pure _)⟩
  case ppack =>
    exact ⟨_, fun _ => rfl, .check .requireSlot fun _ => .check (.finite (by decide)) fun _ =>
      .check (.finite (by decide)) fun _ => .check (.finite (by decide)) fun _ =>
      .moves (.bind moves_reserve fun _ => .bind moves_posEmit fun _ => .bind moves_posEmit fun _ =>
        .bind moves_posEmit fun _ => .pure _)⟩
  case upack =>
    exact ⟨_, fun _ => rfl, .check .requireSlot fun _ => .check (.raiseIf (by decide)) fun _ =>
      .moves (.bind moves_reserve fun _ => .bind moves_uEmit fun _ => .pure _)⟩
  case upackn =>
    exact ⟨_, fun _ => rfl, .check .requireSlot fun _ =>
      .ite (.moves (.bind moves_reserve fun _ => .bind moves_writeBits fun _ => .pure _))
        (.check (.raiseIf (by decide)) fun _ => .moves (.bind moves_reserve fun _ =>
          .bind moves_writeBits fun _ => .bind moves_uEmit fun _ => .pure _))⟩

theorem exec_of_consumesBits {i : Instr} (hi : i.consumesBits = true) :
    ∃ c : Cmd (List Word), (∀ s, exec i s = run (do requireReader; c) s) ∧ consuming.Rule c := by
  cases i <;> cases hi
  case read => exact ⟨_, fun _ => rfl, .moves (.bind moves_readBits fun _ => .pure _)⟩
  case funpack =>
    exact ⟨_, fun _ => rfl, .check .requireSlot fun _ => .moves (.bind moves_require fun _ =>
      .bind moves_axisTake fun _ => .pure _)⟩
  case v2unpack =>
    exact ⟨_, fun _ => rfl, .check .requireSlot fun _ => .moves (.bind moves_require fun _ =>
      .bind moves_axisTake fun _ => .bind moves_axisTake fun _ => .pure _)⟩
  case v3unpack =>
    exact ⟨_, fun _ => rfl, .check .requireSlot fun _ => .moves (.bind moves_require fun _ =>
      .bind moves_axisTake fun _ => .bind moves_axisTake fun _ => .bind moves_axisTake fun _ => .pure _)⟩
  case punpack =>
    exact ⟨_, fun _ => rfl, .check .requireSlot fun _ => .moves (.bind moves_require fun _ =>
      .bind moves_posTake fun _ => .bind moves_posTake fun _ => .bind moves_posTake fun _ => .pure _)⟩
  case uunpack =>
    exact ⟨_, fun _ => rfl, .check .requireSlot fun _ => .moves (.bind moves_uTake fun _ => .pure _)⟩
  case uunpackn =>
    exact ⟨_, fun _ => rfl, .check .requireSlot fun _ => .moves (.bind moves_readBits fun _ =>
      .ite (.pure _) (.bind moves_uTake fun _ => .pure _))⟩

/-- What a configuration command puts into a slot: a derived packer, never `EMPTY` (10_state.md R41 to R45). -/
abbrev Descriptor.Configured (d : Descriptor) : Prop := d.Ok ∧ d ≠ .empty

/-- A configuration command checks its slot, computes the whole content of the slot from its operands alone, and replaces
the slot (10_state.md R46). -/
theorem exec_of_configuredSlot {i : Instr} {k : Nat} (hi : i.configuredSlot = some k) :
    ∃ c : Cmd Descriptor, (∀ s, exec i s = run (do requireSlotIndex k; let d ← c; setSlot k d; pure []) s) ∧
      Computes c Descriptor.Configured := by
  cases i <;> cases hi
  case fcfg maxWord precWord =>
    refine ⟨do let ax ← axisDerive 0 maxWord 1 precWord; pure (.float ax), fun s => by simp [exec, execFcfg], ?_⟩
    exact .bind (.axisDerive (by decide) (by decide)) fun _ hx => .pure ⟨hx, by simp⟩
  case v2cfg maxX maxY precX precY =>
    refine ⟨do
      let x ← axisDerive 0 maxX 2 precX
      let y ← axisDerive 1 maxY 3 precY
      pure (.vec2 x y), fun s => by simp [exec, execV2cfg], ?_⟩
    exact .bind (.axisDerive (by decide) (by decide)) fun _ hx =>
      .bind (.axisDerive (by decide) (by decide)) fun _ hy => .pure ⟨⟨hx, hy⟩, by simp⟩
  case v3cfg maxX maxY maxZ precX precY precZ =>
    refine ⟨do
      let x ← axisDerive 0 maxX 3 precX
      let y ← axisDerive 1 maxY 4 precY
      let z ← axisDerive 2 maxZ 5 precZ
      pure (.vec3 x y z), fun s => by simp [exec, execV3cfg], ?_⟩
    exact .bind (.axisDerive (by decide) (by decide)) fun _ hx =>
      .bind (.axisDerive (by decide) (by decide)) fun _ hy =>
      .bind (.axisDerive (by decide) (by decide)) fun _ hz => .pure ⟨⟨hx, hy, hz⟩, by simp⟩
  case pcfg minX minY minZ maxX maxY maxZ precision =>
    refine ⟨do
      let x0 ← finite 0 minX
      let y0 ← finite 1 minY
      let z0 ← finite 2 minZ
      let x1 ← finite 3 maxX
      let y1 ← finite 4 maxY
      let z1 ← finite 5 maxZ
      let pr ← finite 6 precision
      raiseIf (pr ≤ 0) .invalidArgument 6
      let x ← posAxisDerive 0 x0 x1 pr
      let y ← posAxisDerive 1 y0 y1 pr
      let z ← posAxisDerive 2 z0 z1 pr
      pure (.pos x y z pr), fun s => by simp [exec, execPcfg], ?_⟩
    exact .bind (.finite (by decide)) fun _ hx0 => .bind (.finite (by decide)) fun _ hy0 =>
      .bind (.finite (by decide)) fun _ hz0 => .bind (.finite (by decide)) fun _ hx1 =>
      .bind (.finite (by decide)) fun _ hy1 => .bind (.finite (by decide)) fun _ hz1 =>
      .bind (.finite (by decide)) fun _ hpr => .bind (.raiseIf (by decide)) fun _ hpos =>
      .bind (.posAxisDerive (by decide) (not_le.mp hpos) hx0 hx1) fun _ hx =>
      .bind (.posAxisDerive (by decide) (not_le.mp hpos) hy0 hy1) fun _ hy =>
      .bind (.posAxisDerive (by decide) (not_le.mp hpos) hz0 hz1) fun _ hz =>
      .pure ⟨⟨not_le.mp hpos, hpr, hx, hy, hz⟩, by simp⟩
  case ucfg small medium large =>
    refine ⟨do
      raiseIf (u32 small < 1) .invalidArgument 0
      raiseIf (u32 medium ≤ u32 small) .invalidArgument 1
      raiseIf (u32 large ≤ u32 medium) .invalidArgument 2
      raiseIf (u32 large > 32) .invalidArgument 2
      pure (.uvar (u32 small) (u32 medium) (u32 large)), fun s => by simp [exec, execUcfg], ?_⟩
    exact .bind (.raiseIf (by decide)) fun _ h1 => .bind (.raiseIf (by decide)) fun _ h2 =>
      .bind (.raiseIf (by decide)) fun _ h3 => .bind (.raiseIf (by decide)) fun _ h4 =>
      .pure ⟨⟨not_lt.mp h1, not_le.mp h2, not_le.mp h3, not_lt.mp h4⟩, by simp⟩

/-! ### Everything a command can do -/

/-- Everything a command can do: `Effect i s t r` holds when `i`, run in `s`, can leave `t` and answer `r` (the answer
itself not yet in `t`). -/
inductive Effect : Instr → State → State → Response → Prop
  /-- Refused, with a fault that poisons nothing: no state changes (60_exceptions.md R295). -/
  | refused {i s f} (hf : Raise.Plain f) : Effect i s s f.response
  /-- A command that only answers. -/
  | answered {i s results} (hi : i.onlyAnswers = true) : Effect i s s (okResponse results)
  /-- Bits were appended to a live writer's stream (40_writer.md R121). -/
  | appended {i s t results} (hi : i.appendsBits = true) (hs : s.w.lifecycle = .live) (ht : appending.Moved s t) :
      Effect i s t (okResponse results)
  /-- An append failed part of the way and poisoned the writer (60_exceptions.md R288). -/
  | writerPoisoned {i s t f} (hi : i.appendsBits = true) (hs : s.w.lifecycle = .live) (ht : appending.Moved s t)
      (hf : Raise.PoisonsWriter f) : Effect i s t.writerPoisoned f.response
  /-- Bits of a live reader's stream were consumed (41_reader.md R142). -/
  | consumed {i s t results} (hi : i.consumesBits = true) (hs : s.r.lifecycle = .live) (ht : consuming.Moved s t) :
      Effect i s t (okResponse results)
  /-- A read failed part of the way and poisoned the reader (60_exceptions.md R288). -/
  | readerPoisoned {i s t f} (hi : i.consumesBits = true) (hs : s.r.lifecycle = .live) (ht : consuming.Moved s t)
      (hf : Raise.PoisonsReader f) : Effect i s t.readerPoisoned f.response
  /-- `WOPEN` (40_writer.md R122). -/
  | wopen {capBytes s} (hs : s.w.live = false) (hm : capBits (u32 capBytes) ≤ s.w.mem.bitSize) :
      Effect (.wopen capBytes) s
        { s with w := ⟨true, false, capBits (u32 capBytes), 0, s.w.mem.clear (capBits (u32 capBytes))⟩ } (okResponse [])
  /-- `WRESET` (40_writer.md R124). -/
  | wreset {s} (hs : s.w.live = true) :
      Effect .wreset s { s with w := ⟨s.w.live, false, s.w.cap, 0, s.w.mem.clear s.w.cap⟩ } (okResponse [])
  /-- `WCLOSE` (40_writer.md R127). -/
  | wclose {s} (hs : s.w.live = true) : Effect .wclose s { s with w := ⟨false, false, 0, 0, s.w.mem⟩ } (okResponse [])
  /-- `ROPEN` (41_reader.md R141). -/
  | ropen {s} (hs : s.r.live = false) :
      Effect .ropen s { s with r := ⟨true, false, 0, 0, s.r.mem.clear s.r.mem.bitSize⟩ } (okResponse [])
  /-- `RPUT` of a byte that fits (41_reader.md R143). -/
  | rput {byte s} (hs : s.r.lifecycle = .live) (hm : s.r.limit + 8 ≤ s.r.mem.bitSize) :
      Effect (.rput byte) s
        { s with r := { s.r with limit := s.r.limit + 8, mem := s.r.mem.write s.r.limit 8 (u32 byte % 2 ^ 8) } }
        (okResponse [])
  /-- `RPUT` with no room left (41_reader.md R143). -/
  | rputFull {byte s f} (hs : s.r.lifecycle = .live) (hf : f.kind = .overflow) :
      Effect (.rput byte) s s.readerPoisoned (Raise.response f)
  /-- `RCLOSE` (41_reader.md R146). -/
  | rclose {s} (hs : s.r.live = true) : Effect .rclose s { s with r := ⟨false, false, 0, 0, s.r.mem⟩ } (okResponse [])
  /-- A configuration command replaced its slot (10_state.md R46). -/
  | configured {i s k d} (hi : i.configuredSlot = some k) (hd : d.Configured) :
      Effect i s { s with slots := s.slots.set k d } (okResponse [])

/-- The lines of the command `i`, run from `s`, end in one of the effects of `i`. -/
abbrev Yields (i : Instr) (s : State) : Prop :=
  ∃ c, exec i s = run c s ∧
    Sat c s True (fun results t => Effect i s t (okResponse results)) fun f t => Effect i s t f.response

section
variable {i : Instr} {s : State}

theorem yields_of_onlyAnswers (hi : i.onlyAnswers = true) : Yields i s := by
  obtain ⟨c, hexec, hc⟩ := exec_of_onlyAnswers hi
  refine ⟨c, hexec s, (hc s).mono ?_ ?_⟩
  · rintro _ _ rfl
    exact .answered hi
  · rintro f _ ⟨hf, rfl⟩
    exact .refused hf

theorem yields_of_appendsBits (hi : i.appendsBits = true) : Yields i s := by
  obtain ⟨c, hexec, hc⟩ := exec_of_appendsBits hi
  refine ⟨_, hexec s, Sat.bind (Sat.requireWriter (fun _ => .refused (by decide)) (fun _ _ => .refused (by decide))
    fun hs => (hc s).mono (fun _ _ ht => .appended hi hs ht) ?_)⟩
  rintro f _ (⟨hf, rfl⟩ | ⟨hf, t, ht, rfl⟩)
  · exact .refused hf
  · exact .writerPoisoned hi hs ht hf

theorem yields_of_consumesBits (hi : i.consumesBits = true) : Yields i s := by
  obtain ⟨c, hexec, hc⟩ := exec_of_consumesBits hi
  refine ⟨_, hexec s, Sat.bind (Sat.requireReader (fun _ => .refused (by decide)) (fun _ _ => .refused (by decide))
    fun hs => (hc s).mono (fun _ _ ht => .consumed hi hs ht) ?_)⟩
  rintro f _ (⟨hf, rfl⟩ | ⟨hf, t, ht, rfl⟩)
  · exact .refused hf
  · exact .readerPoisoned hi hs ht hf

theorem yields_of_configuredSlot {k : Nat} (hi : i.configuredSlot = some k) : Yields i s := by
  obtain ⟨c, hexec, hc⟩ := exec_of_configuredSlot hi
  exact ⟨_, hexec s, Sat.bind (Sat.requireSlotIndex
    (fun _ => Sat.bind (hc.sat (fun d hd => Sat.bind (Sat.setSlot (Sat.pure (.configured hi hd)))) fun _ => .refused))
    fun _ => .refused (by decide))⟩

theorem yields_wopen (capBytes : Word) : Yields (.wopen capBytes) s := by
  refine ⟨_, rfl, Sat.bind (Sat.getState (Sat.bind (Sat.raiseIf (fun _ => .refused (by decide)) fun hs => ?_)))⟩
  refine Sat.bind (Sat.raiseIf (fun _ => .refused (by decide)) fun _ => ?_)
  exact Sat.bind (Sat.memClearW (fun hm => Sat.bind (Sat.modifyWriter (Sat.pure (.wopen (by simpa using hs) hm))))
    fun _ => trivial)

theorem yields_wreset : Yields .wreset s := by
  refine ⟨_, rfl, Sat.bind (Sat.getState (Sat.bind (Sat.raiseIf (fun _ => .refused (by decide)) fun hs => ?_)))⟩
  exact Sat.bind (Sat.memClearW (fun _ => Sat.bind (Sat.modifyWriter (Sat.pure (.wreset (by simpa using hs)))))
    fun _ => trivial)

theorem yields_wclose : Yields .wclose s := by
  refine ⟨_, rfl, Sat.bind (Sat.getState (Sat.bind (Sat.raiseIf (fun _ => .refused (by decide)) fun hs => ?_)))⟩
  exact Sat.bind (Sat.modifyWriter (Sat.pure (.wclose (by simpa using hs))))

theorem yields_ropen : Yields .ropen s := by
  refine ⟨_, rfl, Sat.bind (Sat.getState (Sat.bind (Sat.raiseIf (fun _ => .refused (by decide)) fun hs => ?_)))⟩
  exact Sat.bind (Sat.memClearR (fun _ => Sat.bind (Sat.modifyReader (Sat.pure (.ropen (by simpa using hs)))))
    fun _ => trivial)

theorem yields_rput (byte : Word) : Yields (.rput byte) s := by
  refine ⟨_, rfl, Sat.bind (Sat.requireReader (fun _ => .refused (by decide)) (fun _ _ => .refused (by decide))
    fun hs => Sat.bind (Sat.getState (Sat.ite (fun _ => ?_) fun _ => ?_)))⟩
  · exact Sat.bind (.rputFull hs rfl)
  · exact Sat.bind (Sat.memWriteR (fun hm => Sat.bind (Sat.modifyReader (Sat.pure (.rput hs hm)))) fun _ => trivial)

theorem yields_rclose : Yields .rclose s := by
  refine ⟨_, rfl, Sat.bind (Sat.getState (Sat.bind (Sat.raiseIf (fun _ => .refused (by decide)) fun hs => ?_)))⟩
  exact Sat.bind (Sat.modifyReader (Sat.pure (.rclose (by simpa using hs))))

/-- Every command is of one of the four classes, or one of the six that open, reset, feed or close a context. -/
theorem exec_yields (i : Instr) (s : State) : Yields i s := by
  cases i with
  | wopen capBytes => exact yields_wopen capBytes
  | wreset => exact yields_wreset
  | wclose => exact yields_wclose
  | ropen => exact yields_ropen
  | rput byte => exact yields_rput byte
  | rclose => exact yields_rclose
  | stat | slotbits | umax | wbytelen | wbyte | rbytepos | bitcnt | scaletou | scalefromu =>
    exact yields_of_onlyAnswers rfl
  | write | fpack | v2pack | v3pack | ppack | upack | upackn => exact yields_of_appendsBits rfl
  | read | funpack | v2unpack | v3unpack | punpack | uunpack | uunpackn => exact yields_of_consumesBits rfl
  | fcfg | v2cfg | v3cfg | pcfg | ucfg => exact yields_of_configuredSlot rfl

/-- The inversion lemma of `exec`: a command that answers a next state had one of the effects of a command. -/
theorem exec_effect {t : State} (h : exec i s = .next t) : ∃ u r, Effect i s u r ∧ t = u.respond r := by
  obtain ⟨c, hexec, hc⟩ := exec_yields i s
  rcases hc.of_run (hexec ▸ h) with ⟨results, u, hu, ht⟩ | ⟨f, u, hu, ht⟩
  · exact ⟨u, _, hu, ht⟩
  · exact ⟨u, _, hu, ht⟩

end

end Sys2Proof.Machine
end

section
/-! SUPPORT. What every effect of a command keeps: the invariant, the parameters, the slots, and the lifecycle along its
transitions (10_state.md R23 to R46). -/

namespace Sys2Proof.Machine

/-! ### One step, by the event it takes -/

theorem step_of_port_nil {s : State} (h : s.port = []) : step s = .next s := by
  simp [step, nextEvent, h]

theorem step_of_reset {s : State} {rest : List PortEvent} (h : s.port = .reset :: rest) :
    step s = .next (applyReset { s with port := rest }) := by
  simp [step, nextEvent, h]

theorem step_of_decode_ok {s : State} {p : Packet} {rest : List PortEvent} {i : Instr} (h : s.port = .packet p :: rest)
    (hd : decode p = .ok i) : step s = exec i { s with port := rest } := by
  simp [step, nextEvent, h, hd]

theorem step_of_decode_error {s : State} {p : Packet} {rest : List PortEvent} {e : DecodeFault}
    (h : s.port = .packet p :: rest) (hd : decode p = .error e) :
    step s = .next ({ s with port := rest }.respond (decodeRaise e).response) := by
  simp [step, nextEvent, h, hd]

/-- What the host's two lists, the reset input and every effect of a command keep, every step keeps. -/
theorem step_keeps {P : State → Prop} (hport : ∀ s events, P s → P { s with port := events })
    (hrespond : ∀ s r, P s → P (s.respond r)) (hreset : ∀ s, P s → P (applyReset s))
    (heffect : ∀ i s t r, P s → Effect i s t r → P t) {s t : State} (hs : P s) (h : step s = .next t) : P t := by
  rcases hp : s.port with _ | ⟨_ | _, rest⟩
  case nil =>
    rw [step_of_port_nil hp] at h
    cases h
    exact hs
  case cons.packet p =>
    rcases hd : decode p with e | i
    · rw [step_of_decode_error hp hd] at h
      cases h
      exact hrespond _ _ (hport _ _ hs)
    · rw [step_of_decode_ok hp hd] at h
      obtain ⟨u, r, hu, rfl⟩ := exec_effect h
      exact hrespond _ _ (heffect _ _ _ _ (hport _ _ hs) hu)
  case cons.reset =>
    rw [step_of_reset hp] at h
    cases h
    exact hreset _ (hport _ _ hs)

/-! ### What moving a stream leaves unchanged -/

/-- Appending changes the writer's cursor and the bytes of its storage, and nothing else. -/
theorem appending_frame {s t : State} (h : appending.Moved s t) :
    ∃ wbit mem, mem.size = s.w.mem.size ∧ t = { s with w := { s.w with wbit := wbit, mem := mem } } := by
  induction h with
  | refl => exact ⟨_, _, rfl, rfl⟩
  | tail _ hone ih =>
    obtain ⟨_, _, hsize, rfl⟩ := ih
    obtain ⟨v, n, -, -, rfl⟩ := hone
    exact ⟨_, _, by simpa using hsize, rfl⟩

/-- Consuming changes the reader's cursor and nothing else. -/
theorem consuming_frame {s t : State} (h : consuming.Moved s t) :
    ∃ rbit, t = { s with r := { s.r with rbit := rbit } } := by
  induction h with
  | refl => exact ⟨_, rfl⟩
  | tail _ hone ih =>
    obtain ⟨_, rfl⟩ := ih
    obtain ⟨n, -, rfl⟩ := hone
    exact ⟨_, rfl⟩

/-! ### The parameters -/

@[simp] theorem applyReset_params (s : State) : (applyReset s).params = s.params := by
  simp [State.params, State.nslot]

theorem Effect.params {i : Instr} {s t : State} {r : Response} (h : Effect i s t r) : t.params = s.params := by
  cases h with
  | refused | answered | wclose | rputFull | rclose => rfl
  | appended _ _ ht | writerPoisoned _ _ ht =>
    obtain ⟨_, _, hsize, rfl⟩ := appending_frame ht
    simp [State.params, hsize]
  | consumed _ _ ht | readerPoisoned _ _ ht =>
    obtain ⟨_, rfl⟩ := consuming_frame ht
    rfl
  | wopen | wreset | ropen | rput | configured => simp [State.params]

/-! ### The slots -/

/-- The slot table stays as it was, or a configuration command that answers OK replaced the one slot it names. -/
theorem Effect.slots {i : Instr} {s t : State} {r : Response} (h : Effect i s t r) :
    t.slots = s.slots ∨ ∃ k d, i.configuredSlot = some k ∧ d ≠ Descriptor.empty ∧ r.fault = none ∧
      t.slots = s.slots.set k d := by
  cases h with
  | refused | answered | wopen | wreset | wclose | ropen | rput | rputFull | rclose => exact .inl rfl
  | appended _ _ ht | writerPoisoned _ _ ht =>
    obtain ⟨_, _, -, rfl⟩ := appending_frame ht
    exact .inl rfl
  | consumed _ _ ht | readerPoisoned _ _ ht =>
    obtain ⟨_, rfl⟩ := consuming_frame ht
    exact .inl rfl
  | configured hi hd => exact .inr ⟨_, _, hi, hd.2, rfl, rfl⟩

/-! ### The responses -/

theorem Effect.responses {i : Instr} {s t : State} {r : Response} (h : Effect i s t r) : t.responses = s.responses := by
  cases h with
  | refused | answered | wopen | wreset | wclose | ropen | rput | rputFull | rclose | configured => rfl
  | appended _ _ ht | writerPoisoned _ _ ht =>
    obtain ⟨_, _, -, rfl⟩ := appending_frame ht
    rfl
  | consumed _ _ ht | readerPoisoned _ _ ht =>
    obtain ⟨_, rfl⟩ := consuming_frame ht
    rfl

/-- The effect of a command together with the answer it is known to have given. -/
theorem exec_effect_of_response {i : Instr} {s t : State} {r : Response} (h : exec i s = .next t)
    (hr : t.responses = s.responses ++ [r]) : ∃ u, Effect i s u r ∧ t = u.respond r := by
  obtain ⟨u, r', hu, rfl⟩ := exec_effect h
  rw [respond_responses, hu.responses, List.append_cancel_left_eq, List.singleton_inj] at hr
  exact ⟨u, hr ▸ hu, by rw [hr]⟩

end Sys2Proof.Machine

namespace Sys2Proof

/-- The commands that open, revive or close the writer by succeeding (10_state.md R30). -/
def Instr.controlsWriter : Instr → Bool
  | .wopen _ | .wreset | .wclose => true
  | _ => false

/-- The commands that open or close the reader by succeeding (10_state.md R30). -/
def Instr.controlsReader : Instr → Bool
  | .ropen | .rclose => true
  | _ => false

theorem Instr.onlyAnswers_others {i : Instr} (h : i.onlyAnswers = true) :
    i.controlsWriter = false ∧ i.controlsReader = false := by
  cases i <;> cases h <;> exact ⟨rfl, rfl⟩

theorem Instr.configuredSlot_others {i : Instr} {k : Nat} (h : i.configuredSlot = some k) :
    i.controlsWriter = false ∧ i.controlsReader = false := by
  cases i <;> cases h <;> exact ⟨rfl, rfl⟩

theorem Instr.appendsBits_others {i : Instr} (h : i.appendsBits = true) :
    i.controlsWriter = false ∧ i.controlsReader = false ∧ i.consumesBits = false ∧ i.isReaderCommand = false := by
  cases i <;> cases h <;> exact ⟨rfl, rfl, rfl, rfl⟩

theorem Instr.consumesBits_others {i : Instr} (h : i.consumesBits = true) :
    i.controlsWriter = false ∧ i.controlsReader = false ∧ i.appendsBits = false := by
  cases i <;> cases h <;> exact ⟨rfl, rfl, rfl⟩

end Sys2Proof

namespace Sys2Proof.Machine

/-! ### What a configuration command does, from any state -/

section
variable {i : Instr} {k : Nat} {s t : State}

/-- Whether a configuration command with an existing slot completes, and what it puts there, rests on its operands alone
(10_state.md R46). -/
theorem exec_configures (hi : i.configuredSlot = some k) :
    (∃ d, ∀ s : State, k < s.slots.length → Completes i s { s with slots := s.slots.set k d } []) ∨
      ∃ f, ∀ s : State, k < s.slots.length → exec i s = .next (s.respond (Raise.response f)) := by
  obtain ⟨c, hexec, ⟨d, -, hok⟩ | ⟨f, -, herr⟩⟩ := exec_of_configuredSlot hi
  · refine .inl ⟨d, fun s hk => (hexec s).trans (run_of_ok ?_)⟩
    rw [bind_of_ok (requireSlotIndex_ok hk), bind_of_ok (hok s)]
    rfl
  · refine .inr ⟨f, fun s hk => (hexec s).trans (run_of_raised ?_)⟩
    rw [bind_of_ok (requireSlotIndex_ok hk), bind_of_error (herr s)]

/-- A configuration command is refused where its slot does not exist (10_state.md R49). -/
theorem exec_configures_noSlot (hi : i.configuredSlot = some k) (hk : s.slots.length ≤ k) :
    Rejects i s .invalidArgument 0x84 := by
  obtain ⟨c, hexec, -⟩ := exec_of_configuredSlot hi
  exact (hexec s).trans (run_of_raised (bind_of_error (requireSlotIndex_none hk)))

/-- A configuration command that completes leaves the same state whatever its slot held. -/
theorem exec_configures_anyContent {r : Response} (hi : i.configuredSlot = some k) (h : exec i s = .next t)
    (hr : t.responses = s.responses ++ [r]) (hok : r.fault = none) (d : Descriptor) :
    exec i { s with slots := s.slots.set k d } = .next t := by
  have faulty : ∀ f : Raise, exec i s ≠ .next (s.respond f.response) := fun f hf => by
    rw [hf] at h
    cases h
    rw [respond_responses, List.append_cancel_left_eq, List.singleton_inj] at hr
    rw [← hr] at hok
    cases hok
  rcases lt_or_ge k s.slots.length with hk | hk
  · rcases exec_configures hi with ⟨e, hc⟩ | ⟨f, hf⟩
    · have hset := hc { s with slots := s.slots.set k d } (by simpa using hk)
      rw [List.set_set] at hset
      rw [hset, ← h, hc s hk]
    · exact absurd (hf s hk) (faulty f)
  · exact absurd (exec_configures_noSlot hi hk) (faulty ⟨.invalidArgument, 0x84, none⟩)

end

/-! ### The lifecycle -/

section
variable {i : Instr} {l : Lifecycle}

theorem writerNext_ok (h : i.controlsWriter = false) (results : List Word) :
    writerNext i (okResponse results) l = l := by
  cases i <;> cases h <;> cases l <;> rfl

theorem readerNext_ok (h : i.controlsReader = false) (results : List Word) :
    readerNext i (okResponse results) l = l := by
  cases i <;> cases h <;> cases l <;> rfl

theorem writerNext_live_fault (f : Raise) : writerNext i f.response .live =
    if i.appendsBits = true ∧ f.PoisonsWriter then .poisoned else .live := rfl

theorem readerNext_live_fault (f : Raise) : readerNext i f.response .live =
    if (i.consumesBits = true ∧ f.PoisonsReader) ∨ (i.isReaderCommand = true ∧ f.kind = .overflow)
    then .poisoned else .live := rfl

theorem writerNext_poisons {f : Raise} (hi : i.appendsBits = true) (hf : f.PoisonsWriter) :
    writerNext i f.response .live = .poisoned := if_pos ⟨hi, hf⟩

theorem readerNext_poisons {f : Raise} (hi : i.consumesBits = true) (hf : f.PoisonsReader) :
    readerNext i f.response .live = .poisoned := if_pos (.inl ⟨hi, hf⟩)

/-- Only an append can poison the writer, and only with a fault that does. -/
theorem writerNext_keeps {f : Raise} (h : ¬(i.appendsBits = true ∧ f.PoisonsWriter)) :
    writerNext i f.response l = l := by
  cases l with
  | closed | poisoned => rfl
  | live => rw [writerNext_live_fault, if_neg h]

theorem readerNext_keeps {f : Raise}
    (h : ¬((i.consumesBits = true ∧ f.PoisonsReader) ∨ (i.isReaderCommand = true ∧ f.kind = .overflow))) :
    readerNext i f.response l = l := by
  cases l with
  | closed | poisoned => rfl
  | live => rw [readerNext_live_fault, if_neg h]

theorem writerNext_plain {f : Raise} (h : f.Plain) : writerNext i f.response l = l := by
  obtain ⟨hover, -, hcount⟩ := h
  exact writerNext_keeps fun ⟨_, hf⟩ => hf.elim hover fun ⟨hk, hinfo⟩ => hcount hk hinfo

theorem readerNext_plain {f : Raise} (h : f.Plain) : readerNext i f.response l = l := by
  obtain ⟨hover, hunder, hcount⟩ := h
  refine readerNext_keeps ?_
  rintro (⟨-, hk | ⟨hk, hinfo⟩⟩ | ⟨-, hk⟩)
  · exact hunder hk
  · exact hcount hk hinfo
  · exact hover hk

end

theorem Writer.poisoned_lifecycle {w : Writer} {n : Nat} (h : w.lifecycle = .live) :
    (w.poisoned n).lifecycle = .poisoned := Writer.lifecycle_poisoned.mpr ⟨(Writer.lifecycle_live.mp h).1, rfl⟩

theorem Reader.poisoned_lifecycle {r : Reader} {n : Nat} (h : r.lifecycle = .live) :
    (r.poisoned n).lifecycle = .poisoned := Reader.lifecycle_poisoned.mpr ⟨(Reader.lifecycle_live.mp h).1, rfl⟩

theorem Writer.lifecycle_of_live {w : Writer} (h : w.live = true) : w.lifecycle = .live ∨ w.lifecycle = .poisoned := by
  rw [Writer.lifecycle_live, Writer.lifecycle_poisoned, h]
  cases w.poison <;> simp

theorem Reader.lifecycle_of_live {r : Reader} (h : r.live = true) : r.lifecycle = .live ∨ r.lifecycle = .poisoned := by
  rw [Reader.lifecycle_live, Reader.lifecycle_poisoned, h]
  cases r.poison <;> simp

/-- Both contexts follow the transitions of 10_state.md R30 in every effect. -/
theorem Effect.lifecycle {i : Instr} {s t : State} {r : Response} (h : Effect i s t r) :
    t.w.lifecycle = writerNext i r s.w.lifecycle ∧ t.r.lifecycle = readerNext i r s.r.lifecycle := by
  cases h with
  | refused hf => exact ⟨(writerNext_plain hf).symm, (readerNext_plain hf).symm⟩
  | answered hi =>
    obtain ⟨hw, hr⟩ := i.onlyAnswers_others hi
    exact ⟨(writerNext_ok hw _).symm, (readerNext_ok hr _).symm⟩
  | configured hi =>
    obtain ⟨hw, hr⟩ := i.configuredSlot_others hi
    exact ⟨(writerNext_ok hw _).symm, (readerNext_ok hr _).symm⟩
  | appended hi _ ht =>
    obtain ⟨hw, hr, -, -⟩ := i.appendsBits_others hi
    obtain ⟨_, _, -, rfl⟩ := appending_frame ht
    exact ⟨(writerNext_ok hw _).symm, (readerNext_ok hr _).symm⟩
  | writerPoisoned hi hs ht hf =>
    obtain ⟨-, -, hcons, hread⟩ := i.appendsBits_others hi
    obtain ⟨_, _, -, rfl⟩ := appending_frame ht
    rw [hs, writerNext_poisons hi hf, readerNext_keeps (by simp [hcons, hread])]
    exact ⟨Writer.poisoned_lifecycle hs, rfl⟩
  | consumed hi _ ht =>
    obtain ⟨hw, hr, -⟩ := i.consumesBits_others hi
    obtain ⟨_, rfl⟩ := consuming_frame ht
    exact ⟨(writerNext_ok hw _).symm, (readerNext_ok hr _).symm⟩
  | readerPoisoned hi hs ht hf =>
    obtain ⟨-, -, happ⟩ := i.consumesBits_others hi
    obtain ⟨_, rfl⟩ := consuming_frame ht
    rw [hs, readerNext_poisons hi hf, writerNext_keeps (by simp [happ])]
    exact ⟨rfl, Reader.poisoned_lifecycle hs⟩
  | wopen hs =>
    rw [Writer.lifecycle_closed.mpr hs]
    exact ⟨rfl, (readerNext_ok rfl _).symm⟩
  | wreset hs =>
    refine ⟨?_, (readerNext_ok rfl _).symm⟩
    rcases Writer.lifecycle_of_live hs with h | h <;> rw [h] <;> exact Writer.lifecycle_live.mpr ⟨hs, rfl⟩
  | wclose hs =>
    refine ⟨?_, (readerNext_ok rfl _).symm⟩
    rcases Writer.lifecycle_of_live hs with h | h <;> rw [h] <;> rfl
  | ropen hs =>
    rw [Reader.lifecycle_closed.mpr hs]
    exact ⟨(writerNext_ok rfl _).symm, rfl⟩
  | rput => exact ⟨(writerNext_ok rfl _).symm, (readerNext_ok rfl _).symm⟩
  | rputFull hs hf =>
    rw [hs, writerNext_keeps (fun h => Bool.noConfusion h.1)]
    exact ⟨rfl, (Reader.poisoned_lifecycle hs).trans (if_pos (.inr ⟨rfl, hf⟩)).symm⟩
  | rclose hs =>
    refine ⟨(writerNext_ok rfl _).symm, ?_⟩
    rcases Reader.lifecycle_of_live hs with h | h <;> rw [h] <;> rfl

/-! ### The invariant -/

section
variable {s : State} {n : Nat}

/-- The invariant speaks of the two contexts and the slots: a new writer in place of the old one keeps it. -/
theorem State.Inv.setWriter {w : Writer} (h : s.Inv) (hw : w.Ok) (hsize : w.mem.size = s.w.mem.size) :
    State.Inv { s with w := w, freeIdx := n } := by
  refine ⟨?_, hw, h.reader, h.slots⟩
  have hp : State.params { s with w := w, freeIdx := n } = s.params := by simp [State.params, hsize]
  exact hp ▸ h.params

theorem State.Inv.setReader {r : Reader} (h : s.Inv) (hr : r.Ok) (hsize : r.mem.size = s.r.mem.size) :
    State.Inv { s with r := r, freeIdx := n } := by
  refine ⟨?_, h.writer, hr, h.slots⟩
  have hp : State.params { s with r := r, freeIdx := n } = s.params := by simp [State.params, hsize]
  exact hp ▸ h.params

theorem State.Inv.setSlots {k : Nat} {d : Descriptor} (h : s.Inv) (hd : d.Ok) :
    State.Inv { s with slots := s.slots.set k d } := by
  refine ⟨?_, h.writer, h.reader, fun e he => ?_⟩
  · have hp : State.params { s with slots := s.slots.set k d } = s.params := by simp [State.params]
    exact hp ▸ h.params
  · rcases List.mem_or_eq_of_mem_set he with he | rfl
    · exact h.slots e he
    · exact hd

/-! #### The writer -/

theorem ZeroBits.nil (m : Memory) (lo : Nat) : ZeroBits m lo lo := fun _ h h' => absurd h' (by omega)

theorem Writer.closed_ok {m : Memory} (h : m.wf = true) : Writer.Ok ⟨false, false, 0, 0, m⟩ :=
  ⟨h, rfl, Nat.zero_le _, le_rfl, fun _ => ⟨rfl, rfl, rfl⟩, fun _ => .nil _ _⟩

/-- A live writer whose cells below its capacity have just been zeroed (10_state.md R29). -/
theorem Writer.cleared_ok {m : Memory} {cap : Nat} (h : m.wf = true) (hcap : cap % 64 = 0) (hm : cap ≤ m.bitSize) :
    Writer.Ok ⟨true, false, cap, 0, m.clear cap⟩ := by
  refine ⟨Memory.clear_wf h hm, hcap, by simpa using hm, Nat.zero_le _, by simp, fun _ a _ ha => ?_⟩
  rw [Memory.bit_clear (Memory.wf_rising h), if_pos ha]

theorem Writer.Ok.poisoned {w : Writer} (h : w.Ok) (hl : w.live = true) : (w.poisoned n).Ok where
  canonical := Memory.ofCells_wf _ _
  wholeCells := h.wholeCells
  capFits := h.capFits
  cursor := Nat.le_of_lt_succ (Nat.mod_lt _ (Nat.succ_pos _))
  closed hc := by simp [hl] at hc
  zeros hlive := by simp [Writer.lifecycle_live] at hlive

/-- An append within the capacity leaves the bits above the new cursor as they were (10_state.md R27, R29). -/
theorem Writer.Ok.appended {w : Writer} (h : w.Ok) {v n : Nat} (hcap : w.wbit + n ≤ w.cap) :
    Writer.Ok { w with mem := w.mem.write w.wbit n v, wbit := w.wbit + n } where
  canonical := Memory.write_wf h.canonical (le_trans hcap h.capFits) _
  wholeCells := h.wholeCells
  capFits := by simpa using h.capFits
  cursor := hcap
  closed hc := by
    obtain ⟨hp, h0, -⟩ := h.closed hc
    exact ⟨hp, h0, Nat.le_zero.mp (h0 ▸ hcap)⟩
  zeros hlive a (hlo : w.wbit + n ≤ a) (hhi : a < w.cap) := by
    rw [Memory.bit_write (Memory.wf_rising h.canonical), if_neg (by omega)]
    exact h.zeros hlive a (by omega) hhi

theorem appending_inv {t : State} (h : s.Inv) (ht : appending.Moved s t) : t.Inv := by
  induction ht with
  | refl => exact h
  | tail _ hone ih =>
    obtain ⟨v, n, hcap, -, rfl⟩ := hone
    exact ih.setWriter (ih.writer.appended hcap) (by simp)

/-! #### The reader -/

theorem Reader.closed_ok {m : Memory} (h : m.wf = true) : Reader.Ok ⟨false, false, 0, 0, m⟩ :=
  ⟨h, rfl, Nat.zero_le _, le_rfl, fun _ => ⟨rfl, rfl, rfl⟩, fun hl => Lifecycle.noConfusion hl⟩

theorem Reader.poisoned_ok {r : Reader} (hl : r.live = true) : (r.poisoned n).Ok where
  canonical := Memory.ofCells_wf _ _
  wholeBytes := Nat.mul_mod_right _ _
  limitFits := Nat.mul_le_mul_left _ (Nat.le_of_lt_succ (Nat.mod_lt _ (Nat.succ_pos _)))
  cursor := Nat.le_of_lt_succ (Nat.mod_lt _ (Nat.succ_pos _))
  closed hc := by simp [hl] at hc
  zeros hlive := by simp [Reader.lifecycle_live] at hlive

/-- A live reader whose whole storage has just been zeroed (10_state.md R36). -/
theorem Reader.cleared_ok {m : Memory} (h : m.wf = true) : Reader.Ok ⟨true, false, 0, 0, m.clear m.bitSize⟩ := by
  refine ⟨Memory.clear_wf h le_rfl, rfl, Nat.zero_le _, le_rfl, by simp, fun _ a _ ha => ?_⟩
  rw [Memory.clear_bitSize] at ha
  rw [Memory.bit_clear (Memory.wf_rising h), if_pos ha]

/-- One byte fed above the limit leaves the bits above the new limit as they were (10_state.md R35, R36). -/
theorem Reader.Ok.fed {r : Reader} (h : r.Ok) (hl : r.live = true) {v : Nat} (hm : r.limit + 8 ≤ r.mem.bitSize) :
    Reader.Ok { r with limit := r.limit + 8, mem := r.mem.write r.limit 8 v } where
  canonical := Memory.write_wf h.canonical hm _
  wholeBytes := by simpa using h.wholeBytes
  limitFits := by simpa using hm
  cursor := le_trans h.cursor (Nat.le_add_right _ _)
  closed hc := by simp [hl] at hc
  zeros hlive a (hlo : r.limit + 8 ≤ a) hhi := by
    rw [Memory.write_bitSize] at hhi
    rw [Memory.bit_write (Memory.wf_rising h.canonical), if_neg (by omega)]
    exact h.zeros hlive a (by omega) hhi

theorem Reader.Ok.consumed {r : Reader} (h : r.Ok) {n : Nat} (hlim : r.rbit + n ≤ r.limit) :
    Reader.Ok { r with rbit := r.rbit + n } where
  canonical := h.canonical
  wholeBytes := h.wholeBytes
  limitFits := h.limitFits
  cursor := hlim
  closed hc := by
    obtain ⟨hp, h0, -⟩ := h.closed hc
    exact ⟨hp, h0, Nat.le_zero.mp (h0 ▸ hlim)⟩
  zeros := h.zeros

theorem consuming_inv {t : State} (h : s.Inv) (ht : consuming.Moved s t) : t.Inv := by
  induction ht with
  | refl => exact h
  | tail _ hone ih =>
    obtain ⟨n, hlim, rfl⟩ := hone
    exact ih.setReader (ih.reader.consumed hlim) rfl

/-! #### The whole machine -/

theorem Effect.inv {i : Instr} {t : State} {r : Response} (hs : s.Inv) (h : Effect i s t r) : t.Inv := by
  cases h with
  | refused | answered => exact hs
  | appended _ _ ht => exact appending_inv hs ht
  | writerPoisoned _ hl ht =>
    have hi := appending_inv hs ht
    obtain ⟨_, _, -, rfl⟩ := appending_frame ht
    exact hi.setWriter (hi.writer.poisoned (Writer.lifecycle_live.mp hl).1) rfl
  | consumed _ _ ht => exact consuming_inv hs ht
  | readerPoisoned _ hl ht =>
    have hi := consuming_inv hs ht
    obtain ⟨_, rfl⟩ := consuming_frame ht
    exact hi.setReader (Reader.poisoned_ok (Reader.lifecycle_live.mp hl).1) rfl
  | wopen _ hm => exact hs.setWriter (Writer.cleared_ok hs.writer.canonical (Nat.mul_mod_right _ _) hm) (by simp)
  | wreset hl =>
    rw [hl]
    exact hs.setWriter (Writer.cleared_ok hs.writer.canonical hs.writer.wholeCells hs.writer.capFits) (by simp)
  | wclose => exact hs.setWriter (Writer.closed_ok hs.writer.canonical) rfl
  | ropen => exact hs.setReader (Reader.cleared_ok hs.reader.canonical) (by simp)
  | rput hl hm => exact hs.setReader (hs.reader.fed (Reader.lifecycle_live.mp hl).1 hm) (by simp)
  | rputFull hl => exact hs.setReader (Reader.poisoned_ok (Reader.lifecycle_live.mp hl).1) rfl
  | rclose => exact hs.setReader (Reader.closed_ok hs.reader.canonical) rfl
  | configured _ hd => exact hs.setSlots hd.1

theorem replicate_empty_ok (k : Nat) : ∀ d ∈ List.replicate k Descriptor.empty, d.Ok := fun d hd => by
  rw [List.eq_of_mem_replicate hd]
  trivial

theorem resetFor_inv {p : Config.Params} (hp : p.Legal) : (State.resetFor p).Inv where
  params := by simpa [State.params, State.resetFor] using hp
  writer := Writer.closed_ok (Memory.empty_wf _)
  reader := Reader.closed_ok (Memory.empty_wf _)
  slots := replicate_empty_ok _

theorem applyReset_inv (h : s.Inv) : (applyReset s).Inv where
  params := by simpa using h.params
  writer := Writer.closed_ok (Memory.ofCells_wf _ _)
  reader := Reader.closed_ok (Memory.ofCells_wf _ _)
  slots := replicate_empty_ok _

theorem State.Inv.respond (h : s.Inv) (r : Response) : (s.respond r).Inv := ⟨h.params, h.writer, h.reader, h.slots⟩

theorem State.Inv.setPort (h : s.Inv) (events : List PortEvent) : State.Inv { s with port := events } :=
  ⟨h.params, h.writer, h.reader, h.slots⟩

end

end Sys2Proof.Machine
end

section
/-! The statements about the state (10_state.md). -/

namespace Sys2Proof.Machine

/-- Settles O9: everything a step is made of keeps the invariant. -/
theorem everyStepKeepsInvariant : Obligations.EveryStepKeepsInvariant :=
  fun _ _ => step_keeps (P := State.Inv) (fun _ events h => h.setPort events) (fun _ r h => h.respond r)
    (fun _ => applyReset_inv) fun _ _ _ _ => Effect.inv

/-- Settles O16: by the effects of the command; none of them needs the invariant. -/
theorem lifecycleFollowsItsTransitions : Obligations.LifecycleFollowsItsTransitions := by
  intro i s t r _ h hr
  obtain ⟨u, hu, rfl⟩ := exec_effect_of_response h hr
  exact hu.lifecycle

/-- Settles O11: everything a step is made of keeps the sizes of the storages and the length of the slot table. -/
theorem noStepChangesTheParameters : Obligations.NoStepChangesTheParameters := fun s _ h =>
  step_keeps (P := fun u => u.params = s.params) (fun _ _ hu => hu) (fun _ _ hu => hu)
    (fun u hu => (applyReset_params u).trans hu) (fun _ _ _ _ hu he => he.params.trans hu) rfl h

/-- Settles O18: by the effects of the command on the slot table. -/
theorem slotsChangeOnlyByConfiguration : Obligations.SlotsChangeOnlyByConfiguration := by
  intro i s t r h hr
  obtain ⟨u, hu, rfl⟩ := exec_effect_of_response h hr
  rw [respond_slots]
  rcases hu.slots with he | ⟨k, d, hi, hd, hok, he⟩
  · rw [he]
    exact ⟨rfl, fun _ => rfl, fun k => ⟨fun _ => rfl, fun hi hok => exec_configures_anyContent hi h hr hok, id⟩⟩
  · rw [he]
    refine ⟨List.length_set, fun hf => absurd hok hf, fun j => ⟨fun hj => ?_, fun hj hok => ?_, fun hj => ?_⟩⟩
    · exact List.getElem?_set_ne fun hkj => hj (hi.trans (congrArg some hkj))
    · exact exec_configures_anyContent hj h hr hok
    · rw [List.getElem?_set] at hj
      split_ifs at hj
      · exact absurd (Option.some.inj hj) hd
      · exact hj

/-- Settles O6: one equation of `step` per event. -/
theorem stepRunsTheDecodedCommand : Obligations.StepRunsTheDecodedCommand := by
  refine fun s => ⟨step_of_port_nil, fun p rest i => step_of_decode_ok, fun nbits w i hi => ?_, fun rest h => ?_⟩
  · unfold decodeTableWord at hi
    split at hi
    · cases hi
      exact step_of_decode_ok rfl ‹_›
    · cases hi
  · exact ⟨_, step_of_reset h, rfl, rfl⟩

/-- Settles O7: the values of 10_state.md R50, after power-up and after the reset input. -/
theorem resetLeavesTheStatedValues : Obligations.ResetLeavesTheStatedValues := by
  refine ⟨fun p => ⟨⟨rfl, rfl, rfl, rfl⟩, ⟨rfl, rfl, rfl, rfl⟩, rfl, rfl⟩, rfl, fun s rest h => ?_⟩
  exact ⟨_, step_of_reset h, ⟨rfl, rfl, rfl, rfl⟩, ⟨rfl, rfl, rfl, rfl⟩, rfl, rfl⟩

/-- Settles O8. -/
theorem resetStateMeetsInvariant : Obligations.ResetStateMeetsInvariant :=
  ⟨fun _ => resetFor_inv, resetFor_inv (by decide)⟩

end Sys2Proof.Machine
end

section
/-! SUPPORT. Which command touches which context, and what every effect of a command leaves of a context it does not
touch; the bits of a byte, of a cell and of the two-cell forms (20_memory.md R60 to R67). -/

namespace Sys2Proof

/-! ### The context a command touches -/

theorem Instr.touchesWriter_of_appendsBits {i : Instr} (h : i.appendsBits = true) : i.touchesWriter = true := by
  cases i <;> cases h <;> rfl

theorem Instr.touchesReader_of_consumesBits {i : Instr} (h : i.consumesBits = true) : i.touchesReader = true := by
  cases i <;> cases h <;> rfl

/-- A command that touches the writer does not touch the reader (20_memory.md R60). -/
theorem Instr.touchesReader_of_touchesWriter {i : Instr} (h : i.touchesWriter = true) : i.touchesReader = false := by
  cases i <;> cases h <;> rfl

end Sys2Proof

namespace Sys2Proof.Machine

theorem Effect.writer_untouched {i : Instr} {s t : State} {r : Response} (h : Effect i s t r)
    (hi : i.touchesWriter = false) : t.w = s.w := by
  cases h with
  | refused | answered | ropen | rput | rputFull | rclose | configured => rfl
  | wopen | wreset | wclose => cases hi
  | appended ha | writerPoisoned ha =>
    exact absurd hi (by simp [Instr.touchesWriter_of_appendsBits ha])
  | consumed _ _ ht | readerPoisoned _ _ ht =>
    obtain ⟨_, rfl⟩ := consuming_frame ht
    rfl

theorem Effect.reader_untouched {i : Instr} {s t : State} {r : Response} (h : Effect i s t r)
    (hi : i.touchesReader = false) : t.r = s.r := by
  cases h with
  | refused | answered | wopen | wreset | wclose | configured => rfl
  | ropen | rput | rputFull | rclose => cases hi
  | consumed hc | readerPoisoned hc =>
    exact absurd hi (by simp [Instr.touchesReader_of_consumesBits hc])
  | appended _ _ ht | writerPoisoned _ _ ht =>
    obtain ⟨_, _, -, rfl⟩ := appending_frame ht
    rfl

/-! ### MemRead as a sum, bytes, and parts of a field -/

section
variable {m : Memory}

/-- `MemRead(X, a, n)` as 20_memory.md R64 writes it. -/
theorem Memory.read_eq_sum (m : Memory) (a n : Nat) :
    m.read a n = ∑ i ∈ Finset.range n, (m.bit (a + i)).toNat * 2 ^ i := by
  induction n with
  | zero => rfl
  | succ n ih =>
    have hone : m.read (a + n) 1 = (m.bit (a + n)).toNat := by simp [Memory.read]
    rw [Memory.read_add, Finset.sum_range_succ, ih, hone, Nat.mul_comm]

theorem Memory.read_byte (m : Memory) (i : Nat) : m.read (8 * i) 8 = (m.byte i).toNat := by
  refine Nat.eq_of_testBit_eq fun j => ?_
  rw [Memory.read_testBit, BitVec.testBit_toNat]
  by_cases hj : j < 8
  · simp [Memory.bit, hj, Nat.mul_add_div, Nat.mod_eq_of_lt hj, Nat.div_eq_of_lt hj]
  · simp [hj, BitVec.getLsbD_of_ge (m.byte i) j (Nat.not_lt.mp hj)]

/-- Part of a field just written reads as those bits of the value (20_memory.md R79). -/
theorem Memory.read_write_part (h : rising m.cells = true) (a v : Nat) {n j k : Nat} (hjk : j + k ≤ n) :
    (m.write a n v).read (a + j) k = v / 2 ^ j % 2 ^ k := by
  refine Nat.eq_of_testBit_eq fun i => ?_
  rw [Memory.read_testBit, Memory.bit_write h, Nat.testBit_mod_two_pow, Nat.testBit_div_two_pow]
  by_cases hi : i < k
  · rw [if_pos (by omega), show a + j + i - a = i + j by omega]
  · simp [hi]

/-! ### Cells -/

/-- Bit `i` of cell `c` is stream bit `64 c + i` (20_memory.md R63). -/
theorem Memory.cell_getLsbD (m : Memory) (c i : Nat) :
    (m.cell c).getLsbD i = (decide (i < 64) && m.bit (64 * c + i)) := by
  rw [Memory.cell, BitVec.getLsbD_ofNat, Memory.read_testBit]
  cases decide (i < 64) <;> rfl

theorem Memory.bit_eq_cell (m : Memory) (s : Nat) : m.bit s = (m.cell (s / 64)).getLsbD (s % 64) := by
  rw [Memory.cell_getLsbD, Nat.div_add_mod, decide_eq_true (Nat.mod_lt s (by decide)), Bool.true_and]

@[simp] theorem Memory.setCell_size (m : Memory) (c : Nat) (x : CellWord) : (m.setCell c x).size = m.size :=
  Memory.write_size ..

theorem Memory.setCell_wf (h : m.wf = true) {c : Nat} (hc : 64 * c + 64 ≤ m.bitSize) (x : CellWord) :
    (m.setCell c x).wf = true := Memory.write_wf h hc _

/-- A masked store into a cell, as 20_memory.md R66 makes it, adds bits to that cell and changes no other. -/
theorem Memory.bit_setCell_or (h : rising m.cells = true) (c : Nat) (x : CellWord) (t : Nat) :
    (m.setCell c (m.cell c ||| x)).bit t = (m.bit t || (decide (t / 64 = c) && x.getLsbD (t % 64))) := by
  rw [Memory.setCell, Memory.bit_write h]
  by_cases hc : t / 64 = c
  · subst hc
    rw [if_pos (by omega), show t - 64 * (t / 64) = t % 64 by omega, BitVec.testBit_toNat, BitVec.getLsbD_or,
      ← Memory.bit_eq_cell, decide_eq_true rfl, Bool.true_and]
  · rw [if_neg (by omega), decide_eq_false hc, Bool.false_and, Bool.or_false]

/-- Where the bits were 0, `MemWrite` is the OR of the shifted low bits (20_memory.md R65). -/
theorem Memory.bit_write_of_zeroBits (h : rising m.cells = true) {c n : Nat} (hz : ZeroBits m c (c + n)) (v t : Nat) :
    (m.write c n v).bit t = (m.bit t || (decide (c ≤ t) && (v % 2 ^ n).testBit (t - c))) := by
  rw [Memory.bit_write h, Nat.testBit_mod_two_pow]
  by_cases ht : c ≤ t ∧ t < c + n
  · rw [if_pos ht, hz t ht.1 ht.2, decide_eq_true ht.1, decide_eq_true (show t - c < n by omega)]
    simp
  · rw [if_neg ht]
    by_cases hc : c ≤ t
    · simp [show ¬t - c < n by omega]
    · simp [hc]

/-- A field inside one cell, shifted to its offset, has its bits where the stream has them (20_memory.md R66, R68). -/
theorem shifted_getLsbD {c n d : Nat} (hd : d < 2 ^ n) (ho : c % 64 + n ≤ 64) (t : Nat) :
    (decide (t / 64 = c / 64) && (BitVec.ofNat 64 d <<< (c % 64)).getLsbD (t % 64)) =
      (decide (c ≤ t) && d.testBit (t - c)) := by
  rw [BitVec.getLsbD_shiftLeft, BitVec.getLsbD_ofNat]
  by_cases hin : c ≤ t ∧ t < c + n
  · simp [show t / 64 = c / 64 by omega, show t % 64 - c % 64 = t - c by omega, show ¬t % 64 < c % 64 by omega,
      show t % 64 < 64 by omega, show t - c < 64 by omega, hin.1]
  · have high : ∀ j, n ≤ j → d.testBit j = false := fun j hj =>
      Nat.testBit_lt_two_pow (hd.trans_le (Nat.pow_le_pow_right (by decide) hj))
    by_cases hc : c ≤ t
    · rw [high (t - c) (by omega)]
      by_cases hw : t / 64 = c / 64
      · simp [high (t % 64 - c % 64) (by omega)]
      · simp [hw]
    · by_cases hw : t / 64 = c / 64
      · simp [hc, show t % 64 < c % 64 by omega]
      · simp [hc, hw]

/-- One store of 20_memory.md R66 is `MemWrite` of a field that lies inside one cell, where its bits were 0. -/
theorem Memory.setCell_or_eq_write (h : m.wf = true) (hsize : m.size % 8 = 0) {c n d : Nat} (hn : 1 ≤ n)
    (hd : d < 2 ^ n) (ho : c % 64 + n ≤ 64) (hc : c + n ≤ m.bitSize) (hz : ZeroBits m c (c + n)) :
    m.setCell (c / 64) (m.cell (c / 64) ||| (BitVec.ofNat 64 d <<< (c % 64))) = m.write c n d := by
  have hcell : 64 * (c / 64) + 64 ≤ m.bitSize := by unfold Memory.bitSize at *; omega
  refine Memory.ext_of_bit (Memory.setCell_wf h hcell _) (Memory.write_wf h hc _) (by simp) fun t => ?_
  rw [Memory.bit_setCell_or (Memory.wf_rising h), Memory.bit_write_of_zeroBits (Memory.wf_rising h) hz,
    shifted_getLsbD hd ho, Nat.mod_eq_of_lt hd]

/-! ### The two-cell forms -/

/-- A field that crosses a cell boundary is stored in two parts: its low bits end the one cell, the rest starts the next
(20_memory.md R66). -/
theorem Memory.cellWrite_split (h : m.wf = true) (hsize : m.size % 8 = 0) {c n : Nat} (v : Nat) (hn : n ≤ 32)
    (ho : 64 < c % 64 + n) (hc : c + n ≤ m.bitSize) (hz : ZeroBits m c (c + n)) :
    m.cellWrite c n v = m.write c n v := by
  obtain ⟨k, hk⟩ : ∃ k, k = 64 - c % 64 := ⟨_, rfl⟩
  have hnext : (c + k) / 64 = c / 64 + 1 ∧ (c + k) % 64 = 0 := by omega
  have hd : v % 2 ^ n < 2 ^ n := Nat.mod_lt _ (by positivity)
  have hhigh : v % 2 ^ n / 2 ^ k < 2 ^ (n - k) := by
    rw [Nat.div_lt_iff_lt_mul (by positivity), ← Nat.pow_add, Nat.sub_add_cancel (by omega)]
    exact hd
  have hshift : BitVec.ofNat 64 (v % 2 ^ n) >>> k = BitVec.ofNat 64 (v % 2 ^ n / 2 ^ k) := by
    refine BitVec.eq_of_toNat_eq ?_
    have h64 : v % 2 ^ n < 2 ^ 64 := hd.trans_le (Nat.pow_le_pow_right (by decide) (by omega))
    rw [BitVec.toNat_ushiftRight, BitVec.toNat_ofNat, BitVec.toNat_ofNat, Nat.mod_eq_of_lt h64,
      Nat.shiftRight_eq_div_pow, Nat.mod_eq_of_lt ((Nat.div_le_self ..).trans_lt h64)]
  have hlow : m.setCell (c / 64) (m.cell (c / 64) ||| (BitVec.ofNat 64 (v % 2 ^ n % 2 ^ k) <<< (c % 64))) =
      m.write c k (v % 2 ^ n % 2 ^ k) :=
    Memory.setCell_or_eq_write h hsize (by omega) (Nat.mod_lt _ (by positivity)) (by omega) (by omega)
      fun a ha ha' => hz a ha (by omega)
  have hrest := Memory.setCell_or_eq_write (m := m.write c k (v % 2 ^ n % 2 ^ k)) (c := c + k)
    (Memory.write_wf h (by omega) _) (by simpa using hsize) (show 1 ≤ n - k by omega) hhigh (by omega)
    (by rw [Memory.write_bitSize]; omega)
    fun a ha ha' => by
      rw [Memory.bit_write (Memory.wf_rising h), if_neg (by omega)]
      exact hz a (by omega) (by omega)
  rw [hnext.1, hnext.2, BitVec.shiftLeft_zero] at hrest
  rw [Memory.cellWrite, if_neg (by omega), ← hk]
  dsimp only
  rw [hlow, hshift, hrest, Memory.write_write h _ (Nat.mod_lt _ (by positivity)) (by omega), Nat.mod_add_div,
    Nat.add_sub_cancel' (by omega), Memory.write_mod h _ hc]

/-- Inside one cell a bit of the field is a bit of the shifted cell; across a boundary the bits from the second cell join
those that are left of the first (20_memory.md R67). -/
theorem Memory.cellRead_testBit (m : Memory) (c i : Nat) {n : Nat} (hn : n ≤ 32) :
    (m.cellRead c n).testBit i = (decide (i < n) && m.bit (c + i)) := by
  unfold Memory.cellRead
  dsimp only
  by_cases hi : i < n
  · split
    case isTrue ho =>
      rw [Nat.testBit_mod_two_pow, BitVec.testBit_toNat, BitVec.getLsbD_ushiftRight, Memory.cell_getLsbD,
        show 64 * (c / 64) + (c % 64 + i) = c + i by omega]
      simp [show c % 64 + i < 64 by omega]
    case isFalse ho =>
      rw [Nat.testBit_mod_two_pow, BitVec.testBit_toNat, BitVec.getLsbD_or, BitVec.getLsbD_ushiftRight,
        BitVec.getLsbD_shiftLeft, Memory.cell_getLsbD, Memory.cell_getLsbD]
      by_cases hk : i < 64 - c % 64
      · rw [show 64 * (c / 64) + (c % 64 + i) = c + i by omega]
        simp [hk, show c % 64 + i < 64 by omega]
      · rw [show 64 * (c / 64 + 1) + (i - (64 - c % 64)) = c + i by omega]
        simp [hk, show ¬c % 64 + i < 64 by omega, show i < 64 by omega, show i - (64 - c % 64) < 64 by omega]
  · split <;> simp [Nat.testBit_mod_two_pow, hi]

end

end Sys2Proof.Machine
end

section
/-! The statements about the storages (20_memory.md). -/

namespace Sys2Proof.Machine

/-- Settles O17: by the classes of commands and by the effects of the command on each context. -/
theorem contextsAreIndependent : Obligations.ContextsAreIndependent := by
  intro i s t h
  obtain ⟨u, r, hu, rfl⟩ := exec_effect h
  refine ⟨fun ⟨hw, hr⟩ => ?_, hu.writer_untouched, hu.reader_untouched⟩
  rw [Instr.touchesReader_of_touchesWriter hw] at hr
  cases hr

/-- Settles O20: one law of `Memory.read`, `Memory.write` and `Memory.cell` per part. -/
theorem storageAccessPrimitives : Obligations.StorageAccessPrimitives := by
  intro m hm
  have hrise := Memory.wf_rising hm
  refine ⟨fun s => ⟨rfl, m.bit_eq_cell s⟩, m.read_byte, m.read_eq_sum, fun a n v _ => ?_, fun a n₁ n₂ v _ => ⟨?_, ?_⟩⟩
  · exact ⟨m.write_size a n v, m.bit_write hrise a n v⟩
  · simpa using Memory.read_write_part hrise a v (show 0 + n₁ ≤ n₁ + n₂ by omega)
  · exact Memory.read_write_part hrise a v le_rfl

/-- Settles O21: one store inside a cell, or two side by side. -/
theorem twoCellWriteIsMemWrite : Obligations.TwoCellWriteIsMemWrite := by
  intro m c n v hm hsize h1 hn hc hz
  by_cases ho : c % 64 + n ≤ 64
  · rw [Memory.cellWrite, if_pos ho,
      Memory.setCell_or_eq_write hm hsize h1 (Nat.mod_lt _ (by positivity)) ho hc hz, Memory.write_mod hm _ hc]
  · exact Memory.cellWrite_split hm hsize v hn (by omega) hc hz

/-- Settles O22: bit by bit. -/
theorem twoCellReadIsMemRead : Obligations.TwoCellReadIsMemRead := by
  intro m c n _ _ _ hn _
  refine Nat.eq_of_testBit_eq fun i => ?_
  rw [Memory.cellRead_testBit m c i hn, Memory.read_testBit]

end Sys2Proof.Machine
end

section
/-! SUPPORT. The fields of a header word, the rows of the opcode map bit by bit, the packet of every command as its
fields, and the decoder by the check that decides its answer (30_encoding.md R91 to R101). -/

namespace Sys2Proof

/-! ### Header fields -/

/-- A field is 0 exactly when each of its bits is. -/
theorem bitField_eq_zero_iff (v : Word) (hi lo : Nat) :
    bitField v hi lo = 0 ↔ ∀ i, lo ≤ i → i ≤ hi → v.getLsbD i = false := by
  have bits : ∀ j, (bitField v hi lo).testBit j = (decide (j < hi + 1 - lo) && v.getLsbD (lo + j)) := fun j => by
    rw [bitField, Nat.testBit_mod_two_pow, Nat.testBit_div_two_pow, BitVec.testBit_toNat, Nat.add_comm lo j]
  constructor
  · intro h i hlo hhi
    have hbit := bits (i - lo)
    rw [h, Nat.zero_testBit, decide_eq_true (by omega), Bool.true_and, Nat.add_sub_cancel' hlo] at hbit
    exact hbit.symm
  · refine fun h => Nat.zero_of_testBit_eq_false fun j => ?_
    rw [bits]
    by_cases hj : j < hi + 1 - lo
    · rw [h (lo + j) (by omega) (by omega), Bool.and_false]
    · rw [decide_eq_false hj, Bool.false_and]

theorem hdrSlot_lt (h : Word) : hdrSlot h < 16 := Nat.mod_lt _ (by decide)

theorem hdrCnt_lt (h : Word) : hdrCnt h < 64 := Nat.mod_lt _ (by decide)

/-- A header whose `RSV` is 0 is made of its three other fields (30_encoding.md R91). -/
theorem headerWord_fields {h : Word} (hrsv : bitField h 31 18 = 0) :
    headerWord (hdrOpc h) (hdrSlot h) (hdrCnt h) = h := by
  refine BitVec.eq_of_toNat_eq ?_
  have hlt := h.isLt
  simp only [headerWord, hdrOpc, hdrSlot, hdrCnt, bitField, BitVec.toNat_ofNat] at *
  omega

section
variable {opc slot cnt : Nat} (ho : opc < 256) (hs : slot < 16) (hc : cnt < 64)
include ho hs hc

theorem headerWord_toNat : (headerWord opc slot cnt).toNat = opc + 2 ^ 8 * slot + 2 ^ 12 * cnt := by
  rw [headerWord, BitVec.toNat_ofNat, Nat.mod_eq_of_lt (by omega)]

theorem hdrOpc_headerWord : hdrOpc (headerWord opc slot cnt) = opc := by
  rw [hdrOpc, bitField, headerWord_toNat ho hs hc]
  omega

theorem hdrSlot_headerWord : hdrSlot (headerWord opc slot cnt) = slot := by
  rw [hdrSlot, bitField, headerWord_toNat ho hs hc]
  omega

theorem hdrCnt_headerWord : hdrCnt (headerWord opc slot cnt) = cnt := by
  rw [hdrCnt, bitField, headerWord_toNat ho hs hc]
  omega

end

/-! ### The opcode map -/

/-- No two rows of the map share an opcode. -/
theorem find_row_of_mem : ∀ row ∈ opcodeMap, opcodeMap.find? (fun r => r.opc == row.opc) = some row := by
  decide +kernel

theorem opcodeRow_of_mem {row : OpRow} {h : Word} (hrow : row ∈ opcodeMap) (hopc : row.opc = hdrOpc h) :
    opcodeRow h = some row := by
  rw [opcodeRow, ← hopc]
  exact find_row_of_mem row hrow

/-- The row found for a header is in the map, under the opcode of the header. -/
theorem mem_of_opcodeRow {row : OpRow} {h : Word} (hrow : opcodeRow h = some row) :
    row ∈ opcodeMap ∧ row.opc = hdrOpc h :=
  ⟨List.mem_of_find?_eq_some hrow, by simpa using List.find?_some hrow⟩

theorem opcodeRow_eq_none {h : Word} (hno : ∀ row ∈ opcodeMap, row.opc ≠ hdrOpc h) : opcodeRow h = none :=
  List.find?_eq_none.mpr fun row hrow => by simpa using hno row hrow

/-- The mask of a row keeps `OPC` and `RSV` whole, and each of `SLOT` and `CNT` that the command does not use. -/
theorem row_mask_bit : ∀ row ∈ opcodeMap, ∀ i < 32, row.mask.getLsbD i =
    (decide (i < 8) || (decide (8 ≤ i ∧ i ≤ 11) && !row.usesSlot) || (decide (12 ≤ i ∧ i ≤ 17) && !row.usesCnt) ||
      decide (18 ≤ i)) := by
  decide +kernel

/-- The pattern of a row is its opcode, every other bit 0. -/
theorem row_pattern_bit : ∀ row ∈ opcodeMap, ∀ i < 32,
    row.pattern.getLsbD i = (decide (i < 8) && row.opc.testBit i) := by
  decide +kernel

/-- Of a row under the header's own opcode, mask and pattern say that `RSV` and the unused fields are 0
(30_encoding.md R97, step 2). -/
theorem masked_eq_pattern_iff {row : OpRow} {h : Word} (hrow : row ∈ opcodeMap) (hopc : row.opc = bitField h 7 0) :
    h &&& row.mask = row.pattern ↔ bitField h 31 18 = 0 ∧ (row.usesSlot = false → bitField h 11 8 = 0) ∧
      (row.usesCnt = false → bitField h 17 12 = 0) := by
  have pattern_bit : ∀ i < 32, row.pattern.getLsbD i = (decide (i < 8) && h.getLsbD i) := fun i hi => by
    rw [row_pattern_bit row hrow i hi, hopc, bitField, Nat.testBit_mod_two_pow, pow_zero, Nat.div_one,
      BitVec.testBit_toNat]
    cases decide (i < 8) <;> simp
  simp only [bitField_eq_zero_iff]
  constructor
  · intro heq
    have fixed : ∀ i < 32, 8 ≤ i → row.mask.getLsbD i = true → h.getLsbD i = false := fun i hi h8 hm => by
      have hbit := congrArg (·.getLsbD i) heq
      simpa [pattern_bit i hi, hm, Nat.not_lt.mpr h8] using hbit
    refine ⟨fun i hlo hhi => ?_, fun hs i hlo hhi => ?_, fun hc i hlo hhi => ?_⟩ <;>
      refine fixed i (by omega) (by omega) ?_ <;> rw [row_mask_bit row hrow i (by omega)]
    · simp [hlo]
    · simp [hlo, hhi, hs]
    · simp [hlo, hhi, hc]
  · rintro ⟨hrsv, hslot, hcnt⟩
    refine BitVec.eq_of_getLsbD_eq fun i hi => ?_
    rw [BitVec.getLsbD_and, row_mask_bit row hrow i hi, pattern_bit i hi]
    rcases (by omega : i < 8 ∨ (8 ≤ i ∧ i ≤ 11) ∨ (12 ≤ i ∧ i ≤ 17) ∨ 18 ≤ i) with h8 | hr | hr | hr
    · simp [h8]
    · rcases hs : row.usesSlot with _ | _
      · simp [hslot hs i hr.1 hr.2]
      · simp [hr, show ¬i < 8 by omega, show ¬12 ≤ i by omega, show ¬18 ≤ i by omega]
    · rcases hc : row.usesCnt with _ | _
      · simp [hcnt hc i hr.1 hr.2]
      · simp [hr, show ¬i < 8 by omega, show ¬i ≤ 11 by omega, show ¬18 ≤ i by omega]
    · simp [hrsv i hr (by omega)]

/-! ### What an opcode and its operand words make -/

/-- `P` holds of every list of operand words with one word for each operand type. -/
def ForWords : List OperandType → (List Word → Prop) → Prop
  | [], P => P []
  | _ :: types, P => ∀ w, ForWords types fun ops => P (w :: ops)

theorem ForWords.of_length {types : List OperandType} {P : List Word → Prop} (h : ForWords types P) {ops : List Word}
    (hlen : ops.length = types.length) : P ops := by
  induction types generalizing P ops with
  | nil =>
    rw [List.length_eq_zero_iff.mp hlen]
    exact h
  | cons _ types ih =>
    match ops, hlen with
    | w :: ops, hlen => exact ih (h w) (by simpa using hlen)

/-- The command `i` is what the opcode of the row makes of these header fields and operand words: it has the row's
mnemonic, its packet holds the words and those of the fields that the row uses, and it is well-formed when they fit. -/
structure OpRow.Makes (row : OpRow) (slot cnt : Nat) (ops : List Word) (i : Instr) : Prop where
  build : buildInstr row.opc slot cnt ops = some i
  mnemonic : i.mnemonic = row.mnemonic
  packet : encode i = ⟨headerWord row.opc (if row.usesSlot then slot else 0) (if row.usesCnt then cnt else 0), ops⟩
  fits : i.wellFormed = if row.usesSlot then slotFits slot else if row.usesCnt then cntFits cnt else true

/-- Every row makes a command of as many operand words as it has operands (30_encoding.md R92, R96). -/
theorem row_makes {row : OpRow} (hrow : row ∈ opcodeMap) {ops : List Word} (hlen : ops.length = row.operands.length)
    (slot cnt : Nat) : ∃ i, row.Makes slot cnt ops i := by
  refine ForWords.of_length (P := fun ops => ∃ i, row.Makes slot cnt ops i) ?_ hlen
  fin_cases hrow <;> simp only [ForWords] <;> intros <;> exact ⟨_, rfl, rfl, rfl, rfl⟩

theorem OpRow.Makes.wellFormed {row : OpRow} {slot cnt : Nat} {ops : List Word} {i : Instr}
    (h : row.Makes slot cnt ops i) (hs : slot < 16) (hc : cnt < 64) : i.wellFormed = true := by
  rw [h.fits]
  split_ifs <;> simp [hs, hc]

/-- The packet of a command whose header fields fit, as those fields and its operand words. -/
theorem encode_fields {i : Instr} (h : i.wellFormed = true) : ∃ opc slot cnt ops,
    opc < 256 ∧ slot < 16 ∧ cnt < 64 ∧ encode i = ⟨headerWord opc slot cnt, ops⟩ ∧
      buildInstr opc slot cnt ops = some i := by
  cases i <;> simp only [Instr.wellFormed, decide_eq_true_eq] at h <;>
    exact ⟨_, _, _, _, by decide, by omega, by omega, rfl, rfl⟩

open Laws.EncodeRow in
/-- The laws of Sys2Proof/Laws/PerInstr.lean, for all commands. -/
theorem encode_row : ∀ i, Statement i
  | .stat => stat
  | .slotbits slot => slotbits slot
  | .umax slot => umax slot
  | .wopen capBytes => wopen capBytes
  | .write cnt value => write cnt value
  | .wreset => wreset
  | .wbytelen => wbytelen
  | .wbyte index => wbyte index
  | .wclose => wclose
  | .ropen => ropen
  | .rput byte => rput byte
  | .read cnt => read cnt
  | .rbytepos => rbytepos
  | .rclose => rclose
  | .bitcnt min max => bitcnt min max
  | .scaletou value srcMin srcMax dstMin dstMax => scaletou value srcMin srcMax dstMin dstMax
  | .scalefromu code srcMin srcMax dstMin dstMax => scalefromu code srcMin srcMax dstMin dstMax
  | .fcfg slot max precision => fcfg slot max precision
  | .fpack slot value => fpack slot value
  | .funpack slot => funpack slot
  | .v2cfg slot maxX maxY precX precY => v2cfg slot maxX maxY precX precY
  | .v2pack slot x y => v2pack slot x y
  | .v2unpack slot => v2unpack slot
  | .v3cfg slot maxX maxY maxZ precX precY precZ => v3cfg slot maxX maxY maxZ precX precY precZ
  | .v3pack slot x y z => v3pack slot x y z
  | .v3unpack slot => v3unpack slot
  | .pcfg slot minX minY minZ maxX maxY maxZ precision => pcfg slot minX minY minZ maxX maxY maxZ precision
  | .ppack slot x y z => ppack slot x y z
  | .punpack slot => punpack slot
  | .ucfg slot small medium large => ucfg slot small medium large
  | .upack slot value => upack slot value
  | .uunpack slot => uunpack slot
  | .upackn slot present value => upackn slot present value
  | .uunpackn slot => uunpackn slot

/-! ### The decoder, by its checks -/

section
variable {p : Packet} {row : OpRow}

/-- A packet decodes exactly when it passes the three checks, and then to what its opcode makes (30_encoding.md R97). -/
theorem decode_eq_ok_iff {i : Instr} : decode p = .ok i ↔ ∃ row, opcodeRow p.header = some row ∧
    p.header &&& row.mask = row.pattern ∧ p.ops.length = row.operands.length ∧
    buildInstr (hdrOpc p.header) (hdrSlot p.header) (hdrCnt p.header) p.ops = some i := by
  constructor
  · intro h
    unfold decode at h
    split at h
    · cases h
    · next row hrow =>
      split_ifs at h with hmask hlen
      split at h
      · next hbuild =>
        cases h
        exact ⟨row, hrow, hmask, hlen, hbuild⟩
      · cases h
  · rintro ⟨row, hrow, hmask, hlen, hbuild⟩
    simp only [decode, hrow, if_pos hmask, if_pos hlen, hbuild]

/-- The first check (30_encoding.md R98). -/
theorem decode_of_no_row (h : ∀ row ∈ opcodeMap, row.opc ≠ bitField p.header 7 0) :
    decode p = .error .illegalOpcode := by
  rw [decode, opcodeRow_eq_none h]

/-- The second check (30_encoding.md R99). -/
theorem decode_of_reserved (hrow : row ∈ opcodeMap) (hopc : row.opc = bitField p.header 7 0)
    (hmask : p.header &&& row.mask ≠ row.pattern) : decode p = .error .reservedField := by
  rw [decode, opcodeRow_of_mem hrow hopc]
  exact if_neg hmask

/-- The third check (30_encoding.md R100). -/
theorem decode_of_count (hrow : row ∈ opcodeMap) (hopc : row.opc = bitField p.header 7 0)
    (hmask : p.header &&& row.mask = row.pattern) (hlen : p.ops.length ≠ row.operands.length) :
    decode p = .error .operandCount := by
  rw [decode, opcodeRow_of_mem hrow hopc]
  exact (if_pos hmask).trans (if_neg hlen)

/-- A packet that passes the three checks decodes to a command of its row. -/
theorem decode_of_checks (hrow : row ∈ opcodeMap) (hopc : row.opc = bitField p.header 7 0)
    (hmask : p.header &&& row.mask = row.pattern) (hlen : p.ops.length = row.operands.length) :
    ∃ i, decode p = .ok i ∧ i.mnemonic = row.mnemonic := by
  obtain ⟨i, hi⟩ := row_makes hrow hlen (hdrSlot p.header) (hdrCnt p.header)
  have hbuild := hi.build
  rw [hopc] at hbuild
  exact ⟨i, decode_eq_ok_iff.mpr ⟨row, opcodeRow_of_mem hrow hopc, hmask, hlen, hbuild⟩, hi.mnemonic⟩

end

end Sys2Proof
end

section
/-! SUPPORT. What the lines of a command answer from a state that meets the invariant: they never stop the model, their
results are as many as the opcode has, and every fault carries an information byte and detail words that
60_exceptions.md lists (R283, R284); and the layout of a response header (30_encoding.md R94). -/

namespace Sys2Proof

/-- The number of result words of a command that does what its rule says (30_encoding.md R95). -/
def Instr.nres : Instr → Nat
  | .slotbits _ | .v3unpack _ | .punpack _ => 3
  | .v2unpack _ | .uunpackn _ => 2
  | .stat | .umax _ | .wbytelen | .wbyte _ | .read _ | .rbytepos | .bitcnt _ _ | .scaletou _ _ _ _ _
  | .scalefromu _ _ _ _ _ | .funpack _ | .uunpack _ => 1
  | _ => 0

/-- It is the column `nres` of the opcode map (30_encoding.md R96). -/
theorem Instr.nres_of_row (i : Instr) : ∀ row ∈ opcodeMap, row.mnemonic = i.mnemonic → row.nres = i.nres := by
  cases i <;> exact of_decide_eq_true rfl

theorem Instr.nres_le (i : Instr) : i.nres ≤ 3 := by
  cases i <;> exact of_decide_eq_true rfl

end Sys2Proof

namespace Sys2Proof.Machine

/-! ### Faults as they are listed -/

/-- An information byte of 60_exceptions.md R283. -/
abbrev ListedInfo (info : Byte) : Prop :=
  info.toNat ≤ 6 ∨ (0x80 ≤ info.toNat ∧ info.toNat ≤ 0x85) ∨ info = 0xFF

/-- A fault as 60_exceptions.md lists it: Overflow and Underflow carry two detail words, more bits requested than remain
(R284), every other fault none. -/
inductive Raise.Listed : Raise → Prop
  | plain {kind info} (h : kind ≠ .overflow ∧ kind ≠ .underflow ∧ ListedInfo info) : Listed ⟨kind, info, none⟩
  | short {kind requested remaining} (hk : kind = .overflow ∨ kind = .underflow)
      (h : remaining.toNat < requested.toNat) : Listed ⟨kind, 0xFF, some (requested, remaining)⟩

theorem listedInfo_operand {i : Nat} (hi : i ≤ 6) : ListedInfo (BitVec.ofNat 8 i) :=
  .inl (by rw [BitVec.toNat_ofNat]; omega)

theorem Raise.Listed.operand {i : Nat} (hi : i ≤ 6) : Raise.Listed ⟨.invalidArgument, BitVec.ofNat 8 i, none⟩ :=
  .plain ⟨by decide, by decide, listedInfo_operand hi⟩

/-- The detail words of a request that does not fit, below 2^32. -/
theorem Raise.Listed.bits {kind : FaultKind} {requested remaining : Nat} (hk : kind = .overflow ∨ kind = .underflow)
    (hr : requested < 2 ^ 32) (h : remaining < requested) :
    Raise.Listed ⟨kind, 0xFF, some (BitVec.ofNat 32 requested, BitVec.ofNat 32 remaining)⟩ := by
  refine .short hk ?_
  rw [BitVec.toNat_ofNat, BitVec.toNat_ofNat, Nat.mod_eq_of_lt hr, Nat.mod_eq_of_lt (h.trans hr)]
  exact h

theorem decodeRaise_listed (e : DecodeFault) : (decodeRaise e).Listed := by
  cases e <;> exact .plain (by decide)

/-! ### Widths of a packer -/

theorem Axis.Ok.bitCount_le {ax : Axis} (h : ax.Ok) : ax.bitCount ≤ 32 := by
  have hw := h.widthRange
  unfold Axis.bitCount
  omega

theorem Descriptor.Ok.asFloat {e : Descriptor} {ax : Axis} (h : e.Ok) (he : e.asFloat = some ax) :
    ax.bitCount ≤ 32 := by
  cases e <;> cases he
  exact Axis.Ok.bitCount_le h

theorem Descriptor.Ok.asVec2 {e : Descriptor} {d : Axis × Axis} (h : e.Ok) (he : e.asVec2 = some d) :
    d.1.bitCount + d.2.bitCount ≤ 64 := by
  cases e <;> cases he
  obtain ⟨hx, hy⟩ := h
  exact Nat.add_le_add hx.bitCount_le hy.bitCount_le

theorem Descriptor.Ok.asVec3 {e : Descriptor} {d : Axis × Axis × Axis} (h : e.Ok) (he : e.asVec3 = some d) :
    d.1.bitCount + d.2.1.bitCount + d.2.2.bitCount ≤ 96 := by
  cases e <;> cases he
  obtain ⟨hx, hy, hz⟩ := h
  exact Nat.add_le_add (Nat.add_le_add hx.bitCount_le hy.bitCount_le) hz.bitCount_le

theorem Descriptor.Ok.asPos {e : Descriptor} {d : PosAxis × PosAxis × PosAxis} (h : e.Ok) (he : e.asPos = some d) :
    d.1.bits + d.2.1.bits + d.2.2.bits ≤ 93 := by
  cases e <;> cases he
  obtain ⟨-, -, hx, hy, hz⟩ := h
  exact Nat.add_le_add (Nat.add_le_add hx.widthRange.2 hy.widthRange.2) hz.widthRange.2

theorem Descriptor.Ok.asUvar {e : Descriptor} {d : Nat × Nat × Nat} (h : e.Ok) (he : e.asUvar = some d) (v : Nat) :
    uSize d v ≤ 34 := by
  cases e <;> cases he
  obtain ⟨-, hsm, hml, hl⟩ := h
  rw [uSize_eq]
  unfold uvarWidth
  split_ifs <;> omega

/-! ### Lines that answer as listed -/

section
variable {α β : Type}

/-- Lines that, from any state that meets the invariant, end with a value of which `P` holds and the invariant kept, or
with a listed fault; they never stop the model. -/
def Proper (c : Cmd α) (P : α → Prop) : Prop :=
  ∀ s, s.Inv → Sat c s False (fun a t => P a ∧ t.Inv) fun f _ => f.Listed

theorem Proper.pure {P : α → Prop} {a : α} (h : P a) : Proper (Pure.pure a) P := fun _ hs => Sat.pure ⟨h, hs⟩

theorem Proper.bind {c : Cmd α} {k : α → Cmd β} {P : α → Prop} {Q : β → Prop} (hc : Proper c P)
    (hk : ∀ a, P a → Proper (k a) Q) : Proper (c >>= k) Q :=
  fun s hs => Sat.bind ((hc s hs).mono (fun a t ⟨ha, ht⟩ => hk a ha t ht) fun _ _ hf => hf)

theorem Proper.ite {p : Prop} [Decidable p] {c d : Cmd α} {P : α → Prop} (hc : p → Proper c P) (hd : ¬p → Proper d P) :
    Proper (if p then c else d) P := fun s hs => Sat.ite (fun h => hc h s hs) fun h => hd h s hs

theorem Proper.getState : Proper getState fun _ => True := fun _ hs => Sat.getState ⟨trivial, hs⟩

theorem Proper.raiseIf {p : Prop} [Decidable p] {kind : FaultKind} {info : Nat}
    (h : kind ≠ .overflow ∧ kind ≠ .underflow ∧ ListedInfo (BitVec.ofNat 8 info)) :
    Proper (raiseIf p kind info) fun _ => ¬p :=
  fun _ hs => Sat.raiseIf (fun _ => .plain h) fun hp => ⟨hp, hs⟩

theorem Proper.requireWriter : Proper requireWriter fun _ => True :=
  fun _ hs => Sat.requireWriter (fun _ => .plain (by decide)) (fun _ _ => .plain (by decide)) fun _ => ⟨trivial, hs⟩

theorem Proper.requireReader : Proper requireReader fun _ => True :=
  fun _ hs => Sat.requireReader (fun _ => .plain (by decide)) (fun _ _ => .plain (by decide)) fun _ => ⟨trivial, hs⟩

theorem Proper.requireSlot {slot : Nat} {view : Descriptor → Option α} {P : α → Prop}
    (h : ∀ e d, Descriptor.Ok e → view e = some d → P d) : Proper (requireSlot slot view) P := by
  refine fun s hs => Sat.requireSlot (fun d hd => ?_) fun _ => .plain (by decide)
  obtain ⟨e, he, -, hv⟩ := slotAs_some hd
  exact ⟨h e d (hs.slots e he) hv, hs⟩

theorem Proper.requireSlotIndex {slot : Nat} : Proper (requireSlotIndex slot) fun _ => True :=
  fun _ hs => Sat.requireSlotIndex (fun _ => ⟨trivial, hs⟩) fun _ => .plain (by decide)

theorem Proper.setSlot {slot : Nat} {d : Descriptor} (hd : d.Ok) : Proper (setSlot slot d) fun _ => True :=
  fun _ hs => Sat.setSlot ⟨trivial, hs.setSlots hd⟩

theorem Proper.finite {i : Nat} {w : Word} (hi : i ≤ 6) : Proper (finite i w) IsFloat32 :=
  fun _ hs => Sat.finite (fun _ hq => ⟨⟨w, hq⟩, hs⟩) fun _ => .operand hi

theorem Proper.axisDerive {iMax iPrec : Nat} {maxWord precWord : Word} (hm : iMax ≤ 6) (hp : iPrec ≤ 6) :
    Proper (axisDerive iMax maxWord iPrec precWord) Axis.Ok := by
  refine fun _ hs => Sat.axisDerive (fun _ ha => ⟨ha.ok, hs⟩) fun info hr => ?_
  rcases hr with ⟨-, rfl⟩ | ⟨_, -, -, -, rfl⟩
  · exact .operand hm
  · exact .operand hp

theorem Proper.posAxisDerive {a : Nat} (ha : a < 3) {mn mx pr : ℚ} (hp : 0 < pr) (hmn : IsFloat32 mn)
    (hmx : IsFloat32 mx) : Proper (posAxisDerive a mn mx pr) fun ax => ax.Ok pr := by
  refine fun _ hs => Sat.posAxisDerive ha hp (fun ax h1 h2 hacc => ?_) fun info hr => ?_
  · subst h1 h2
    exact ⟨hacc.ok hp hmn hmx, hs⟩
  · rcases hr with ⟨-, rfl⟩ | ⟨-, -, rfl⟩
    · interval_cases a <;> exact .plain (by decide)
    · exact .plain (by decide)

theorem Proper.axisCheck {ax : Axis} {i : Nat} {value : Word} (hi : i ≤ 6) :
    Proper (axisCheck ax i value) fun _ => True := by
  refine fun _ hs => Sat.axisCheck (fun _ _ => ⟨trivial, hs⟩) fun kind info hr => ?_
  rcases hr with ⟨-, rfl, rfl⟩ | ⟨_, -, -, rfl, rfl⟩
  · exact .operand hi
  · exact .plain ⟨by decide, by decide, listedInfo_operand hi⟩

/-! #### Appending -/

theorem Proper.reserve {t : Nat} (ht : t < 2 ^ 32) : Proper (reserve t) fun _ => True :=
  fun s hs => Sat.reserve (fun _ => ⟨trivial, hs⟩) fun hfull =>
    .bits (.inl rfl) ht (by have := hs.writer.cursor; omega)

theorem Proper.writeBits {v n : Nat} : Proper (writeBits v n) fun _ => True := by
  refine fun s hs => Sat.writeBits (fun _ hcap _ => ⟨trivial, ?_⟩) (fun _ => .plain (by decide))
    (fun hn hfull => .bits (.inl rfl) (by omega) (by have := hs.writer.cursor; omega))
    fun hcap hmem => hmem (hcap.trans hs.writer.capFits)
  refine hs.setWriter (hs.writer.appended ?_) (by simp)
  by_cases hn : n = 0
  · subst hn
    exact hs.writer.cursor
  · exact hcap hn

theorem Proper.axisEmit {ax : Axis} {v : Rat} : Proper (axisEmit ax v) fun _ => True :=
  .bind .writeBits fun _ _ => .writeBits

theorem Proper.posEmit {ax : PosAxis} {v : Rat} : Proper (posEmit ax v) fun _ => True := .writeBits

theorem Proper.uEmit {d : Nat × Nat × Nat} {v : Nat} : Proper (uEmit d v) fun _ => True :=
  .ite (fun _ => .bind .writeBits fun _ _ => .writeBits) fun _ =>
    .ite (fun _ => .bind .writeBits fun _ _ => .bind .writeBits fun _ _ => .writeBits) fun _ =>
      .bind .writeBits fun _ _ => .bind .writeBits fun _ _ => .writeBits

/-! #### Consuming -/

theorem Proper.require {t : Nat} (ht : t < 2 ^ 32) : Proper (require t) fun _ => True :=
  fun s hs => Sat.require (fun _ => ⟨trivial, hs⟩) fun hshort =>
    .bits (.inr rfl) ht (by have := hs.reader.cursor; omega)

theorem Proper.readBits {n : Nat} : Proper (readBits n) fun _ => True :=
  fun s hs => Sat.readBits (fun _ _ hlim _ => ⟨trivial, hs.setReader (hs.reader.consumed hlim) rfl⟩)
    (fun _ => .plain (by decide))
    (fun _ hn hshort => .bits (.inr rfl) (by omega) (by have := hs.reader.cursor; omega))
    fun hlim hmem => hmem (hlim.trans hs.reader.limitFits)

theorem Proper.axisTake {ax : Axis} : Proper (axisTake ax) fun _ => True :=
  .bind .readBits fun _ _ => .bind .readBits fun _ _ => .pure trivial

theorem Proper.posTake {ax : PosAxis} : Proper (posTake ax) fun _ => True := .bind .readBits fun _ _ => .pure trivial

theorem Proper.uTake {d : Nat × Nat × Nat} : Proper (uTake d) fun _ => True :=
  .bind .readBits fun _ _ => .ite (fun _ => .readBits) fun _ =>
    .bind .readBits fun _ _ => .ite (fun _ => .readBits) fun _ => .readBits

end

/-! ### Every command answers as listed -/

/-- The lines of the command `i` never stop the model from `s`; they end with as many results as its opcode has, or with
a listed fault. -/
abbrev Finishes (i : Instr) (s : State) : Prop :=
  ∃ c, exec i s = run c s ∧ Sat c s False (fun results _ => results.length = i.nres) fun f _ => f.Listed

section
variable {i : Instr} {s : State}

theorem Proper.finishes {c : Cmd (List Word)} (hs : s.Inv) (hexec : exec i s = run c s)
    (hc : Proper c fun results => results.length = i.nres) : Finishes i s :=
  ⟨c, hexec, (hc s hs).mono (fun _ _ h => h.1) fun _ _ hf => hf⟩

/-- A byte below the cursor lies inside the storage: the capacity is a whole number of cells (10_state.md R26, R27). -/
theorem finishes_wbyte (hs : s.Inv) (index : Word) : Finishes (.wbyte index) s := by
  refine ⟨_, rfl, Sat.bind (Sat.requireWriter (fun _ => .plain (by decide)) (fun _ _ => .plain (by decide))
    fun _ => Sat.bind (Sat.getState (Sat.bind (Sat.raiseIf (fun _ => .plain (by decide)) fun hi => ?_))))⟩
  refine Sat.bind (Sat.memReadW (fun _ => Sat.pure rfl) fun hm => hm ?_)
  have hcells := hs.writer.wholeCells
  have hfits := hs.writer.capFits
  have hcursor := hs.writer.cursor
  unfold ceil8 at hi
  omega

theorem finishes_of_onlyAnswers (hs : s.Inv) (hi : i.onlyAnswers = true) : Finishes i s := by
  cases i <;> cases hi
  case stat => exact Proper.finishes hs rfl (.bind .getState fun _ _ => .pure rfl)
  case slotbits => exact Proper.finishes hs rfl (.bind (.requireSlot fun _ _ _ _ => trivial) fun _ _ => .pure rfl)
  case umax => exact Proper.finishes hs rfl (.bind (.requireSlot fun _ _ _ _ => trivial) fun _ _ => .pure rfl)
  case wbytelen => exact Proper.finishes hs rfl (.bind .requireWriter fun _ _ => .bind .getState fun _ _ => .pure rfl)
  case wbyte index => exact finishes_wbyte hs index
  case rbytepos => exact Proper.finishes hs rfl (.bind .requireReader fun _ _ => .bind .getState fun _ _ => .pure rfl)
  case bitcnt => exact Proper.finishes hs rfl (.bind (.raiseIf (by decide)) fun _ _ => .pure rfl)
  case scaletou =>
    exact Proper.finishes hs rfl (.bind (.finite (by decide)) fun _ _ => .bind (.finite (by decide)) fun _ _ =>
      .bind (.finite (by decide)) fun _ _ => .bind (.raiseIf (by decide)) fun _ _ =>
      .bind (.raiseIf (by decide)) fun _ _ => .bind (.raiseIf (by decide)) fun _ _ => .pure rfl)
  case scalefromu =>
    exact Proper.finishes hs rfl (.bind (.raiseIf (by decide)) fun _ _ => .bind (.finite (by decide)) fun _ _ =>
      .bind (.finite (by decide)) fun _ _ => .bind (.raiseIf (by decide)) fun _ _ =>
      .bind (.raiseIf (by decide)) fun _ _ => .pure rfl)

theorem finishes_of_appendsBits (hs : s.Inv) (hi : i.appendsBits = true) : Finishes i s := by
  cases i <;> cases hi
  case write =>
    exact Proper.finishes hs rfl (.bind .requireWriter fun _ _ => .bind .writeBits fun _ _ => .pure rfl)
  case fpack =>
    exact Proper.finishes hs rfl (.bind .requireWriter fun _ _ =>
      .bind (.requireSlot fun _ _ he => he.asFloat) fun _ hd => .bind (.axisCheck (by decide)) fun _ _ =>
      .bind (.reserve (by omega)) fun _ _ => .bind .axisEmit fun _ _ => .pure rfl)
  case v2pack =>
    exact Proper.finishes hs rfl (.bind .requireWriter fun _ _ =>
      .bind (.requireSlot fun _ _ he => he.asVec2) fun _ hd => .bind (.axisCheck (by decide)) fun _ _ =>
      .bind (.axisCheck (by decide)) fun _ _ => .bind (.reserve (by omega)) fun _ _ =>
      .bind .axisEmit fun _ _ => .bind .axisEmit fun _ _ => .pure rfl)
  case v3pack =>
    exact Proper.finishes hs rfl (.bind .requireWriter fun _ _ =>
      .bind (.requireSlot fun _ _ he => he.asVec3) fun _ hd => .bind (.axisCheck (by decide)) fun _ _ =>
      .bind (.axisCheck (by decide)) fun _ _ => .bind (.axisCheck (by decide)) fun _ _ =>
      .bind (.reserve (by omega)) fun _ _ => .bind .axisEmit fun _ _ => .bind .axisEmit fun _ _ =>
      .bind .axisEmit fun _ _ => .pure rfl)
  case ppack =>
    exact Proper.finishes hs rfl (.bind .requireWriter fun _ _ =>
      .bind (.requireSlot fun _ _ he => he.asPos) fun _ hd => .bind (.finite (by decide)) fun _ _ =>
      .bind (.finite (by decide)) fun _ _ => .bind (.finite (by decide)) fun _ _ =>
      .bind (.reserve (by omega)) fun _ _ => .bind .posEmit fun _ _ => .bind .posEmit fun _ _ =>
      .bind .posEmit fun _ _ => .pure rfl)
  case upack value =>
    exact Proper.finishes hs rfl (.bind .requireWriter fun _ _ =>
      .bind (.requireSlot fun _ _ he hv => he.asUvar hv (u32 value)) fun _ hd => .bind (.raiseIf (by decide)) fun _ _ =>
      .bind (.reserve (by omega)) fun _ _ => .bind .uEmit fun _ _ => .pure rfl)
  case upackn present value =>
    exact Proper.finishes hs rfl (.bind .requireWriter fun _ _ =>
      .bind (.requireSlot fun _ _ he hv => he.asUvar hv (u32 value)) fun _ hd => .ite
        (fun _ => .bind (.reserve (by decide)) fun _ _ => .bind .writeBits fun _ _ => .pure rfl)
        fun _ => .bind (.raiseIf (by decide)) fun _ _ => .bind (.reserve (by omega)) fun _ _ =>
          .bind .writeBits fun _ _ => .bind .uEmit fun _ _ => .pure rfl)

theorem finishes_of_consumesBits (hs : s.Inv) (hi : i.consumesBits = true) : Finishes i s := by
  cases i <;> cases hi
  case read => exact Proper.finishes hs rfl (.bind .requireReader fun _ _ => .bind .readBits fun _ _ => .pure rfl)
  case funpack =>
    exact Proper.finishes hs rfl (.bind .requireReader fun _ _ =>
      .bind (.requireSlot fun _ _ he => he.asFloat) fun _ hd => .bind (.require (by omega)) fun _ _ =>
      .bind .axisTake fun _ _ => .pure rfl)
  case v2unpack =>
    exact Proper.finishes hs rfl (.bind .requireReader fun _ _ =>
      .bind (.requireSlot fun _ _ he => he.asVec2) fun _ hd => .bind (.require (by omega)) fun _ _ =>
      .bind .axisTake fun _ _ => .bind .axisTake fun _ _ => .pure rfl)
  case v3unpack =>
    exact Proper.finishes hs rfl (.bind .requireReader fun _ _ =>
      .bind (.requireSlot fun _ _ he => he.asVec3) fun _ hd => .bind (.require (by omega)) fun _ _ =>
      .bind .axisTake fun _ _ => .bind .axisTake fun _ _ => .bind .axisTake fun _ _ => .pure rfl)
  case punpack =>
    exact Proper.finishes hs rfl (.bind .requireReader fun _ _ =>
      .bind (.requireSlot fun _ _ he => he.asPos) fun _ hd => .bind (.require (by omega)) fun _ _ =>
      .bind .posTake fun _ _ => .bind .posTake fun _ _ => .bind .posTake fun _ _ => .pure rfl)
  case uunpack =>
    exact Proper.finishes hs rfl (.bind .requireReader fun _ _ => .bind (.requireSlot fun _ _ _ _ => trivial) fun _ _ =>
      .bind .uTake fun _ _ => .pure rfl)
  case uunpackn =>
    exact Proper.finishes hs rfl (.bind .requireReader fun _ _ => .bind (.requireSlot fun _ _ _ _ => trivial) fun _ _ =>
      .bind .readBits fun _ _ => .ite (fun _ => .pure rfl) fun _ => .bind .uTake fun _ _ => .pure rfl)

theorem finishes_of_configuredSlot {k : Nat} (hs : s.Inv) (hi : i.configuredSlot = some k) : Finishes i s := by
  cases i <;> cases hi
  case fcfg =>
    exact Proper.finishes hs rfl (.bind .requireSlotIndex fun _ _ =>
      .bind (.axisDerive (by decide) (by decide)) fun _ hx => .bind (.setSlot hx) fun _ _ => .pure rfl)
  case v2cfg =>
    exact Proper.finishes hs rfl (.bind .requireSlotIndex fun _ _ =>
      .bind (.axisDerive (by decide) (by decide)) fun _ hx => .bind (.axisDerive (by decide) (by decide)) fun _ hy =>
      .bind (.setSlot ⟨hx, hy⟩) fun _ _ => .pure rfl)
  case v3cfg =>
    exact Proper.finishes hs rfl (.bind .requireSlotIndex fun _ _ =>
      .bind (.axisDerive (by decide) (by decide)) fun _ hx => .bind (.axisDerive (by decide) (by decide)) fun _ hy =>
      .bind (.axisDerive (by decide) (by decide)) fun _ hz => .bind (.setSlot ⟨hx, hy, hz⟩) fun _ _ => .pure rfl)
  case pcfg =>
    exact Proper.finishes hs rfl (.bind .requireSlotIndex fun _ _ =>
      .bind (.finite (by decide)) fun _ hx0 => .bind (.finite (by decide)) fun _ hy0 =>
      .bind (.finite (by decide)) fun _ hz0 => .bind (.finite (by decide)) fun _ hx1 =>
      .bind (.finite (by decide)) fun _ hy1 => .bind (.finite (by decide)) fun _ hz1 =>
      .bind (.finite (by decide)) fun _ hpr => .bind (.raiseIf (by decide)) fun _ hpos =>
      .bind (.posAxisDerive (by decide) (not_le.mp hpos) hx0 hx1) fun _ hx =>
      .bind (.posAxisDerive (by decide) (not_le.mp hpos) hy0 hy1) fun _ hy =>
      .bind (.posAxisDerive (by decide) (not_le.mp hpos) hz0 hz1) fun _ hz =>
      .bind (.setSlot ⟨not_le.mp hpos, hpr, hx, hy, hz⟩) fun _ _ => .pure rfl)
  case ucfg =>
    exact Proper.finishes hs rfl (.bind .requireSlotIndex fun _ _ =>
      .bind (.raiseIf (by decide)) fun _ h1 => .bind (.raiseIf (by decide)) fun _ h2 =>
      .bind (.raiseIf (by decide)) fun _ h3 => .bind (.raiseIf (by decide)) fun _ h4 =>
      .bind (.setSlot ⟨not_lt.mp h1, not_le.mp h2, not_le.mp h3, not_lt.mp h4⟩) fun _ _ => .pure rfl)

/-- A capacity that `WOPEN` accepts lies inside the storage, whose size is a whole number of cells (00_scope.md R7). -/
theorem finishes_wopen (hs : s.Inv) (capBytes : Word) : Finishes (.wopen capBytes) s := by
  refine ⟨_, rfl, Sat.bind (Sat.getState (Sat.bind (Sat.raiseIf (fun _ => .plain (by decide)) fun _ => ?_)))⟩
  refine Sat.bind (Sat.raiseIf (fun _ => .plain (by decide)) fun hcap => ?_)
  refine Sat.bind (Sat.memClearW (fun _ => Sat.bind (Sat.modifyWriter (Sat.pure rfl))) fun hm => hm ?_)
  obtain ⟨⟨hcells, -, -⟩, -⟩ := hs.params
  change s.w.mem.size % 8 = 0 at hcells
  unfold capBits Memory.bitSize
  omega

theorem finishes_wreset (hs : s.Inv) : Finishes .wreset s := by
  refine ⟨_, rfl, Sat.bind (Sat.getState (Sat.bind (Sat.raiseIf (fun _ => .plain (by decide)) fun _ => ?_)))⟩
  exact Sat.bind (Sat.memClearW (fun _ => Sat.bind (Sat.modifyWriter (Sat.pure rfl))) fun hm => hm hs.writer.capFits)

theorem finishes_wclose : Finishes .wclose s := by
  refine ⟨_, rfl, Sat.bind (Sat.getState (Sat.bind (Sat.raiseIf (fun _ => .plain (by decide)) fun _ => ?_)))⟩
  exact Sat.bind (Sat.modifyWriter (Sat.pure rfl))

theorem finishes_ropen : Finishes .ropen s := by
  refine ⟨_, rfl, Sat.bind (Sat.getState (Sat.bind (Sat.raiseIf (fun _ => .plain (by decide)) fun _ => ?_)))⟩
  exact Sat.bind (Sat.memClearR (fun _ => Sat.bind (Sat.modifyReader (Sat.pure rfl))) fun hm => hm le_rfl)

theorem finishes_rput (byte : Word) : Finishes (.rput byte) s := by
  refine ⟨_, rfl, Sat.bind (Sat.requireReader (fun _ => .plain (by decide)) (fun _ _ => .plain (by decide))
    fun _ => Sat.bind (Sat.getState (Sat.ite (fun hfull => ?_) fun hfit => ?_)))⟩
  · exact Sat.bind (Raise.Listed.bits (.inl rfl) (by decide) (by omega))
  · exact Sat.bind (Sat.memWriteR (fun _ => Sat.bind (Sat.modifyReader (Sat.pure rfl))) fun hm => hm (not_lt.mp hfit))

theorem finishes_rclose : Finishes .rclose s := by
  refine ⟨_, rfl, Sat.bind (Sat.getState (Sat.bind (Sat.raiseIf (fun _ => .plain (by decide)) fun _ => ?_)))⟩
  exact Sat.bind (Sat.modifyReader (Sat.pure rfl))

/-- From the invariant every command answers as listed, by the classes of `exec_yields`. -/
theorem finishes_of_inv (i : Instr) (hs : s.Inv) : Finishes i s := by
  cases i with
  | wopen capBytes => exact finishes_wopen hs capBytes
  | wreset => exact finishes_wreset hs
  | wclose => exact finishes_wclose
  | ropen => exact finishes_ropen
  | rput byte => exact finishes_rput byte
  | rclose => exact finishes_rclose
  | stat | slotbits | umax | wbytelen | wbyte | rbytepos | bitcnt | scaletou | scalefromu =>
    exact finishes_of_onlyAnswers hs rfl
  | write | fpack | v2pack | v3pack | ppack | upack | upackn => exact finishes_of_appendsBits hs rfl
  | read | funpack | v2unpack | v3unpack | punpack | uunpack | uunpackn => exact finishes_of_consumesBits hs rfl
  | fcfg | v2cfg | v3cfg | pcfg | ucfg => exact finishes_of_configuredSlot hs rfl

/-! ### The one response of a command, of a packet -/

/-- A response to a command whose opcode has `n` results: OK with them, or a listed fault. -/
inductive Response.Answers (n : Nat) : Response → Prop
  | ok {results} (h : results.length = n) : Answers n (okResponse results)
  | fault {f} (h : Raise.Listed f) : Answers n f.response

theorem Effect.port {t : State} {r : Response} (h : Effect i s t r) : t.port = s.port := by
  cases h with
  | refused | answered | wopen | wreset | wclose | ropen | rput | rputFull | rclose | configured => rfl
  | appended _ _ ht | writerPoisoned _ _ ht =>
    obtain ⟨_, _, -, rfl⟩ := appending_frame ht
    rfl
  | consumed _ _ ht | readerPoisoned _ _ ht =>
    obtain ⟨_, rfl⟩ := consuming_frame ht
    rfl

/-- Before it answers, a command changes neither the events to come nor the responses given. -/
theorem exec_frame {u : State} {r : Response} (h : exec i s = .next (u.respond r)) :
    u.port = s.port ∧ u.responses = s.responses := by
  obtain ⟨v, r', hv, he⟩ := exec_effect h
  have hport := congrArg State.port he
  have hresp := congrArg State.responses he
  rw [respond_port, respond_port, hv.port] at hport
  rw [respond_responses, respond_responses, hv.responses] at hresp
  exact ⟨hport, List.append_inj_left' hresp rfl⟩

theorem exec_answers (i : Instr) (hs : s.Inv) : ∃ t r, exec i s = .next t ∧ t.port = s.port ∧
    t.responses = s.responses ++ [r] ∧ r.Answers i.nres := by
  obtain ⟨c, hexec, hc⟩ := finishes_of_inv i hs
  obtain ⟨t, ht⟩ := hc.run_next
  rw [← hexec] at ht
  rcases hc.of_run (hexec ▸ ht) with ⟨results, u, hn, rfl⟩ | ⟨f, u, hf, rfl⟩
  · obtain ⟨hport, hresp⟩ := exec_frame ht
    exact ⟨_, _, ht, hport, by rw [respond_responses, hresp], .ok hn⟩
  · obtain ⟨hport, hresp⟩ := exec_frame ht
    exact ⟨_, _, ht, hport, by rw [respond_responses, hresp], .fault hf⟩

/-- A packet is answered by its command, or by the fault of the check it fails (30_encoding.md R94, R97). -/
theorem step_answers {p : Packet} {rest : List PortEvent} (hs : s.Inv) (hp : s.port = .packet p :: rest) :
    ∃ t r n, step s = .next t ∧ t.port = rest ∧ t.responses = s.responses ++ [r] ∧ n ≤ 3 ∧ r.Answers n := by
  rcases hd : decode p with e | i
  · exact ⟨_, _, 0, step_of_decode_error hp hd, rfl, rfl, Nat.zero_le _, .fault (decodeRaise_listed e)⟩
  · obtain ⟨t, r, hexec, hport, hresp, hr⟩ := exec_answers i (hs.setPort rest)
    exact ⟨t, r, _, (step_of_decode_ok hp hd).trans hexec, hport, hresp, i.nres_le, hr⟩

end

/-! ### The fields of a response -/

section
variable {r : Response} {n : Nat}

theorem FaultKind.code_range (k : FaultKind) : 1 ≤ k.code ∧ k.code ≤ 6 := by
  cases k <;> decide

theorem Response.status_le (r : Response) : r.status ≤ 6 := by
  unfold Response.status
  split
  · decide
  · exact (FaultKind.code_range _).2

/-- The header of a response with at most three results, field by field (30_encoding.md R94). -/
theorem Response.header_fields (hn : r.results.length ≤ 3) :
    bitField r.header 3 0 = r.status ∧ bitField r.header 7 4 = 0 ∧ bitField r.header 15 8 = r.info.toNat ∧
      bitField r.header 17 16 = r.results.length ∧ bitField r.header 31 18 = 0 := by
  have hstatus := r.status_le
  have hinfo := r.info.isLt
  simp only [bitField, Response.header, BitVec.toNat_ofNat]
  omega

theorem Response.Answers.results_le (h : r.Answers n) (hn : n ≤ 3) : r.results.length ≤ 3 := by
  cases h with
  | ok h => exact h.trans_le hn
  | fault hf =>
    cases hf with
    | plain => exact Nat.zero_le 3
    | short => exact Nat.le_succ 2

/-- An OK response carries 0 in its two other fields. -/
theorem Response.Answers.of_ok (h : r.Answers n) (hok : r.fault = none) : r.status = 0 ∧ r.info = 0 := by
  cases h with
  | ok => exact ⟨rfl, rfl⟩
  | fault => cases hok

/-- A fault has one of the six codes and a listed information byte (60_exceptions.md R281, R283). -/
theorem Response.Answers.of_fault (h : r.Answers n) (hf : r.fault ≠ none) :
    1 ≤ r.status ∧ r.status ≤ 6 ∧ ListedInfo r.info := by
  cases h with
  | ok => exact absurd rfl hf
  | fault hl =>
    refine ⟨(FaultKind.code_range _).1, Response.status_le _, ?_⟩
    cases hl with
    | plain h => exact h.2.2
    | short => exact .inr (.inr rfl)

end

end Sys2Proof.Machine
end

section
/-! The statements about the encoding and the responses (30_encoding.md, 60_exceptions.md R281 to R285). -/

namespace Sys2Proof

/-- Settles O1: the fields of the packet are those the command was made of, and its row is that of its opcode. -/
theorem decodeOfEncode : Obligations.DecodeOfEncode := by
  intro i hi
  obtain ⟨opc, slot, cnt, ops, ho, hs, hc, henc, hbuild⟩ := encode_fields hi
  obtain ⟨row, hrow, -, hmask, hlen⟩ := encode_row i hi
  refine decode_eq_ok_iff.mpr ⟨row, hrow, hmask, hlen, ?_⟩
  rwa [henc, hdrOpc_headerWord ho hs hc, hdrSlot_headerWord ho hs hc, hdrCnt_headerWord ho hs hc]

/-- Settles O2: the second check leaves no bit of the header outside the fields that the command keeps. -/
theorem encodeOfDecode : Obligations.EncodeOfDecode := by
  intro p i h
  obtain ⟨row, hrow, hmask, hlen, hbuild⟩ := decode_eq_ok_iff.mp h
  obtain ⟨hmem, hopc⟩ := mem_of_opcodeRow hrow
  obtain ⟨hrsv, hslot, hcnt⟩ := (masked_eq_pattern_iff hmem hopc).mp hmask
  obtain ⟨j, hj⟩ := row_makes hmem hlen (hdrSlot p.header) (hdrCnt p.header)
  obtain rfl : i = j := Option.some.inj (hbuild.symm.trans (hopc ▸ hj.build))
  have slot_kept : (if row.usesSlot then hdrSlot p.header else 0) = hdrSlot p.header :=
    ite_eq_left_iff.mpr fun hu => (hslot (eq_false_of_ne_true hu)).symm
  have cnt_kept : (if row.usesCnt then hdrCnt p.header else 0) = hdrCnt p.header :=
    ite_eq_left_iff.mpr fun hu => (hcnt (eq_false_of_ne_true hu)).symm
  refine ⟨hj.wellFormed (hdrSlot_lt _) (hdrCnt_lt _), ?_⟩
  rw [hj.packet, slot_kept, cnt_kept, hopc, headerWord_fields hrsv]

/-- Settles O3: one lemma about the decoder per check. -/
theorem decodingMakesThreeChecksInOrder : Obligations.DecodingMakesThreeChecksInOrder :=
  fun _ => ⟨decode_of_no_row, fun _ hrow hopc => ⟨masked_eq_pattern_iff hrow hopc, decode_of_reserved hrow hopc,
    decode_of_count hrow hopc, decode_of_checks hrow hopc⟩⟩

/-- Settles O4: by running the decoder on each word. -/
theorem wordsOfTheSpecDecode : Obligations.WordsOfTheSpecDecode := by
  unfold Obligations.WordsOfTheSpecDecode
  decide

end Sys2Proof

namespace Sys2Proof.Machine

/-- Settles O5: the answer to a packet that does not decode is that of the check it fails. -/
theorem refusedPacketsChangeNothing : Obligations.RefusedPacketsChangeNothing := by
  refine fun s p rest hp => ⟨fun hno => step_of_decode_error hp (decode_of_no_row hno), fun row hrow hopc =>
    ⟨fun hfield => ?_, fun hmask hlen => step_of_decode_error hp (decode_of_count hrow hopc hmask hlen)⟩⟩
  refine step_of_decode_error hp (decode_of_reserved hrow hopc fun hmask => ?_)
  obtain ⟨hrsv, hslot, hcnt⟩ := (masked_eq_pattern_iff hrow hopc).mp hmask
  rcases hfield with h | ⟨hu, h⟩ | ⟨hu, h⟩
  · exact h hrsv
  · exact h (hslot hu)
  · exact h (hcnt hu)

/-- Settles O12: the answer of the packet's command or of its decode fault, and the fields of its header. -/
theorem everyPacketGivesOneResponse : Obligations.EveryPacketGivesOneResponse := by
  intro s p rest hs hp
  obtain ⟨t, r, n, hstep, hport, hresp, hn, hr⟩ := step_answers hs hp
  have hlen := hr.results_le hn
  obtain ⟨hstatus, hzero, hinfo, hnres, hrsv⟩ := Response.header_fields hlen
  exact ⟨t, r, hstep, hport, hresp, rfl, hlen, hstatus, hzero, hinfo, hnres, hrsv, hr.of_ok, hr.of_fault⟩

/-- Settles O13: the results of the command's lines, or those of the listed fault that ended them. -/
theorem responsesCarryTheirResults : Obligations.ResponsesCarryTheirResults := by
  intro i s t r hs h hr
  obtain ⟨t', r', hexec, -, hresp, hans⟩ := exec_answers i hs
  obtain rfl : t' = t := Host.Outcome.next.inj (hexec.symm.trans h)
  obtain rfl : r' = r := List.singleton_inj.mp (List.append_cancel_left (hresp.symm.trans hr))
  cases hans with
  | ok hn => exact ⟨fun _ row hrow hm => hn.trans (i.nres_of_row row hrow hm).symm, nofun⟩
  | fault hf =>
    refine ⟨nofun, fun k hk => ?_⟩
    cases hk
    cases hf with
    | plain h =>
      obtain ⟨hover, hunder, -⟩ := h
      exact ⟨fun hk => (hk.elim hover hunder).elim, fun _ _ => rfl⟩
    | short hk h => exact ⟨fun _ => ⟨_, _, rfl, h⟩, fun hover hunder => (hk.elim hover hunder).elim⟩

end Sys2Proof.Machine
end

section
/-! SUPPORT. What each writer command answers, line by line: the two preludes once for all the commands that start with
one (40_writer.md R120, 41_reader.md R140), then one lemma per way a command of 40_writer.md ends, and the state after a
sequence of `WRITE`s (R129). -/

namespace Sys2Proof.Machine

/-! ### A command one line further on -/

section
variable {α : Type} {c : Cmd α} {k : α → Cmd (List Word)} {s t : State}

theorem run_bind_of_ok {a : α} (h : c s = .ok a t) : run (c >>= k) s = run (k a) t := by
  simp only [run, bind_of_ok h]

theorem run_bind_of_raised {f : Raise} (h : c s = .error (.raised f) t) :
    run (c >>= k) s = .next (t.respond f.response) := run_of_raised (bind_of_error h)

end

section
variable {s : State}

theorem memReadW_ok {a n : Nat} (h : a + n ≤ s.w.mem.bitSize) : memReadW a n s = .ok (s.w.mem.read a n) s := if_pos h

theorem memClearW_ok {n : Nat} (h : n ≤ s.w.mem.bitSize) :
    memClearW n s = .ok () { s with w := { s.w with mem := s.w.mem.clear n } } := if_pos h

theorem modifyWriter_run (f : Writer → Writer) : modifyWriter f s = .ok () { s with w := f s.w } := rfl

theorem modifyReader_run (f : Reader → Reader) : modifyReader f s = .ok () { s with r := f s.r } := rfl

/-- Zeroing a range as a `Zeroed` storage. -/
theorem zeroed_clear {m : Memory} (h : m.wf = true) (n : Nat) : Zeroed m (m.clear n) n :=
  ⟨m.clear_size n, Memory.bit_clear (Memory.wf_rising h) n⟩

/-! ### The preludes -/

theorem exec_of_isWriterCommand {i : Instr} (hi : i.isWriterCommand = true) :
    ∃ c, ∀ s, exec i s = run (do requireWriter; c) s := by
  cases i <;> cases hi <;> exact ⟨_, fun _ => rfl⟩

theorem exec_of_isReaderCommand {i : Instr} (hi : i.isReaderCommand = true) :
    ∃ c, ∀ s, exec i s = run (do requireReader; c) s := by
  cases i <;> cases hi <;> exact ⟨_, fun _ => rfl⟩

/-- A writer command refuses a closed writer and a poisoned one; what is left to say of it is what it does with a live
one (40_writer.md R120). -/
theorem usesWriter_of_isWriterCommand {i : Instr} {own : Prop} (hi : i.isWriterCommand = true)
    (hown : s.w.lifecycle = .live → own) : UsesWriter i s own := by
  obtain ⟨c, hexec⟩ := exec_of_isWriterCommand hi
  exact ⟨fun hl => (hexec s).trans (run_bind_of_raised (requireWriter_closed hl)),
    fun hl hp => (hexec s).trans (run_bind_of_raised (requireWriter_poisoned hl hp)),
    fun hl hp => hown (Writer.lifecycle_live.mpr ⟨hl, hp⟩)⟩

/-- The same for a reader command (41_reader.md R140). -/
theorem usesReader_of_isReaderCommand {i : Instr} {own : Prop} (hi : i.isReaderCommand = true)
    (hown : s.r.lifecycle = .live → own) : UsesReader i s own := by
  obtain ⟨c, hexec⟩ := exec_of_isReaderCommand hi
  exact ⟨fun hl => (hexec s).trans (run_bind_of_raised (requireReader_closed hl)),
    fun hl hp => (hexec s).trans (run_bind_of_raised (requireReader_poisoned hl hp)),
    fun hl hp => hown (Reader.lifecycle_live.mpr ⟨hl, hp⟩)⟩

/-! ### `WOPEN`, `WRESET`, `WCLOSE`, `RCLOSE` -/

theorem wopen_rejects_open {capBytes : Word} (hl : s.w.live = true) :
    Rejects (.wopen capBytes) s .invalidArgument 0x85 :=
  (run_bind_of_ok (getState_run s)).trans (run_bind_of_raised (raiseIf_pos hl ..))

theorem wopen_rejects_capacity {capBytes : Word} (hl : s.w.live = false) (hcap : s.w.mem.size < capBytes.toNat) :
    Rejects (.wopen capBytes) s .invalidArgument 0 :=
  calc exec (.wopen capBytes) s
    _ = _ := run_bind_of_ok (getState_run s)
    _ = _ := run_bind_of_ok (raiseIf_neg (by simp [hl]) ..)
    _ = _ := run_bind_of_raised (raiseIf_pos hcap ..)

/-- A capacity of whole cells stays inside a storage of whole cells (00_scope.md R7, 40_writer.md R122). -/
theorem capBits_le_bitSize (hs : s.Inv) {capBytes : Nat} (hcap : capBytes ≤ s.w.mem.size) :
    capBits capBytes ≤ s.w.mem.bitSize := by
  obtain ⟨⟨hcells, -, -⟩, -⟩ := hs.params
  change s.w.mem.size % 8 = 0 at hcells
  unfold capBits Memory.bitSize
  omega

theorem wopen_completes {capBytes : Word} (hl : s.w.live = false) (hcap : capBytes.toNat ≤ s.w.mem.size)
    (hfits : capBits capBytes.toNat ≤ s.w.mem.bitSize) :
    Completes (.wopen capBytes) s
      { s with w := ⟨true, false, capBits capBytes.toNat, 0, s.w.mem.clear (capBits capBytes.toNat)⟩ } [] :=
  calc exec (.wopen capBytes) s
    _ = _ := run_bind_of_ok (getState_run s)
    _ = _ := run_bind_of_ok (raiseIf_neg (by simp [hl]) ..)
    _ = _ := run_bind_of_ok (raiseIf_neg (Nat.not_lt.mpr hcap) ..)
    _ = _ := run_bind_of_ok (memClearW_ok hfits)
    _ = _ := run_bind_of_ok (modifyWriter_run _)
    _ = _ := run_of_ok (pure_run _ _)

theorem wreset_rejects_closed (hl : s.w.live = false) : Rejects .wreset s .disposedResource 0xFF :=
  (run_bind_of_ok (getState_run s)).trans (run_bind_of_raised (raiseIf_pos hl ..))

theorem wreset_completes (hl : s.w.live = true) (hfits : s.w.cap ≤ s.w.mem.bitSize) :
    Completes .wreset s { s with w := { s.w with poison := false, wbit := 0, mem := s.w.mem.clear s.w.cap } } [] :=
  calc exec .wreset s
    _ = _ := run_bind_of_ok (getState_run s)
    _ = _ := run_bind_of_ok (raiseIf_neg (by simp [hl]) ..)
    _ = _ := run_bind_of_ok (memClearW_ok hfits)
    _ = _ := run_bind_of_ok (modifyWriter_run _)
    _ = _ := run_of_ok (pure_run _ _)

theorem wclose_rejects_closed (hl : s.w.live = false) : Rejects .wclose s .disposedResource 0xFF :=
  (run_bind_of_ok (getState_run s)).trans (run_bind_of_raised (raiseIf_pos hl ..))

theorem wclose_completes (hl : s.w.live = true) :
    Completes .wclose s { s with w := ⟨false, false, 0, 0, s.w.mem⟩ } [] :=
  calc exec .wclose s
    _ = _ := run_bind_of_ok (getState_run s)
    _ = _ := run_bind_of_ok (raiseIf_neg (by simp [hl]) ..)
    _ = _ := run_bind_of_ok (modifyWriter_run _)
    _ = _ := run_of_ok (pure_run _ _)

theorem rclose_rejects_closed (hl : s.r.live = false) : Rejects .rclose s .disposedResource 0xFF :=
  (run_bind_of_ok (getState_run s)).trans (run_bind_of_raised (raiseIf_pos hl ..))

theorem rclose_completes (hl : s.r.live = true) :
    Completes .rclose s { s with r := ⟨false, false, 0, 0, s.r.mem⟩ } [] :=
  calc exec .rclose s
    _ = _ := run_bind_of_ok (getState_run s)
    _ = _ := run_bind_of_ok (raiseIf_neg (by simp [hl]) ..)
    _ = _ := run_bind_of_ok (modifyReader_run _)
    _ = _ := run_of_ok (pure_run _ _)

/-! ### `WBYTELEN`, `WBYTE`, `RBYTEPOS` -/

theorem wbytelen_completes (hl : s.w.lifecycle = .live) :
    Completes .wbytelen s s [BitVec.ofNat 32 ((s.w.wbit + 7) / 8)] :=
  calc exec .wbytelen s
    _ = _ := run_bind_of_ok (requireWriter_live hl)
    _ = _ := run_bind_of_ok (getState_run s)
    _ = _ := run_of_ok (pure_run _ _)

theorem rbytepos_completes (hl : s.r.lifecycle = .live) :
    Completes .rbytepos s s [BitVec.ofNat 32 (s.r.rbit / 8)] :=
  calc exec .rbytepos s
    _ = _ := run_bind_of_ok (requireReader_live hl)
    _ = _ := run_bind_of_ok (getState_run s)
    _ = _ := run_of_ok (pure_run _ _)

/-- A byte below the byte length lies whole below the capacity, which is a number of whole cells (10_state.md R26,
R27). -/
theorem Writer.Ok.byte_le_cap {w : Writer} (h : w.Ok) {i : Nat} (hi : i < (w.wbit + 7) / 8) : 8 * i + 8 ≤ w.cap := by
  have hcells := h.wholeCells
  have hcursor := h.cursor
  omega

theorem wbyte_rejects {index : Word} (hl : s.w.lifecycle = .live) (hi : (s.w.wbit + 7) / 8 ≤ index.toNat) :
    Rejects (.wbyte index) s .invalidArgument 0 :=
  calc exec (.wbyte index) s
    _ = _ := run_bind_of_ok (requireWriter_live hl)
    _ = _ := run_bind_of_ok (getState_run s)
    _ = _ := run_bind_of_raised (raiseIf_pos hi ..)

theorem wbyte_completes {index : Word} (hw : s.w.Ok) (hl : s.w.lifecycle = .live)
    (hi : index.toNat < (s.w.wbit + 7) / 8) :
    Completes (.wbyte index) s s [BitVec.ofNat 32 (s.w.mem.read (8 * index.toNat) 8)] :=
  calc exec (.wbyte index) s
    _ = _ := run_bind_of_ok (requireWriter_live hl)
    _ = _ := run_bind_of_ok (getState_run s)
    _ = _ := run_bind_of_ok (raiseIf_neg (Nat.not_le.mpr hi) ..)
    _ = _ := run_bind_of_ok (memReadW_ok ((hw.byte_le_cap hi).trans hw.capFits))
    _ = _ := run_of_ok (pure_run _ _)

/-! ### `WRITE` -/

theorem exec_write_live {cnt : Nat} {value : Word} (hl : s.w.lifecycle = .live) :
    exec (.write cnt value) s = run (do writeBits value.toNat cnt; pure []) s :=
  run_bind_of_ok (requireWriter_live hl)

/-- The state from the moment `W.poison` is set differs from the one before only as a poisoning may. -/
theorem poisonsWriter_of_exec {i : Instr} {kind : FaultKind} {info : Byte} {results : List Word}
    (h : exec i s = .next (s.writerPoisoned.respond ⟨some kind, info, results⟩)) :
    PoisonsWriter i s kind info results :=
  ⟨s.w.poisoned s.freeIdx, _, ⟨rfl, rfl, rfl, rfl⟩, h⟩

theorem write_poisons_count {cnt : Nat} {value : Word} (hl : s.w.lifecycle = .live) (hn : 32 < cnt) :
    PoisonsWriter (.write cnt value) s .invalidArgument 0x83 [] :=
  poisonsWriter_of_exec ((exec_write_live hl).trans (run_bind_of_raised (writeBits_count hn)))

theorem write_poisons_full {cnt : Nat} {value : Word} (hl : s.w.lifecycle = .live) (hn : cnt ≤ 32) (h0 : cnt ≠ 0)
    (hfull : s.w.cap < s.w.wbit + cnt) :
    PoisonsWriter (.write cnt value) s .overflow 0xFF [BitVec.ofNat 32 cnt, BitVec.ofNat 32 (s.w.cap - s.w.wbit)] :=
  poisonsWriter_of_exec ((exec_write_live hl).trans (run_bind_of_raised (writeBits_full hn h0 hfull)))

/-- A count of 0 takes this way as well: it appends no bits. -/
theorem write_completes {cnt : Nat} {value : Word} (hw : s.w.Ready) (hl : s.w.lifecycle = .live) (hn : cnt ≤ 32)
    (hfit : s.w.wbit + cnt ≤ s.w.cap) : Completes (.write cnt value) s (s.appended value.toNat cnt) [] :=
  calc exec (.write cnt value) s
    _ = _ := exec_write_live hl
    _ = _ := run_bind_of_ok (writeBits_ready hw hn hfit)
    _ = _ := run_of_ok (pure_run _ _)

theorem write_appends {cnt : Nat} {value : Word} (hw : s.w.Ready) (hl : s.w.lifecycle = .live) (h1 : 1 ≤ cnt)
    (hn : cnt ≤ 32) : Appends (.write cnt value) s cnt value.toNat :=
  ⟨write_poisons_full hl hn (Nat.ne_of_gt h1),
    fun hfit => ⟨_, stored_appended hw hfit, write_completes hw hl hn hfit⟩⟩

/-! ### A sequence of `WRITE`s -/

theorem fieldsValue_lt (fields : List (Nat × Word)) : fieldsValue fields < 2 ^ fieldsWidth fields := by
  induction fields with
  | nil => exact Nat.one_pos
  | cons f rest ih =>
    obtain ⟨n, v⟩ := f
    have hlow : v.toNat % 2 ^ n < 2 ^ n := Nat.mod_lt _ (by positivity)
    calc v.toNat % 2 ^ n + 2 ^ n * fieldsValue rest
      _ < 2 ^ n * (fieldsValue rest + 1) := by rw [Nat.mul_succ]; omega
      _ ≤ 2 ^ n * 2 ^ fieldsWidth rest := Nat.mul_le_mul_left _ ih
      _ = 2 ^ (n + fieldsWidth rest) := (Nat.pow_add ..).symm

theorem execAll_cons_of_next {i : Instr} {rest : List Instr} {t : State} (h : exec i s = .next t) :
    execAll (i :: rest) s = execAll rest t := by
  simp only [execAll, h]

/-- `WRITE`s that all fit leave what one append of the concatenation of their fields leaves (40_writer.md R129). -/
theorem execAll_writes {fields : List (Nat × Word)} (hw : s.w.Ready) (hl : s.w.lifecycle = .live)
    (hn : ∀ f ∈ fields, f.1 ≤ 32) (hfit : s.w.wbit + fieldsWidth fields ≤ s.w.cap) :
    execAll (fields.map fun f => .write f.1 f.2) s =
      .next { s.appended (fieldsValue fields) (fieldsWidth fields) with
        responses := s.responses ++ fields.map fun _ => okResponse [] } := by
  induction fields generalizing s with
  | nil => simp [execAll, fieldsWidth, Memory.write]
  | cons f rest ih =>
    obtain ⟨n, v⟩ := f
    obtain ⟨hn, hrest⟩ := List.forall_mem_cons.mp hn
    have hfit' : s.w.wbit + (n + fieldsWidth rest) ≤ s.w.cap := hfit
    have hfirst : s.w.wbit + n ≤ s.w.cap := by omega
    have hone : Completes (.write n v) s (s.appended v.toNat n) [] := write_completes hw hl hn hfirst
    have hmore := ih (s := (s.appended v.toNat n).respond (okResponse [])) (hw.appended hfirst) hl hrest
      (by simpa [Nat.add_assoc] using hfit')
    have hjoin := State.appended_appended (u := v.toNat) (v := fieldsValue rest) hw hfit'
    refine (execAll_cons_of_next hone).trans (hmore.trans ?_)
    rw [fieldsValue, fieldsWidth, ← hjoin]
    simp [State.respond]

/-- Where the bits of a range are those of a value, it reads as that part of the value. -/
theorem Memory.read_of_bits {m : Memory} {a n v : Nat} (h : ∀ j < n, m.bit (a + j) = v.testBit (a + j)) :
    m.read a n = v / 2 ^ a % 2 ^ n := by
  refine Nat.eq_of_testBit_eq fun j => ?_
  rw [Memory.read_testBit, Nat.testBit_mod_two_pow, Nat.testBit_div_two_pow]
  by_cases hj : j < n
  · rw [h j hj, Nat.add_comm]
  · simp [hj]

/-- The whole range of a live writer holds the value appended to it from a cursor at 0, and 0 above it (40_writer.md
R129, 10_state.md R29). -/
theorem bit_appended_at_zero (hw : s.w.Ok) (hl : s.w.lifecycle = .live) (h0 : s.w.wbit = 0) {v n a : Nat}
    (hv : v < 2 ^ n) (ha : a < s.w.cap) : (s.appended v n).w.mem.bit a = v.testBit a := by
  have hbit := Memory.bit_write (Memory.wf_rising hw.canonical) s.w.wbit n (v % 2 ^ n) a
  refine hbit.trans ?_
  rw [h0, Nat.mod_eq_of_lt hv]
  by_cases hn : a < n
  · rw [if_pos (by omega), Nat.sub_zero]
  · rw [if_neg (by omega), hw.zeros hl a (by omega) ha,
      Nat.testBit_lt_two_pow (hv.trans_le (Nat.pow_le_pow_right (by decide) (by omega)))]

/-- The bytes exported from a storage whose bits are those of a value are that value cut into bytes (40_writer.md R126,
R129). -/
theorem wbyte_completes_of_bits (hw : s.w.Ok) (hl : s.w.lifecycle = .live) (hsize : s.w.mem.size ≤ 2 ^ 28) {v k : Nat}
    (hbits : ∀ a < s.w.cap, s.w.mem.bit a = v.testBit a) (hk : k < (s.w.wbit + 7) / 8) :
    Completes (.wbyte (BitVec.ofNat 32 k)) s s [BitVec.ofNat 32 (v / 2 ^ (8 * k) % 2 ^ 8)] := by
  have hcap := hw.byte_le_cap hk
  have hindex : (BitVec.ofNat 32 k).toNat = k := by
    have hfits := hw.capFits
    unfold Memory.bitSize at hfits
    exact Nat.mod_eq_of_lt (by omega)
  have hdone := wbyte_completes (index := BitVec.ofNat 32 k) hw hl (hindex.symm ▸ hk)
  rwa [hindex, Memory.read_of_bits fun j hj => hbits _ (by omega)] at hdone

/-- An index of a byte of the writer's storage fits an operand word (00_scope.md R7). -/
theorem State.Inv.writerSize_le (hs : s.Inv) : s.w.mem.size ≤ 2 ^ 28 := by
  obtain ⟨⟨-, -, hmax⟩, -⟩ := hs.params
  exact hmax

end

end Sys2Proof.Machine
end

section
/-! The statements about the writer (40_writer.md), with the reader's counterparts of R120, R125 and R127
(41_reader.md R140, R145, R146). -/

namespace Sys2Proof.Machine

/-- Settles O15: every command of the two classes starts with its prelude. -/
theorem preludesRefuseClosedAndPoisoned : Obligations.PreludesRefuseClosedAndPoisoned :=
  fun _ _ => ⟨fun hi => usesWriter_of_isWriterCommand hi fun _ => trivial,
    fun hi => usesReader_of_isReaderCommand hi fun _ => trivial⟩

/-- Settles O26: one lemma about `WOPEN` per way it ends. -/
theorem wopenConstructsTheWriter : Obligations.WopenConstructsTheWriter :=
  fun _ _ hs => ⟨rfl, wopen_rejects_open, wopen_rejects_capacity, fun hl hcap =>
    ⟨_, zeroed_clear hs.writer.canonical _, wopen_completes hl hcap (capBits_le_bitSize hs hcap)⟩⟩

/-- Settles O27: one lemma about `WRITE` per range of its count. -/
theorem writeAppendsTheLowBits : Obligations.WriteAppendsTheLowBits := by
  refine fun s cnt _ hs => ⟨rfl, usesWriter_of_isWriterCommand rfl fun hl => ⟨write_poisons_count hl, ?_, ?_⟩⟩
  · rintro rfl
    exact write_completes hs.writer.ready hl (Nat.zero_le _) hs.writer.cursor
  · exact write_appends hs.writer.ready hl

/-- Settles O28: `WRESET` looks at `W.live` alone. -/
theorem wresetZeroesTheWriter : Obligations.WresetZeroesTheWriter :=
  ⟨rfl, fun _ hs => ⟨wreset_rejects_closed, fun hl =>
    ⟨_, zeroed_clear hs.writer.canonical _, wreset_completes hl hs.writer.capFits⟩⟩⟩

/-- Settles O29. -/
theorem byteCountsOfTheCursors : Obligations.ByteCountsOfTheCursors :=
  ⟨rfl, rfl, fun _ => ⟨usesWriter_of_isWriterCommand rfl wbytelen_completes,
    usesReader_of_isReaderCommand rfl rbytepos_completes⟩⟩

/-- Settles O30: the pad bits are below the capacity, where the bits above the cursor are 0 (10_state.md R29). -/
theorem wbyteExportsOneByte : Obligations.WbyteExportsOneByte :=
  fun _ _ hs => ⟨rfl, usesWriter_of_isWriterCommand rfl fun hl => ⟨wbyte_rejects hl, fun hi =>
    ⟨wbyte_completes hs.writer hl hi, fun a hlo hhi =>
      hs.writer.zeros hl a hlo (hhi.trans_le (hs.writer.byte_le_cap hi))⟩⟩⟩

/-- Settles O31: both releases look at the live flag alone. -/
theorem releasesCloseTheContext : Obligations.ReleasesCloseTheContext :=
  ⟨rfl, rfl, fun _ => ⟨wclose_rejects_closed, wclose_completes, rclose_rejects_closed, rclose_completes⟩⟩

/-- Settles O56: the sequence is one append of the concatenation, whose bits are those of the whole range. -/
theorem writesConcatenate : Obligations.WritesConcatenate := by
  intro s fields hs hlive hpoison h0 hn hfit
  have hl : s.w.lifecycle = .live := Writer.lifecycle_live.mpr ⟨hlive, hpoison⟩
  have hfit' : s.w.wbit + fieldsWidth fields ≤ s.w.cap := by omega
  have hbits : ∀ a < s.w.cap, (s.appended (fieldsValue fields) (fieldsWidth fields)).w.mem.bit a =
      (fieldsValue fields).testBit a := fun _ => bit_appended_at_zero hs.writer hl h0 (fieldsValue_lt fields)
  have hwidth : s.w.wbit + fieldsWidth fields = fieldsWidth fields := by omega
  refine ⟨_, execAll_writes hs.writer.ready hl hn hfit', rfl, hlive, hpoison, rfl, hwidth, ?_,
    (hs.writer.appended hfit').zeros hl, fun k hk => ?_⟩
  · rw [Memory.read_of_bits (v := fieldsValue fields) fun j hj => hbits _ (by omega), pow_zero, Nat.div_one,
      Nat.mod_eq_of_lt (fieldsValue_lt fields)]
  · have hbyte : k < (s.w.wbit + fieldsWidth fields + 7) / 8 := hwidth.symm ▸ hk
    refine wbyte_completes_of_bits ?_ ?_ ?_ ?_ ?_
    exacts [hs.writer.appended hfit', hl, by simpa using hs.writerSize_le, hbits, hbyte]

end Sys2Proof.Machine
end

section
/-! SUPPORT. What `ROPEN`, `RPUT` and `READ` answer, one lemma per way each of them ends (41_reader.md R141 to R144),
and what a reader that holds the stream of a number gives back to a sequence of `READ`s (R147). -/

namespace Sys2Proof.Machine

variable {s : State}

theorem memClearR_ok {n : Nat} (h : n ≤ s.r.mem.bitSize) :
    memClearR n s = .ok () { s with r := { s.r with mem := s.r.mem.clear n } } := if_pos h

theorem memWriteR_ok {a n v : Nat} (h : a + n ≤ s.r.mem.bitSize) :
    memWriteR a n v s = .ok () { s with r := { s.r with mem := s.r.mem.write a n v } } := if_pos h

/-! ### `ROPEN` -/

theorem ropen_rejects_open (hl : s.r.live = true) : Rejects .ropen s .invalidArgument 0x85 :=
  (run_bind_of_ok (getState_run s)).trans (run_bind_of_raised (raiseIf_pos hl ..))

/-- The state after `ROPEN`: an empty reader over zeroed storage. -/
abbrev State.opened (s : State) : State := { s with r := ⟨true, false, 0, 0, s.r.mem.clear s.r.mem.bitSize⟩ }

theorem ropen_completes (hl : s.r.live = false) : Completes .ropen s s.opened [] :=
  calc exec .ropen s
    _ = _ := run_bind_of_ok (getState_run s)
    _ = _ := run_bind_of_ok (raiseIf_neg (by simp [hl]) ..)
    _ = _ := run_bind_of_ok (memClearR_ok le_rfl)
    _ = _ := run_bind_of_ok (modifyReader_run _)
    _ = _ := run_of_ok (pure_run _ _)

/-! ### `RPUT` -/

/-- The state after the low 8 bits of `v` are fed at the reader's limit. -/
abbrev State.fed (s : State) (v : Nat) : State :=
  { s with r := { s.r with limit := s.r.limit + 8, mem := s.r.mem.write s.r.limit 8 (v % 2 ^ 8) } }

/-- The state from the moment `R.poison` is set differs from the one before only as a poisoning may. -/
theorem poisonsReader_of_exec {i : Instr} {kind : FaultKind} {info : Byte} {results : List Word}
    (h : exec i s = .next (s.readerPoisoned.respond ⟨some kind, info, results⟩)) :
    PoisonsReader i s kind info results :=
  ⟨s.r.poisoned s.freeIdx, _, ⟨rfl, rfl, rfl⟩, h⟩

theorem rput_poisons_full {byte : Word} (hl : s.r.lifecycle = .live) (hfull : s.r.mem.bitSize < s.r.limit + 8) :
    PoisonsReader (.rput byte) s .overflow 0xFF [8#32, BitVec.ofNat 32 (s.r.mem.bitSize - s.r.limit)] :=
  poisonsReader_of_exec <|
    calc exec (.rput byte) s
      _ = _ := run_bind_of_ok (requireReader_live hl)
      _ = _ := run_bind_of_ok (getState_run s)
      _ = _ := congrArg (run · s) (if_pos hfull)

theorem rput_completes {byte : Word} (hl : s.r.lifecycle = .live) (hfit : s.r.limit + 8 ≤ s.r.mem.bitSize) :
    Completes (.rput byte) s (s.fed byte.toNat) [] :=
  calc exec (.rput byte) s
    _ = _ := run_bind_of_ok (requireReader_live hl)
    _ = _ := run_bind_of_ok (getState_run s)
    _ = _ := congrArg (run · s) (if_neg (Nat.not_lt.mpr hfit))
    _ = _ := run_bind_of_ok (memWriteR_ok hfit)
    _ = _ := run_bind_of_ok (modifyReader_run _)
    _ = _ := run_of_ok (pure_run _ _)

/-! ### `READ` -/

theorem exec_read_live {cnt : Nat} (hl : s.r.lifecycle = .live) :
    exec (.read cnt) s = run (do let v ← readBits cnt; pure [resultWord v]) s :=
  run_bind_of_ok (requireReader_live hl)

theorem read_poisons_count {cnt : Nat} (hl : s.r.lifecycle = .live) (hn : cnt = 0 ∨ 32 < cnt) :
    PoisonsReader (.read cnt) s .invalidArgument 0x83 [] :=
  poisonsReader_of_exec ((exec_read_live hl).trans (run_bind_of_raised (readBits_count hn)))

theorem read_poisons_short {cnt : Nat} (hl : s.r.lifecycle = .live) (h1 : 1 ≤ cnt) (hn : cnt ≤ 32)
    (hshort : s.r.limit < s.r.rbit + cnt) :
    PoisonsReader (.read cnt) s .underflow 0xFF [BitVec.ofNat 32 cnt, BitVec.ofNat 32 (s.r.limit - s.r.rbit)] :=
  poisonsReader_of_exec ((exec_read_live hl).trans (run_bind_of_raised (readBits_short h1 hn hshort)))

theorem read_completes {cnt : Nat} (hr : s.r.Ok) (hl : s.r.lifecycle = .live) (h1 : 1 ≤ cnt) (hn : cnt ≤ 32)
    (hfit : s.r.rbit + cnt ≤ s.r.limit) :
    Completes (.read cnt) s (s.consumed cnt) [BitVec.ofNat 32 (s.r.mem.read s.r.rbit cnt)] :=
  calc exec (.read cnt) s
    _ = _ := exec_read_live hl
    _ = _ := run_bind_of_ok (readBits_ok h1 hn hfit hr.limitFits)
    _ = _ := run_of_ok (pure_run _ _)

theorem read_consumes {cnt : Nat} (hr : s.r.Ok) (hl : s.r.lifecycle = .live) (h1 : 1 ≤ cnt) (hn : cnt ≤ 32) :
    Consumes (.read cnt) s cnt [BitVec.ofNat 32 (s.r.mem.read s.r.rbit cnt)] :=
  ⟨read_poisons_short hl h1 hn, read_completes hr hl h1 hn⟩

/-! ### A reader that holds the stream of a number -/

/-- The bits fed so far are the low bits of `v`, its bit 0 the first bit of the stream (41_reader.md R143). -/
def Reader.Holds (r : Reader) (v : Nat) : Prop := ∀ a < r.limit, r.mem.bit a = v.testBit a

/-- What is read inside the limit is that part of the number (20_memory.md R64). -/
theorem Reader.Holds.read {r : Reader} {v a n : Nat} (h : r.Holds v) (hfit : a + n ≤ r.limit) :
    r.mem.read a n = v / 2 ^ a % 2 ^ n :=
  Memory.read_of_bits fun j hj => h (a + j) (by omega)

/-- One more byte of the number fed at the limit (20_memory.md R62, R65). -/
theorem Reader.Holds.fed {v b : Nat} (h : s.r.Holds v) (hwf : s.r.mem.wf = true)
    (hb : b % 2 ^ 8 = v / 2 ^ s.r.limit % 2 ^ 8) : (s.fed b).r.Holds v := by
  intro a (ha : a < s.r.limit + 8)
  refine (Memory.bit_write (Memory.wf_rising hwf) s.r.limit 8 (b % 2 ^ 8) a).trans ?_
  by_cases hlo : s.r.limit ≤ a
  · rw [if_pos ⟨hlo, ha⟩, hb, Nat.testBit_mod_two_pow, Nat.testBit_div_two_pow, decide_eq_true (by omega),
      Bool.true_and, Nat.sub_add_cancel hlo]
  · rw [if_neg (by omega), h a (by omega)]

/-- Feeding the bytes of a number from the limit on leaves a live reader that holds it up to the new limit, and changes
nothing but that reader. -/
theorem execAll_rputs {bytes : List Word} {v : Nat} (hr : s.r.Ok) (hl : s.r.lifecycle = .live) (hv : s.r.Holds v)
    (hfit : s.r.limit + 8 * bytes.length ≤ s.r.mem.bitSize)
    (hbytes : ∀ k b, bytes[k]? = some b → b.toNat % 2 ^ 8 = v / 2 ^ (s.r.limit + 8 * k) % 2 ^ 8) :
    ∃ r : Reader, r.Ok ∧ r.lifecycle = .live ∧ r.Holds v ∧ r.limit = s.r.limit + 8 * bytes.length ∧ r.rbit = s.r.rbit ∧
      execAll (bytes.map fun b => .rput b) s =
        .next { s with r := r, responses := s.responses ++ bytes.map fun _ => okResponse [] } := by
  induction bytes generalizing s with
  | nil => exact ⟨s.r, hr, hl, hv, rfl, rfl, by simp [execAll]⟩
  | cons b rest ih =>
    rw [List.length_cons] at hfit ⊢
    have hfirst : s.r.limit + 8 ≤ s.r.mem.bitSize := by omega
    have hone : Completes (.rput b) s (s.fed b.toNat) [] := rput_completes hl hfirst
    have hfed : (s.fed b.toNat).r.Ok := hr.fed (Reader.lifecycle_live.mp hl).1 hfirst
    have hmore : ∀ k c, rest[k]? = some c → c.toNat % 2 ^ 8 = v / 2 ^ (s.r.limit + 8 + 8 * k) % 2 ^ 8 := by
      intro k c hc
      rw [show s.r.limit + 8 + 8 * k = s.r.limit + 8 * (k + 1) by omega]
      exact hbytes (k + 1) c hc
    obtain ⟨r, hok, hlive, hholds, hlimit, hcursor, hrun⟩ := ih (s := (s.fed b.toNat).respond (okResponse [])) hfed hl
      (hv.fed hr.canonical (hbytes 0 b rfl)) (by simpa [Nat.add_assoc, Nat.add_comm 8, Nat.mul_succ] using hfit) hmore
    refine ⟨r, hok, hlive, hholds, ?_, hcursor, (execAll_cons_of_next hone).trans (hrun.trans ?_)⟩
    · have hlimit : r.limit = s.r.limit + 8 + 8 * rest.length := hlimit
      omega
    · simp [State.respond]

/-- The first field of a list is the low bits of the concatenation, the others are the bits above them. -/
theorem fieldsValue_cons_mod (n : Nat) (x : Word) (rest : List (Nat × Word)) :
    fieldsValue ((n, x) :: rest) % 2 ^ n = x.toNat % 2 ^ n := by
  rw [fieldsValue, Nat.add_mul_mod_self_left, Nat.mod_mod]

theorem fieldsValue_cons_div (n : Nat) (x : Word) (rest : List (Nat × Word)) :
    fieldsValue ((n, x) :: rest) / 2 ^ n = fieldsValue rest := by
  have hpos : 0 < 2 ^ n := Nat.two_pow_pos n
  rw [fieldsValue, Nat.add_mul_div_left _ _ hpos, Nat.div_eq_of_lt (Nat.mod_lt _ hpos), Nat.zero_add]

/-- The `READ`s that take a list of fields from a stream: a field of 0 bits is skipped (41_reader.md R147). -/
def readsOf (fields : List (Nat × Word)) : List (Nat × Word) := fields.filter fun f => f.1 ≠ 0

@[simp] theorem readsOf_nil : readsOf [] = [] := rfl

theorem readsOf_cons_zero (x : Word) (rest : List (Nat × Word)) : readsOf ((0, x) :: rest) = readsOf rest :=
  List.filter_cons_of_neg (by simp)

theorem readsOf_cons_pos {n : Nat} (hn : n ≠ 0) (x : Word) (rest : List (Nat × Word)) :
    readsOf ((n, x) :: rest) = (n, x) :: readsOf rest :=
  List.filter_cons_of_pos (by simpa using hn)

/-- The `READ`s of a list of fields, from a cursor where the stream goes on with their concatenation: each answers with
the low bits of its value (41_reader.md R147). -/
theorem execAll_reads {fields : List (Nat × Word)} {v : Nat} (hr : s.r.Ok) (hl : s.r.lifecycle = .live)
    (hv : s.r.Holds v) (hn : ∀ f ∈ fields, f.1 ≤ 32) (hfit : s.r.rbit + fieldsWidth fields ≤ s.r.limit)
    (hrest : v / 2 ^ s.r.rbit = fieldsValue fields) :
    execAll ((readsOf fields).map fun f => .read f.1) s =
      .next { s.consumed (fieldsWidth fields) with
        responses := s.responses ++
          (readsOf fields).map fun f => okResponse [BitVec.ofNat 32 (f.2.toNat % 2 ^ f.1)] } := by
  induction fields generalizing s with
  | nil => simp [execAll, fieldsWidth]
  | cons f rest ih =>
    obtain ⟨n, x⟩ := f
    obtain ⟨hn, hrestn⟩ := List.forall_mem_cons.mp hn
    have hfit' : s.r.rbit + (n + fieldsWidth rest) ≤ s.r.limit := hfit
    have hnext : v / 2 ^ (s.r.rbit + n) = fieldsValue rest := by
      rw [Nat.pow_add, ← Nat.div_div_eq_div_mul, hrest, fieldsValue_cons_div]
    rcases Nat.eq_zero_or_pos n with rfl | hpos
    · simpa [fieldsWidth, readsOf_cons_zero] using ih hr hl hv hrestn (by omega) hnext
    · have hfirst : s.r.rbit + n ≤ s.r.limit := by omega
      have hread : s.r.mem.read s.r.rbit n = x.toNat % 2 ^ n := by
        rw [hv.read hfirst, hrest, fieldsValue_cons_mod]
      have hone : Completes (.read n) s (s.consumed n) [BitVec.ofNat 32 (x.toNat % 2 ^ n)] :=
        hread ▸ read_completes hr hl hpos hn hfirst
      have hmore := ih (s := (s.consumed n).respond (okResponse [BitVec.ofNat 32 (x.toNat % 2 ^ n)]))
        (hr.consumed hfirst) hl hv hrestn (by simpa [Nat.add_assoc] using hfit') hnext
      rw [readsOf_cons_pos (Nat.ne_of_gt hpos), List.map_cons]
      refine (execAll_cons_of_next hone).trans (hmore.trans ?_)
      simp [State.respond, fieldsWidth, Nat.add_assoc]

/-! ### Runs of commands, one list after the other -/

theorem execAll_append_of_next {l k : List Instr} {t : State} (h : execAll l s = .next t) :
    execAll (l ++ k) s = execAll k t := by
  induction l generalizing s with
  | nil => cases h; rfl
  | cons i rest ih =>
    rw [List.cons_append]
    rcases hone : exec i s with u | _ | _ <;> simp only [execAll, hone] at h ⊢
    · exact ih h
    · cases h
    · cases h

/-- A command that completes has one list of results. -/
theorem results_eq_of_completes {i : Instr} {t : State} {res res' : List Word} (h : Completes i s t res)
    (h' : Completes i s t res') : res = res' := by
  have hresponses := congrArg State.responses (Host.Outcome.next.inj (h.symm.trans h'))
  simpa using hresponses

/-- A fresh reader fed with the concatenation of a list of fields, cut into bytes, gives every field back. -/
theorem execAll_readBack {fields : List (Nat × Word)} {bytes : List Word} (hwf : s.r.mem.wf = true)
    (hclosed : s.r.live = false) (hn : ∀ f ∈ fields, f.1 ≤ 32) (hwidth : fieldsWidth fields ≤ 8 * bytes.length)
    (hfit : 8 * bytes.length ≤ s.r.mem.bitSize)
    (hbytes : ∀ k b, bytes[k]? = some b → b.toNat % 2 ^ 8 = fieldsValue fields / 2 ^ (8 * k) % 2 ^ 8) :
    ∃ u, execAll (.ropen :: (bytes.map fun b => .rput b) ++ (readsOf fields).map fun f => .read f.1) s = .next u ∧
      u.responses = s.responses ++ okResponse [] :: (bytes.map fun _ => okResponse []) ++
        (readsOf fields).map fun f => okResponse [BitVec.ofNat 32 (f.2.toNat % 2 ^ f.1)] := by
  have hopen : Completes .ropen s s.opened [] := ropen_completes hclosed
  obtain ⟨r, hok, hl, hholds, hlimit, hcursor, hfeed⟩ := execAll_rputs (s := s.opened.respond (okResponse []))
    (bytes := bytes) (v := fieldsValue fields) (Reader.cleared_ok hwf) rfl (fun a ha => absurd ha (Nat.not_lt_zero a))
    (by simpa using hfit) (by simpa using hbytes)
  replace hlimit : r.limit = 0 + 8 * bytes.length := hlimit
  replace hcursor : r.rbit = 0 := hcursor
  refine ⟨_, (execAll_cons_of_next hopen).trans ((execAll_append_of_next hfeed).trans
    (execAll_reads hok hl hholds hn ?_ ?_)), by simp⟩
  · simp only [hcursor, hlimit]
    omega
  · simp [hcursor]

end Sys2Proof.Machine
end

section
/-! The statements about the reader (41_reader.md). -/

namespace Sys2Proof.Machine

/-- Settles O32: `ROPEN` looks at `R.live` alone. -/
theorem ropenConstructsTheReader : Obligations.RopenConstructsTheReader :=
  ⟨rfl, fun _ hs => ⟨ropen_rejects_open, fun hl => ⟨_, zeroed_clear hs.reader.canonical _, ropen_completes hl⟩⟩⟩

/-- Settles O33: the byte is fed at the limit where it fits the storage, and the storage is full where it does not. -/
theorem rputFeedsOneByte : Obligations.RputFeedsOneByte := by
  refine fun s byte hs => ⟨rfl, usesReader_of_isReaderCommand rfl fun hl => ⟨rput_poisons_full hl, fun hfit =>
    ⟨_, ?_, rput_completes hl hfit⟩⟩⟩
  exact ⟨by simp, fun b => Memory.bit_write (Memory.wf_rising hs.reader.canonical) ..⟩

/-- Settles O34: one lemma about `READ` per range of its count. -/
theorem readConsumesBits : Obligations.ReadConsumesBits :=
  fun s cnt hs => ⟨rfl, usesReader_of_isReaderCommand rfl fun hl => ⟨read_poisons_count hl, fun h1 hn =>
    ⟨read_consumes hs.reader hl h1 hn, s.r.mem.read_lt s.r.rbit cnt⟩⟩⟩

/-- Settles O57: the exported bytes are the concatenation of the fields cut into bytes, a fresh reader fed with them
holds that number, and its parts are read back one field at a time. -/
theorem integerFieldsRoundTrip : Obligations.IntegerFieldsRoundTrip := by
  intro s t fields bytes hs hlive hpoison h0 hclosed hn hcap hstorage hwrites hlen hexport reads
  have hreader : t.r = s.r := by
    have hall := execAll_writes hs.writer.ready (Writer.lifecycle_live.mpr ⟨hlive, hpoison⟩) hn (by omega)
    rw [Host.Outcome.next.inj (hwrites.symm.trans hall)]
  have hbytes : ∀ k b, bytes[k]? = some b → b.toNat % 2 ^ 8 = fieldsValue fields / 2 ^ (8 * k) % 2 ^ 8 := by
    intro k b hb
    obtain ⟨t', hrun, -, -, -, -, -, -, -, hbyte⟩ := writesConcatenate s fields hs hlive hpoison h0 hn hcap
    obtain rfl : t' = t := Host.Outcome.next.inj (hrun.symm.trans hwrites)
    have hk : k < bytes.length := (List.getElem?_eq_some_iff.mp hb).1
    have hword := results_eq_of_completes (hexport k b hb) (hbyte k (hlen ▸ hk))
    rw [List.singleton_inj.mp hword, BitVec.toNat_ofNat]
    omega
  have hfit : 8 * bytes.length ≤ t.r.mem.bitSize := by
    have hsize : s.r.mem.size = s.params.rCapMaxBytes := rfl
    rw [hreader, Memory.bitSize]
    omega
  exact execAll_readBack (hreader ▸ hs.reader.canonical) (hreader ▸ hclosed) hn (by omega) hfit hbytes

end Sys2Proof.Machine
end

section
/-! SUPPORT. What `SCALETOU` and `SCALEFROMU` answer, one lemma per way each of them ends (42_scale.md R165, R166), and
the exact laws of the two scale functions (R167). -/

namespace Sys2Proof.Machine

/-! ### `SCALETOU` -/

section
variable {s : State} {value srcMin srcMax dstMin dstMax : Word} {v a b : ℚ}

theorem scaletou_rejects_value (hv : f32dec value = none) :
    Rejects (.scaletou value srcMin srcMax dstMin dstMax) s .invalidArgument 0 :=
  run_bind_of_raised (finite_none hv s)

theorem scaletou_rejects_srcMin (hv : f32dec value = some v) (ha : f32dec srcMin = none) :
    Rejects (.scaletou value srcMin srcMax dstMin dstMax) s .invalidArgument 1 :=
  (run_bind_of_ok (finite_some hv s)).trans (run_bind_of_raised (finite_none ha s))

theorem scaletou_rejects_srcMax (hv : f32dec value = some v) (ha : f32dec srcMin = some a)
    (hb : f32dec srcMax = none) : Rejects (.scaletou value srcMin srcMax dstMin dstMax) s .invalidArgument 2 :=
  calc exec (.scaletou value srcMin srcMax dstMin dstMax) s
    _ = _ := run_bind_of_ok (finite_some hv s)
    _ = _ := run_bind_of_ok (finite_some ha s)
    _ = _ := run_bind_of_raised (finite_none hb s)

/-- `SCALETOU` once its three `f32` operands are finite: the checks on the bounds and on the value are left. -/
theorem exec_scaletou_finite (hv : f32dec value = some v) (ha : f32dec srcMin = some a) (hb : f32dec srcMax = some b) :
    exec (.scaletou value srcMin srcMax dstMin dstMax) s = run (do
      raiseIf (b ≤ a) .invalidArgument 2
      raiseIf (u32 dstMax ≤ u32 dstMin) .invalidArgument 4
      raiseIf (v < a ∨ v > b) .outOfRange 0
      pure [resultWord (scaleToUInt v a b (u32 dstMin) (u32 dstMax))]) s :=
  calc exec (.scaletou value srcMin srcMax dstMin dstMax) s
    _ = _ := run_bind_of_ok (finite_some hv s)
    _ = _ := run_bind_of_ok (finite_some ha s)
    _ = _ := run_bind_of_ok (finite_some hb s)

theorem scaletou_rejects_srcRange (hv : f32dec value = some v) (ha : f32dec srcMin = some a)
    (hb : f32dec srcMax = some b) (hab : b ≤ a) :
    Rejects (.scaletou value srcMin srcMax dstMin dstMax) s .invalidArgument 2 :=
  (exec_scaletou_finite hv ha hb).trans (run_bind_of_raised (raiseIf_pos hab ..))

theorem scaletou_rejects_dstRange (hv : f32dec value = some v) (ha : f32dec srcMin = some a)
    (hb : f32dec srcMax = some b) (hab : a < b) (hd : dstMax.toNat ≤ dstMin.toNat) :
    Rejects (.scaletou value srcMin srcMax dstMin dstMax) s .invalidArgument 4 :=
  calc exec (.scaletou value srcMin srcMax dstMin dstMax) s
    _ = _ := exec_scaletou_finite hv ha hb
    _ = _ := run_bind_of_ok (raiseIf_neg (not_le.mpr hab) ..)
    _ = _ := run_bind_of_raised (raiseIf_pos hd ..)

theorem scaletou_rejects_outside (hv : f32dec value = some v) (ha : f32dec srcMin = some a)
    (hb : f32dec srcMax = some b) (hab : a < b) (hd : dstMin.toNat < dstMax.toNat) (hout : v < a ∨ b < v) :
    Rejects (.scaletou value srcMin srcMax dstMin dstMax) s .outOfRange 0 :=
  calc exec (.scaletou value srcMin srcMax dstMin dstMax) s
    _ = _ := exec_scaletou_finite hv ha hb
    _ = _ := run_bind_of_ok (raiseIf_neg (not_le.mpr hab) ..)
    _ = _ := run_bind_of_ok (raiseIf_neg (Nat.not_le.mpr hd) ..)
    _ = _ := run_bind_of_raised (raiseIf_pos hout ..)

theorem scaletou_completes (hv : f32dec value = some v) (ha : f32dec srcMin = some a)
    (hb : f32dec srcMax = some b) (hab : a < b) (hd : dstMin.toNat < dstMax.toNat) (hlo : a ≤ v) (hhi : v ≤ b) :
    Completes (.scaletou value srcMin srcMax dstMin dstMax) s s
      [BitVec.ofNat 32 (scaleToUInt v a b dstMin.toNat dstMax.toNat)] :=
  calc exec (.scaletou value srcMin srcMax dstMin dstMax) s
    _ = _ := exec_scaletou_finite hv ha hb
    _ = _ := run_bind_of_ok (raiseIf_neg (not_le.mpr hab) ..)
    _ = _ := run_bind_of_ok (raiseIf_neg (Nat.not_le.mpr hd) ..)
    _ = _ := run_bind_of_ok (raiseIf_neg (not_or.mpr ⟨not_lt.mpr hlo, not_lt.mpr hhi⟩) ..)
    _ = _ := run_of_ok (pure_run _ _)

end

/-! ### `SCALEFROMU` -/

section
variable {s : State} {code srcMin srcMax dstMin dstMax : Word} {a b : ℚ}

theorem scalefromu_rejects_srcRange (hs : srcMax.toNat ≤ srcMin.toNat) :
    Rejects (.scalefromu code srcMin srcMax dstMin dstMax) s .invalidArgument 2 :=
  run_bind_of_raised (raiseIf_pos hs ..)

theorem scalefromu_rejects_dstMin (hs : srcMin.toNat < srcMax.toNat) (ha : f32dec dstMin = none) :
    Rejects (.scalefromu code srcMin srcMax dstMin dstMax) s .invalidArgument 3 :=
  (run_bind_of_ok (raiseIf_neg (Nat.not_le.mpr hs) ..)).trans (run_bind_of_raised (finite_none ha s))

theorem scalefromu_rejects_dstMax (hs : srcMin.toNat < srcMax.toNat) (ha : f32dec dstMin = some a)
    (hb : f32dec dstMax = none) : Rejects (.scalefromu code srcMin srcMax dstMin dstMax) s .invalidArgument 4 :=
  calc exec (.scalefromu code srcMin srcMax dstMin dstMax) s
    _ = _ := run_bind_of_ok (raiseIf_neg (Nat.not_le.mpr hs) ..)
    _ = _ := run_bind_of_ok (finite_some ha s)
    _ = _ := run_bind_of_raised (finite_none hb s)

/-- `SCALEFROMU` once its source bounds are in order and its two `f32` operands finite. -/
theorem exec_scalefromu_finite (hs : srcMin.toNat < srcMax.toNat) (ha : f32dec dstMin = some a)
    (hb : f32dec dstMax = some b) :
    exec (.scalefromu code srcMin srcMax dstMin dstMax) s = run (do
      raiseIf (b ≤ a) .invalidArgument 4
      raiseIf (u32 code < u32 srcMin ∨ u32 code > u32 srcMax) .outOfRange 0
      pure [f32enc (scaleFromUInt (u32 code) (u32 srcMin) (u32 srcMax) a b)]) s :=
  calc exec (.scalefromu code srcMin srcMax dstMin dstMax) s
    _ = _ := run_bind_of_ok (raiseIf_neg (Nat.not_le.mpr hs) ..)
    _ = _ := run_bind_of_ok (finite_some ha s)
    _ = _ := run_bind_of_ok (finite_some hb s)

theorem scalefromu_rejects_dstRange (hs : srcMin.toNat < srcMax.toNat) (ha : f32dec dstMin = some a)
    (hb : f32dec dstMax = some b) (hab : b ≤ a) :
    Rejects (.scalefromu code srcMin srcMax dstMin dstMax) s .invalidArgument 4 :=
  (exec_scalefromu_finite hs ha hb).trans (run_bind_of_raised (raiseIf_pos hab ..))

theorem scalefromu_rejects_outside (hs : srcMin.toNat < srcMax.toNat) (ha : f32dec dstMin = some a)
    (hb : f32dec dstMax = some b) (hab : a < b) (hout : code.toNat < srcMin.toNat ∨ srcMax.toNat < code.toNat) :
    Rejects (.scalefromu code srcMin srcMax dstMin dstMax) s .outOfRange 0 :=
  calc exec (.scalefromu code srcMin srcMax dstMin dstMax) s
    _ = _ := exec_scalefromu_finite hs ha hb
    _ = _ := run_bind_of_ok (raiseIf_neg (not_le.mpr hab) ..)
    _ = _ := run_bind_of_raised (raiseIf_pos hout ..)

theorem scalefromu_completes (ha : f32dec dstMin = some a) (hb : f32dec dstMax = some b)
    (hs : srcMin.toNat < srcMax.toNat) (hab : a < b) (hlo : srcMin.toNat ≤ code.toNat)
    (hhi : code.toNat ≤ srcMax.toNat) :
    Completes (.scalefromu code srcMin srcMax dstMin dstMax) s s
      [f32enc (scaleFromUInt code.toNat srcMin.toNat srcMax.toNat a b)] :=
  calc exec (.scalefromu code srcMin srcMax dstMin dstMax) s
    _ = _ := exec_scalefromu_finite hs ha hb
    _ = _ := run_bind_of_ok (raiseIf_neg (not_le.mpr hab) ..)
    _ = _ := run_bind_of_ok (raiseIf_neg (not_or.mpr ⟨Nat.not_lt.mpr hlo, Nat.not_lt.mpr hhi⟩) ..)
    _ = _ := run_of_ok (pure_run _ _)

end

/-! ### The laws of the scale functions -/

section
variable {lo hi : ℚ} {c d : ℕ}

/-- `ScaleToUInt` is `floor(x + 1/2)` of the exact interpolation `x` (42_scale.md R163). -/
theorem scaleToUInt_eq_floor {v : ℚ} (hr : lo < hi) (hcd : c < d) (h1 : lo ≤ v) (h2 : v ≤ hi) :
    (scaleToUInt v lo hi c d : ℤ) = ⌊(c : ℚ) + (v - lo) * ((d : ℚ) - c) / (hi - lo) + 1 / 2⌋ :=
  rnd_cast ((Nat.cast_nonneg c).trans (scaleToUInt_exact hr hcd h1 h2).1)

theorem scaleToUInt_mono {v₁ v₂ : ℚ} (hr : lo < hi) (hcd : c < d) (hv : v₁ ≤ v₂) :
    scaleToUInt v₁ lo hi c d ≤ scaleToUInt v₂ lo hi c d := by
  have hr' : 0 ≤ hi - lo := sub_nonneg.mpr hr.le
  have hcd' : (0 : ℚ) ≤ d - c := sub_nonneg.mpr (Nat.cast_le.mpr hcd.le)
  exact rnd_mono (by gcongr)

theorem scaleFromUInt_mono {c₁ c₂ : ℕ} (hr : lo < hi) (hcd : c < d) (hc : c₁ ≤ c₂) :
    scaleFromUInt c₁ c d lo hi ≤ scaleFromUInt c₂ c d lo hi := by
  have hr' : 0 ≤ hi - lo := sub_nonneg.mpr hr.le
  have hcd' : (0 : ℚ) ≤ d - c := sub_nonneg.mpr (Nat.cast_le.mpr hcd.le)
  unfold scaleFromUInt
  gcongr

@[simp] theorem scaleFromUInt_first : scaleFromUInt c c d lo hi = lo := by simp [scaleFromUInt]

theorem scaleFromUInt_last (hcd : c < d) : scaleFromUInt d c d lo hi = hi := by
  have hcd' : (d : ℚ) - c ≠ 0 := sub_ne_zero.mpr (Nat.cast_injective.ne hcd.ne')
  rw [scaleFromUInt, mul_div_cancel_left₀ _ hcd']
  ring

/-- A code between the bounds stands for a value between the bounds (42_scale.md R164). -/
theorem scaleFromUInt_range {k : ℕ} (hr : lo < hi) (hcd : c < d) (h1 : c ≤ k) (h2 : k ≤ d) :
    lo ≤ scaleFromUInt k c d lo hi ∧ scaleFromUInt k c d lo hi ≤ hi :=
  ⟨scaleFromUInt_first.ge.trans (scaleFromUInt_mono hr hcd h1),
    (scaleFromUInt_mono hr hcd h2).trans (scaleFromUInt_last hcd).le⟩

/-- The error of a code, as a value, is its distance from the exact interpolation, in steps. -/
theorem scaleFromUInt_sub (k : ℕ) (v : ℚ) (hr : lo < hi) (hcd : c < d) :
    scaleFromUInt k c d lo hi - v =
      (k - (c + (v - lo) * ((d : ℚ) - c) / (hi - lo))) * ((hi - lo) / ((d : ℚ) - c)) := by
  have hr' : hi - lo ≠ 0 := sub_ne_zero.mpr hr.ne'
  have hcd' : (d : ℚ) - c ≠ 0 := sub_ne_zero.mpr (Nat.cast_injective.ne hcd.ne')
  unfold scaleFromUInt
  field_simp
  ring

/-- The round trip of a value errs by at most half a step (42_scale.md R167 (b)). -/
theorem scale_roundTrip_value {v : ℚ} (hr : lo < hi) (hcd : c < d) (h1 : lo ≤ v) (h2 : v ≤ hi) :
    |scaleFromUInt (scaleToUInt v lo hi c d) c d lo hi - v| ≤ (hi - lo) / ((d : ℚ) - c) / 2 := by
  have hx := (Nat.cast_nonneg c).trans (scaleToUInt_exact hr hcd h1 h2).1
  have hstep : 0 < (hi - lo) / ((d : ℚ) - c) :=
    div_pos (sub_pos.mpr hr) (sub_pos.mpr (Nat.cast_lt.mpr hcd))
  have hround : |(scaleToUInt v lo hi c d : ℚ) - (c + (v - lo) * ((d : ℚ) - c) / (hi - lo))| ≤ 1 / 2 := by
    have hle := rnd_le_add hx
    have hlt := lt_rnd_add hx
    rw [scaleToUInt, abs_le]
    constructor <;> linarith
  rw [scaleFromUInt_sub _ v hr hcd, abs_mul, abs_of_pos hstep]
  calc _ ≤ 1 / 2 * ((hi - lo) / ((d : ℚ) - c)) := mul_le_mul_of_nonneg_right hround hstep.le
    _ = _ := by ring

/-- The round trip of a code is exact (42_scale.md R167 (c)). -/
theorem scale_roundTrip_code (k : ℕ) (hr : lo < hi) (hcd : c < d) :
    scaleToUInt (scaleFromUInt k c d lo hi) lo hi c d = k := by
  have hr' : hi - lo ≠ 0 := sub_ne_zero.mpr hr.ne'
  have hcd' : (d : ℚ) - c ≠ 0 := sub_ne_zero.mpr (Nat.cast_injective.ne hcd.ne')
  have hexact : (c : ℚ) + (scaleFromUInt k c d lo hi - lo) * ((d : ℚ) - c) / (hi - lo) = k := by
    unfold scaleFromUInt
    field_simp
    ring
  rw [scaleToUInt, hexact, rnd_natCast]

end

end Sys2Proof.Machine
end

section
/-! SUPPORT. The binary32 format: the value of a word (42_scale.md R160, R161), the word `f32enc` chooses, and why no
binary32 value is nearer (R162). -/

namespace Sys2Proof.Machine

/-! ### The magnitudes

The magnitude of a binary32 word is that of its 31 low bits, and it grows with them. `2^23` words from a power of two on
share one step, `2^(k - 149)`; the first step, `k = 0`, serves the subnormal words too. -/

/-- The `k`-th step of the binary32 magnitudes (42_scale.md R161). -/
def f32unit (k : ℕ) : ℚ := pow2 (k - 149)

theorem f32unit_pos (k : ℕ) : 0 < f32unit k := pow2_pos _

theorem f32unit_add (k d : ℕ) : f32unit (k + d) = 2 ^ d * f32unit k := by
  have hexp : ((k + d : ℕ) : ℤ) - 149 = d + (k - 149) := by push_cast; ring
  rw [f32unit, hexp, pow2_add, pow2_eq d, zpow_natCast, f32unit]

theorem f32unit_succ (k : ℕ) : f32unit (k + 1) = 2 * f32unit k := by rw [f32unit_add, pow_one]

theorem two_mul_f32unit_le {j k : ℕ} (h : j < k) : 2 * f32unit j ≤ f32unit k := by
  rw [← f32unit_succ]
  exact pow2_le.mpr (by omega)

/-- The magnitude of the binary32 words whose low 31 bits are `n` (42_scale.md R160). -/
def f32mag (n : ℕ) : ℚ :=
  (n - (n / 2 ^ 23 - 1) * 2 ^ 23 : ℕ) * f32unit (n / 2 ^ 23 - 1)

/-- The sign of a binary32 value, from the sign bit of its word. -/
def f32sign (neg : Bool) : ℚ := if neg then -1 else 1

@[simp] theorem f32sign_mul_self (neg : Bool) : f32sign neg * f32sign neg = 1 := by cases neg <;> simp [f32sign]

theorem f32sign_xor (a b : Bool) : f32sign (a ^^ b) = f32sign a * f32sign b := by
  cases a <;> cases b <;> simp [f32sign]

theorem f32sign_neg_iff {neg : Bool} : f32sign neg < 0 ↔ neg = true := by cases neg <;> simp [f32sign]

theorem f32sign_injective : Function.Injective f32sign := fun a b h => by
  rw [Bool.eq_iff_iff, ← f32sign_neg_iff, ← f32sign_neg_iff, h]

theorem f32sign_ne_zero (neg : Bool) : f32sign neg ≠ 0 := left_ne_zero_of_mul_eq_one (f32sign_mul_self neg)

@[simp] theorem abs_f32sign (neg : Bool) : |f32sign neg| = 1 := by cases neg <;> simp [f32sign]

theorem f32sign_mul_abs (q : ℚ) : f32sign (decide (q < 0)) * |q| = q := by
  rcases lt_or_ge q 0 with h | h
  · simp [f32sign, h, abs_of_neg h]
  · simp [f32sign, not_lt.mpr h, abs_of_nonneg h]

/-- A sign taken out of a distance from `q`. -/
theorem abs_f32sign_mul_sub (q y : ℚ) : |f32sign (decide (q < 0)) * y - q| = |y - abs q| :=
  calc |f32sign (decide (q < 0)) * y - q| = |f32sign (decide (q < 0)) * (y - abs q)| := by
        rw [mul_sub, f32sign_mul_abs]
    _ = |y - abs q| := by rw [abs_mul, abs_f32sign, one_mul]

theorem abs_sub_eq_abs_f32sign_mul_sub (q x : ℚ) : |x - q| = |f32sign (decide (q < 0)) * x - abs q| := by
  rw [← abs_f32sign_mul_sub, ← mul_assoc, f32sign_mul_self, one_mul]

/-- The magnitude of `m` steps; `m = 2^24` is the first magnitude of the next step. -/
theorem f32mag_steps {k m : ℕ} (hm : m ≤ 2 ^ 24) (hk : k = 0 ∨ 2 ^ 23 ≤ m) :
    f32mag (k * 2 ^ 23 + m) = m * f32unit k := by
  rcases Nat.lt_or_ge m (2 ^ 24) with hlt | hge
  · have hstep : (k * 2 ^ 23 + m) / 2 ^ 23 - 1 = k := by omega
    rw [f32mag, hstep, Nat.add_sub_cancel_left]
  · obtain rfl : m = 2 ^ 24 := le_antisymm hm hge
    have hstep : (k * 2 ^ 23 + 2 ^ 24) / 2 ^ 23 - 1 = k + 1 := by omega
    have hrest : k * 2 ^ 23 + 2 ^ 24 - (k + 1) * 2 ^ 23 = 2 ^ 23 := by omega
    rw [f32mag, hstep, hrest, f32unit_succ]
    push_cast
    ring

/-- Every magnitude is less than `2^24` steps. -/
theorem exists_steps (n : ℕ) : ∃ k m, n = k * 2 ^ 23 + m ∧ m < 2 ^ 24 ∧ (k = 0 ∨ 2 ^ 23 ≤ m) :=
  ⟨n / 2 ^ 23 - 1, n - (n / 2 ^ 23 - 1) * 2 ^ 23, by omega, by omega, by omega⟩

theorem f32mag_strictMono : StrictMono f32mag := by
  refine strictMono_nat_of_lt_succ fun n => ?_
  obtain ⟨k, m, rfl, hm, hk⟩ := exists_steps n
  rw [f32mag_steps hm.le hk, Nat.add_assoc, f32mag_steps hm (by omega), Nat.cast_succ]
  linarith [f32unit_pos k]

@[simp] theorem f32mag_zero : f32mag 0 = 0 := by simp [f32mag]

theorem f32mag_nonneg (n : ℕ) : 0 ≤ f32mag n := by
  rw [← f32mag_zero]
  exact f32mag_strictMono.monotone (Nat.zero_le n)

theorem f32mag_eq_zero {n : ℕ} : f32mag n = 0 ↔ n = 0 := by
  rw [← f32mag_zero, f32mag_strictMono.injective.eq_iff]

/-! ### The words -/

theorem f32word_toNat {neg : Bool} {n : ℕ} (hn : n < 2 ^ 31) :
    (f32word neg n).toNat = (if neg then 2 ^ 31 else 0) + n := by
  rw [f32word, BitVec.toNat_ofNat]
  cases neg <;> simp <;> omega

/-- Every word is a sign bit over 31 bits. -/
theorem exists_f32word (w : Word) : ∃ neg n, n < 2 ^ 31 ∧ w = f32word neg n := by
  refine ⟨decide (2 ^ 31 ≤ w.toNat), w.toNat % 2 ^ 31, Nat.mod_lt _ (by norm_num), BitVec.eq_of_toNat_eq ?_⟩
  have hw := w.isLt
  rw [f32word_toNat (Nat.mod_lt _ (by norm_num))]
  simp only [decide_eq_true_eq]
  split <;> omega

theorem f32word_getLsbD_zero (neg : Bool) (n : ℕ) : (f32word neg n).getLsbD 0 = decide (n % 2 = 1) := by
  rw [f32word, BitVec.getLsbD_ofNat, Nat.testBit_zero]
  cases neg <;> simp
  omega

/-- The value of a word: finite below the exponent field 255, and then its sign and its magnitude (42_scale.md R160,
R161). -/
theorem f32dec_f32word {neg : Bool} {n : ℕ} (hn : n < 2 ^ 31) :
    f32dec (f32word neg n) = if n < 255 * 2 ^ 23 then some (f32sign neg * f32mag n) else none := by
  have hs : bitField (f32word neg n) 31 31 = 1 ↔ neg = true := by
    rw [bitField, f32word_toNat hn]
    cases neg <;> simp <;> omega
  have he : bitField (f32word neg n) 30 23 = n / 2 ^ 23 := by
    rw [bitField, f32word_toNat hn]
    cases neg <;> simp <;> omega
  have hm : bitField (f32word neg n) 22 0 = n % 2 ^ 23 := by
    rw [bitField, f32word_toNat hn]
    cases neg <;> simp
    omega
  simp only [f32dec, hs, he, hm, scaled_eq, Bool.decide_eq_true]
  by_cases htop : n / 2 ^ 23 = 255
  · rw [if_pos htop, if_neg (by omega)]
  rw [if_neg htop, if_pos (show n < 255 * 2 ^ 23 by omega), f32sign, f32mag, f32unit, mul_assoc, mul_assoc]
  by_cases hsub : n / 2 ^ 23 = 0
  · have hrest : n - (n / 2 ^ 23 - 1) * 2 ^ 23 = n % 2 ^ 23 := by omega
    rw [if_pos hsub, hrest, hsub]
    norm_num
  · have hrest : n - (n / 2 ^ 23 - 1) * 2 ^ 23 = 2 ^ 23 + n % 2 ^ 23 := by omega
    have hexp : ((n / 2 ^ 23 - 1 : ℕ) : ℤ) - 149 = (n / 2 ^ 23 : ℕ) - 150 := by omega
    rw [if_neg hsub, hrest, hexp]

/-- The binary32 values (42_scale.md R161). -/
theorem isFloat32_iff {x : ℚ} : IsFloat32 x ↔ ∃ neg n, n < 255 * 2 ^ 23 ∧ x = f32sign neg * f32mag n := by
  constructor
  · rintro ⟨w, hw⟩
    obtain ⟨neg, n, hn, rfl⟩ := exists_f32word w
    rw [f32dec_f32word hn] at hw
    split at hw
    · exact ⟨neg, n, ‹_›, (Option.some.inj hw).symm⟩
    · cases hw
  · rintro ⟨neg, n, hn, rfl⟩
    exact ⟨f32word neg n, by rw [f32dec_f32word (by omega), if_pos hn]⟩

theorem IsFloat32.f32sign_mul {x : ℚ} (hx : IsFloat32 x) (neg : Bool) : IsFloat32 (f32sign neg * x) := by
  obtain ⟨neg', n, hn, rfl⟩ := isFloat32_iff.mp hx
  exact isFloat32_iff.mpr ⟨neg ^^ neg', n, hn, by rw [f32sign_xor, mul_assoc]⟩

/-- A word is known by its value, but for the two zeros. -/
theorem eq_of_f32dec_eq {w w' : Word} {q : ℚ} (hw : f32dec w = some q) (hw' : f32dec w' = some q) (hq : q ≠ 0) :
    w = w' := by
  obtain ⟨neg, n, hn, rfl⟩ := exists_f32word w
  obtain ⟨neg', n', hn', rfl⟩ := exists_f32word w'
  rw [f32dec_f32word hn, Option.ite_none_right_eq_some] at hw
  rw [f32dec_f32word hn', Option.ite_none_right_eq_some] at hw'
  have h := Option.some.inj hw.2
  have h' := Option.some.inj hw'.2
  have hnn : n = n' := f32mag_strictMono.injective <| by
    have habs := congrArg abs (h.trans h'.symm)
    simpa [abs_mul, abs_of_nonneg, f32mag_nonneg] using habs
  subst hnn
  have hmag : f32mag n ≠ 0 := fun h0 => hq (by rw [← h, h0, mul_zero])
  have hsign := mul_right_cancel₀ hmag (h.trans h'.symm)
  rw [f32sign_injective hsign]

/-! ### Values and steps -/

/-- On the steps of a power of two, a binary32 value is a whole number of steps or lies below that power. -/
theorem IsFloat32.steps {x : ℚ} (hx : IsFloat32 x) (k : ℕ) :
    (∃ j : ℤ, x = j * f32unit k) ∨ (k ≠ 0 ∧ |x| < 2 ^ 23 * f32unit k) := by
  obtain ⟨neg, n, -, rfl⟩ := isFloat32_iff.mp hx
  obtain ⟨k', m, rfl, hm, hk'⟩ := exists_steps n
  rw [f32mag_steps hm.le hk']
  rcases Nat.lt_or_ge k' k with hlt | hge
  · right
    refine ⟨by omega, ?_⟩
    have hm' : (m : ℚ) < 2 ^ 24 := by exact_mod_cast hm
    have hu := f32unit_pos k'
    have hnext := two_mul_f32unit_le hlt
    rw [abs_mul, abs_f32sign, one_mul, abs_of_nonneg (mul_nonneg m.cast_nonneg hu.le)]
    calc m * f32unit k' < 2 ^ 24 * f32unit k' := mul_lt_mul_of_pos_right hm' hu
      _ = 2 ^ 23 * (2 * f32unit k') := by ring
      _ ≤ 2 ^ 23 * f32unit k := by gcongr
  · left
    obtain ⟨d, rfl⟩ := Nat.exists_eq_add_of_le hge
    refine ⟨(if neg then -1 else 1) * m * 2 ^ d, ?_⟩
    rw [f32unit_add, f32sign]
    push_cast
    ring

/-- The largest magnitude (42_scale.md R161). -/
theorem IsFloat32.abs_le {x : ℚ} (hx : IsFloat32 x) : |x| ≤ (2 ^ 24 - 1 : ℕ) * f32unit 253 := by
  obtain ⟨neg, n, hn, rfl⟩ := isFloat32_iff.mp hx
  have htop : f32mag (253 * 2 ^ 23 + (2 ^ 24 - 1)) = (2 ^ 24 - 1 : ℕ) * f32unit 253 :=
    f32mag_steps (by norm_num) (by norm_num)
  rw [abs_mul, abs_f32sign, one_mul, abs_of_nonneg (f32mag_nonneg n), ← htop]
  exact f32mag_strictMono.monotone (by omega)

/-! ### The word of a rational -/

/-- The step that R162 encodes a magnitude `a` on. -/
def f32step (a : ℚ) : ℕ := (expo a + 126).toNat

/-- The exact number of steps in a magnitude `a`. -/
def f32steps (a : ℚ) : ℚ := a / f32unit (f32step a)

/-- The low 31 bits that R162 gives to a magnitude `a`. -/
def f32code (a : ℚ) : ℕ := f32step a * 2 ^ 23 + rne (f32steps a)

theorem le_expo_of_f32step_ne_zero {a : ℚ} (hk : f32step a ≠ 0) : -126 ≤ expo a := by
  unfold f32step at hk
  omega

theorem f32steps_mul {a : ℚ} : f32steps a * f32unit (f32step a) = a := div_mul_cancel₀ _ (f32unit_pos _).ne'

theorem f32steps_pos {a : ℚ} (ha : 0 < a) : 0 < f32steps a := div_pos ha (f32unit_pos _)

/-- `a` is less than `2^24` of its steps, and at least `2^23` but for the subnormal range. -/
theorem f32steps_range {a : ℚ} (ha : 0 < a) :
    f32steps a < 2 ^ 24 ∧ (-126 ≤ expo a → 2 ^ 23 ≤ f32steps a) := by
  obtain ⟨hlo, hhi⟩ := expo_spec ha
  have hpow : ∀ n : ℕ, 2 ^ n * f32unit (f32step a) = pow2 (n + (f32step a - 149)) := fun n => by
    rw [f32unit, pow2_add, pow2_eq n, zpow_natCast]
  rw [f32steps, div_lt_iff₀ (f32unit_pos _), le_div_iff₀ (f32unit_pos _), hpow, hpow]
  constructor
  · refine hhi.trans_le (pow2_le.mpr ?_)
    unfold f32step
    omega
  · refine fun hnorm => le_trans (pow2_le.mpr ?_) hlo
    unfold f32step
    omega

/-- Rounding to whole steps keeps these two bounds. -/
theorem rne_f32steps {a : ℚ} (ha : 0 < a) :
    rne (f32steps a) ≤ 2 ^ 24 ∧ (-126 ≤ expo a → 2 ^ 23 ≤ rne (f32steps a)) := by
  obtain ⟨hhi, hlo⟩ := f32steps_range ha
  constructor
  · have hle : f32steps a ≤ (2 ^ 24 : ℕ) := by exact_mod_cast hhi.le
    exact (rne_mono (f32steps_pos ha).le hle).trans_eq (rne_natCast _)
  · intro hnorm
    have hge : ((2 ^ 23 : ℕ) : ℚ) ≤ f32steps a := by exact_mod_cast hlo hnorm
    exact (rne_natCast _).ge.trans (rne_mono (Nat.cast_nonneg _) hge)

theorem f32mag_f32code {a : ℚ} (ha : 0 < a) : f32mag (f32code a) = rne (f32steps a) * f32unit (f32step a) :=
  f32mag_steps (rne_f32steps ha).1 <| (eq_or_ne (f32step a) 0).imp_right fun hk =>
    (rne_f32steps ha).2 (le_expo_of_f32step_ne_zero hk)

/-- The two branches of R162, for the subnormal range and above it, in one form. -/
theorem f32enc_of_ne_zero {q : ℚ} (hq : q ≠ 0) :
    f32enc q = if f32code |q| = 0 then 0#32 else f32word (decide (q < 0)) (f32code |q|) := by
  obtain ⟨-, hlow⟩ := rne_f32steps (abs_pos.mpr hq)
  simp only [f32enc, if_neg hq]
  rcases lt_or_ge (expo |q|) (-126) with hsub | hnorm
  · have hstep : f32step |q| = 0 := by unfold f32step; omega
    have hsteps : |q| * pow2 149 = f32steps |q| := by
      rw [f32steps, hstep, f32unit, div_eq_mul_inv, pow2_eq, pow2_eq, ← zpow_neg]
      norm_num
    rw [if_pos hsub]
    simp only [f32code, hstep, hsteps, zero_mul, zero_add, BitVec.ofNat_eq_ofNat]
  · have hunit : expo |q| - 23 = f32step |q| - 149 := by unfold f32step; omega
    have hsteps : |q| / pow2 (expo |q| - 23) = f32steps |q| := by rw [hunit]; rfl
    have hfield : (expo |q| + 127).toNat = f32step |q| + 1 := by unfold f32step; omega
    have hnext : (expo |q| + 1 + 127).toNat = f32step |q| + 2 := by unfold f32step; omega
    have hge := hlow hnorm
    rw [if_neg (not_lt.mpr hnorm), hsteps, hfield, hnext, f32code]
    generalize rne (f32steps |q|) = m at hge ⊢
    generalize f32step |q| = k
    have hpos : k * 2 ^ 23 + m ≠ 0 := by omega
    rw [if_neg hpos]
    split
    · next hm =>
        have hsum : (k + 2) * 2 ^ 23 = k * 2 ^ 23 + m := by omega
        rw [hsum]
    · have hsum : (k + 1) * 2 ^ 23 + (m - 2 ^ 23) = k * 2 ^ 23 + m := by omega
      rw [hsum]

/-! ### The nearest value -/

/-- No integer is nearer than `rne`, and one that is as near is the same or `rne` is even (42_scale.md R162). -/
theorem rne_nearest {q : ℚ} (hq : 0 ≤ q) (j : ℤ) :
    |(rne q : ℚ) - q| ≤ |j - q| ∧ (j ≠ rne q → |(j : ℚ) - q| = |(rne q : ℚ) - q| → rne q % 2 = 0) := by
  obtain ⟨hhalf, heven⟩ := rne_spec hq
  rcases eq_or_ne j (rne q) with rfl | hj
  · simp
  have hone : (1 : ℚ) ≤ |(j : ℚ) - rne q| := by exact_mod_cast Int.one_le_abs (sub_ne_zero.mpr hj)
  have hsplit : |(j : ℚ) - rne q| ≤ |(j : ℚ) - q| + |(rne q : ℚ) - q| := by
    rw [abs_sub_comm (rne q : ℚ) q]
    exact abs_sub_le ..
  exact ⟨by linarith, fun _ heq => heven (by linarith)⟩

/-- No binary32 value is nearer to a magnitude than the one R162 gives it, and one that is as near is the same or the
word is even. -/
theorem f32code_nearest {a x : ℚ} (ha : 0 < a) (hx : IsFloat32 x) :
    |f32mag (f32code a) - a| ≤ |x - a| ∧
      (x ≠ f32mag (f32code a) → |x - a| = |f32mag (f32code a) - a| → f32code a % 2 = 0) := by
  have hu := f32unit_pos (f32step a)
  have hdist : ∀ y : ℚ, |y * f32unit (f32step a) - a| = |y - f32steps a| * f32unit (f32step a) := fun y =>
    calc |y * f32unit (f32step a) - a| = |(y - f32steps a) * f32unit (f32step a)| := by rw [sub_mul, f32steps_mul]
      _ = |y - f32steps a| * f32unit (f32step a) := by rw [abs_mul, abs_of_pos hu]
  have hnear := rne_nearest (f32steps_pos ha).le
  rw [f32mag_f32code ha]
  rcases hx.steps (f32step a) with ⟨j, rfl⟩ | ⟨hk, hsmall⟩
  · rw [hdist, hdist]
    refine ⟨mul_le_mul_of_nonneg_right (hnear j).1 hu.le, fun hne heq => ?_⟩
    have heven := (hnear j).2 (fun h => hne (by rw [h, Int.cast_natCast])) (mul_right_cancel₀ hu.ne' heq)
    unfold f32code
    omega
  · have hpower : 2 ^ 23 * f32unit (f32step a) ≤ a :=
      (mul_le_mul_of_nonneg_right ((f32steps_range ha).2 (le_expo_of_f32step_ne_zero hk)) hu.le).trans_eq f32steps_mul
    have hlt : |((2 ^ 23 : ℤ) : ℚ) * f32unit (f32step a) - a| < |x - a| := by
      have hxle := le_abs_self x
      push_cast
      rw [abs_of_nonpos (by linarith), abs_of_nonpos (by linarith)]
      linarith
    have hcode : |(rne (f32steps a) : ℚ) * f32unit (f32step a) - a| < |x - a| := by
      refine lt_of_le_of_lt ?_ hlt
      rw [hdist, hdist]
      exact mul_le_mul_of_nonneg_right (hnear _).1 hu.le
    exact ⟨hcode.le, fun _ heq => absurd heq hcode.ne'⟩

/-- Within the finite range the word is a finite one: rounding does not pass a binary32 bound (42_scale.md R162). -/
theorem f32code_lt {a b : ℚ} (ha : 0 < a) (hb : IsFloat32 b) (hab : a ≤ |b|) : f32code a < 255 * 2 ^ 23 := by
  have htop : a ≤ (2 ^ 24 - 1 : ℕ) * f32unit 253 := hab.trans hb.abs_le
  obtain ⟨hm, -⟩ := rne_f32steps ha
  have hstep : f32step a ≤ 253 := by
    by_contra hgt
    have hsteps := (f32steps_range ha).2 (le_expo_of_f32step_ne_zero (by omega))
    have hlow := (mul_le_mul_of_nonneg_right hsteps (f32unit_pos _).le).trans_eq f32steps_mul
    have hnext := two_mul_f32unit_le (not_le.mp hgt)
    have hu := f32unit_pos 253
    norm_num at htop
    linarith
  unfold f32code
  rcases Nat.lt_or_ge (f32step a) 253 with hlt | hge
  · omega
  · have hle : f32steps a ≤ (2 ^ 24 - 1 : ℕ) := by
      rwa [f32steps, le_antisymm hstep hge, div_le_iff₀ (f32unit_pos _)]
    have hrne := (rne_mono (f32steps_pos ha).le hle).trans_eq (rne_natCast _)
    omega

@[simp] theorem f32enc_zero : f32enc 0 = 0#32 := by simp [f32enc]

@[simp] theorem f32dec_zero : f32dec 0#32 = some 0 :=
  (f32dec_f32word (neg := false) (n := 0) (by norm_num)).trans (by simp)

/-- The value of the word of a rational within the finite range. -/
theorem f32dec_f32enc {q b : ℚ} (hq : q ≠ 0) (hb : IsFloat32 b) (hqb : |q| ≤ |b|) :
    f32dec (f32enc q) = some (f32sign (decide (q < 0)) * f32mag (f32code |q|)) := by
  have hfin := f32code_lt (abs_pos.mpr hq) hb hqb
  rw [f32enc_of_ne_zero hq]
  split
  · next h0 => rw [h0, f32mag_zero, mul_zero, f32dec_zero]
  · rw [f32dec_f32word (by omega), if_pos hfin]

theorem f32enc_getLsbD_zero {q : ℚ} (hq : q ≠ 0) : (f32enc q).getLsbD 0 = decide (f32code |q| % 2 = 1) := by
  rw [f32enc_of_ne_zero hq]
  split
  · next h0 => simp [h0]
  · exact f32word_getLsbD_zero ..

/-- `f32enc` gives the nearest binary32 word within the finite range (42_scale.md R162). -/
theorem f32enc_nearest {q b : ℚ} (hb : IsFloat32 b) (hqb : |q| ≤ |b|) :
    ∃ r, f32dec (f32enc q) = some r ∧ (∀ x, IsFloat32 x → |r - q| ≤ |x - q|) ∧
      (∀ x, IsFloat32 x → x ≠ r → |x - q| = |r - q| → (f32enc q).getLsbD 0 = false) ∧
      (r = 0 → f32enc q = 0#32) := by
  rcases eq_or_ne q 0 with rfl | hq
  · exact ⟨0, by simp, by simp, by simp, by simp⟩
  have ha := abs_pos.mpr hq
  refine ⟨_, f32dec_f32enc hq hb hqb, fun x hx => ?_, fun x hx hne heq => ?_, fun h0 => ?_⟩
  · rw [abs_f32sign_mul_sub, abs_sub_eq_abs_f32sign_mul_sub q x]
    exact (f32code_nearest ha (hx.f32sign_mul _)).1
  · rw [abs_f32sign_mul_sub, abs_sub_eq_abs_f32sign_mul_sub q x] at heq
    have hne' : f32sign (decide (q < 0)) * x ≠ f32mag (f32code |q|) := fun h =>
      hne (by rw [← h, ← mul_assoc, f32sign_mul_self, one_mul])
    have heven := (f32code_nearest ha (hx.f32sign_mul _)).2 hne' heq
    rw [f32enc_getLsbD_zero hq, heven]
    rfl
  · rw [f32enc_of_ne_zero hq, if_pos (f32mag_eq_zero.mp ((mul_eq_zero.mp h0).resolve_left (f32sign_ne_zero _)))]

/-- A word of value 0 other than negative zero. -/
theorem eq_zero_of_f32dec_eq_zero {w : Word} (hw : f32dec w = some 0) (hneg : w ≠ 0x80000000#32) : w = 0#32 := by
  obtain ⟨neg, n, hn, rfl⟩ := exists_f32word w
  rw [f32dec_f32word hn, Option.ite_none_right_eq_some] at hw
  have hmag := (mul_eq_zero.mp (Option.some.inj hw.2)).resolve_left (f32sign_ne_zero _)
  obtain rfl := f32mag_eq_zero.mp hmag
  cases neg
  · rfl
  · exact absurd rfl hneg

/-- Encoding gives back the word that a value came from, but for negative zero (42_scale.md R162). -/
theorem f32enc_f32dec {w : Word} {q : ℚ} (hw : f32dec w = some q) (hneg : w ≠ 0x80000000#32) : f32enc q = w := by
  rcases eq_or_ne q 0 with rfl | hq
  · rw [f32enc_zero, eq_zero_of_f32dec_eq_zero hw hneg]
  obtain ⟨r, hr, hnear, -⟩ := f32enc_nearest (q := q) ⟨w, hw⟩ le_rfl
  have hrq : |r - q| ≤ 0 := (hnear q ⟨w, hw⟩).trans_eq (by rw [sub_self, abs_zero])
  obtain rfl : r = q := sub_eq_zero.mp (abs_nonpos_iff.mp hrq)
  exact eq_of_f32dec_eq hr hw hq

/-- A value nearest to `r` errs from a binary32 value `v` by at most twice what `r` does (42_scale.md R167 (d)). -/
theorem f32enc_error_le {r v b e : ℚ} (hb : IsFloat32 b) (hrb : |r| ≤ |b|) (hv : IsFloat32 v) (hrv : |r - v| ≤ e / 2) :
    ∃ q, f32dec (f32enc r) = some q ∧ |q - v| ≤ e := by
  obtain ⟨q, hq, hnear, -⟩ := f32enc_nearest hb hrb
  refine ⟨q, hq, ?_⟩
  calc |q - v| ≤ |q - r| + |r - v| := abs_sub_le ..
    _ ≤ |v - r| + |r - v| := add_le_add_left (hnear v hv) _
    _ ≤ e := by rw [abs_sub_comm v r]; linarith

/-- Between two binary32 values, one of them bounds the absolute value. -/
theorem IsFloat32.exists_abs_le {lo hi r : ℚ} (hlo : IsFloat32 lo) (hhi : IsFloat32 hi) (h1 : lo ≤ r) (h2 : r ≤ hi) :
    ∃ b, IsFloat32 b ∧ |r| ≤ |b| := by
  rcases le_max_iff.mp (abs_le_max_abs_abs h1 h2) with h | h
  · exact ⟨lo, hlo, h⟩
  · exact ⟨hi, hhi, h⟩

end Sys2Proof.Machine
end

section
/-! The statements about the pure functions of 42_scale.md. -/

namespace Sys2Proof.Machine

/-- Settles O36: one lemma about `SCALETOU` per way it ends. -/
theorem scaletouInterpolatesAndRounds : Obligations.ScaletouInterpolatesAndRounds :=
  fun _ _ _ _ _ _ => ⟨rfl, scaletou_rejects_value, fun _ hv => ⟨scaletou_rejects_srcMin hv, fun _ ha =>
    ⟨scaletou_rejects_srcMax hv ha, fun _ hb => ⟨scaletou_rejects_srcRange hv ha hb,
      scaletou_rejects_dstRange hv ha hb, scaletou_rejects_outside hv ha hb, fun hab hd hlo hhi =>
        have hrange := scaleToUInt_range hab hd hlo hhi
        ⟨_, hrange.1, hrange.2, scaleToUInt_eq_floor hab hd hlo hhi,
          scaletou_completes hv ha hb hab hd hlo hhi⟩⟩⟩⟩⟩

/-- Settles O37: one lemma about `SCALEFROMU` per way it ends. -/
theorem scalefromuInterpolates : Obligations.ScalefromuInterpolates :=
  fun _ _ _ _ _ _ => ⟨rfl, scalefromu_rejects_srcRange, fun hs => ⟨scalefromu_rejects_dstMin hs, fun _ ha =>
    ⟨scalefromu_rejects_dstMax hs ha, fun _ hb => ⟨scalefromu_rejects_dstRange hs ha hb,
      scalefromu_rejects_outside hs ha hb, scalefromu_completes ha hb hs⟩⟩⟩⟩

/-- Settles O52: `f32enc` rounds to a whole number of steps, and every binary32 value is one or is too small to be
nearer; a word is then the only one with its value. -/
theorem floatEncodingIsNearest : Obligations.FloatEncodingIsNearest :=
  ⟨fun _ _ hb hqb => f32enc_nearest hb (hqb.trans (le_abs_self _)), fun _ _ => f32enc_f32dec⟩

/-- Settles O53: the exact laws, and the law of the encoded value from the nearness of `f32enc`. -/
theorem scaleFunctionsObeyTheirLaws : Obligations.ScaleFunctionsObeyTheirLaws := by
  intro lo hi c d hr hcd
  refine ⟨fun _ _ _ hv _ => scaleToUInt_mono hr hcd hv, fun _ _ _ hc _ => scaleFromUInt_mono hr hcd hc,
    fun _ => scale_roundTrip_value hr hcd, fun k _ _ => scale_roundTrip_code k hr hcd, ?_⟩
  intro hlo hhi v hv h1 h2
  obtain ⟨hcode1, hcode2⟩ := scaleToUInt_range hr hcd h1 h2
  obtain ⟨hr1, hr2⟩ := scaleFromUInt_range hr hcd hcode1 hcode2
  obtain ⟨b, hb, hrb⟩ := hlo.exists_abs_le hhi hr1 hr2
  exact f32enc_error_le hb hrb hv (scale_roundTrip_value hr hcd h1 h2)

end Sys2Proof.Machine
end

section
/-! SUPPORT. What `FCFG`, `FPACK` and `FUNPACK` answer, one lemma per way each of them ends (43_floatpacker.md R180 to
R183). -/

namespace Sys2Proof.Machine

variable {s : State} {slot : Nat} {ax : Axis}

/-! ### The slot of a FloatPacker -/

theorem State.slotAs_eq_bind {α : Type} (s : State) (slot : Nat) (view : Descriptor → Option α) :
    s.slotAs slot view = s.slots[slot]?.bind view := by
  unfold State.slotAs
  cases s.slots[slot]? <;> rfl

theorem Descriptor.asFloat_eq_some_iff {e : Descriptor} : e.asFloat = some ax ↔ e = .float ax := by
  cases e <;> simp [Descriptor.asFloat]

theorem slotAs_asFloat_eq_some_iff : s.slotAs slot Descriptor.asFloat = some ax ↔ s.slots[slot]? = some (.float ax) := by
  simp only [State.slotAs_eq_bind, Option.bind_eq_some_iff, Descriptor.asFloat_eq_some_iff, exists_eq_right]

theorem slotAs_asFloat_eq_none (h : ∀ ax, s.slots[slot]? ≠ some (.float ax)) :
    s.slotAs slot Descriptor.asFloat = none :=
  Option.eq_none_iff_forall_ne_some.mpr fun ax hax => h ax (slotAs_asFloat_eq_some_iff.mp hax)

theorem requireSlot_float (h : s.slots[slot]? = some (.float ax)) : requireSlot slot Descriptor.asFloat s = .ok ax s :=
  requireSlot_some (slotAs_asFloat_eq_some_iff.mpr h)

theorem State.Inv.axis_ok (hs : s.Inv) (h : s.slots[slot]? = some (.float ax)) : ax.Ok :=
  hs.slots _ (List.mem_of_getElem? h)

/-! ### `FCFG` -/

theorem setSlot_run (slot : Nat) (d : Descriptor) : setSlot slot d s = .ok () { s with slots := s.slots.set slot d } :=
  rfl

section
variable {max precision : Word}

theorem fcfg_rejects_slot (hslot : s.slots.length ≤ slot) :
    Rejects (.fcfg slot max precision) s .invalidArgument 0x84 :=
  run_bind_of_raised (requireSlotIndex_none hslot)

theorem fcfg_rejects_operand {info : Byte} (hslot : slot < s.slots.length)
    (h : AxisRefused 0 1 max precision info) : Rejects (.fcfg slot max precision) s .invalidArgument info :=
  (run_bind_of_ok (requireSlotIndex_ok hslot)).trans (run_bind_of_raised (axisDerive_raised h s))

theorem fcfg_completes (hslot : slot < s.slots.length) (h : AxisAccepted max precision ax) :
    Completes (.fcfg slot max precision) s { s with slots := s.slots.set slot (.float ax) } [] :=
  calc exec (.fcfg slot max precision) s
    _ = _ := run_bind_of_ok (requireSlotIndex_ok hslot)
    _ = _ := run_bind_of_ok (axisDerive_ok h s)
    _ = _ := run_bind_of_ok (setSlot_run slot (.float ax))
    _ = _ := run_of_ok (pure_run _ _)

end

/-! ### `FPACK` -/

section
variable {value : Word} {v : ℚ}

theorem fpack_rejects_slot (hl : s.w.lifecycle = .live) (hno : ∀ ax, s.slots[slot]? ≠ some (.float ax)) :
    Rejects (.fpack slot value) s .invalidArgument 0x84 :=
  (run_bind_of_ok (requireWriter_live hl)).trans (run_bind_of_raised (requireSlot_none (slotAs_asFloat_eq_none hno)))

theorem fpack_rejects_value {kind : FaultKind} {info : Byte} (hl : s.w.lifecycle = .live)
    (hax : s.slots[slot]? = some (.float ax)) (hv : ValueRefused ax 0 value kind info) :
    Rejects (.fpack slot value) s kind info :=
  calc exec (.fpack slot value) s
    _ = _ := run_bind_of_ok (requireWriter_live hl)
    _ = _ := run_bind_of_ok (requireSlot_float hax)
    _ = _ := run_bind_of_raised (axisCheck_raised hv s)

/-- `FPACK` once its value is accepted: the capacity check and the field are left. -/
theorem exec_fpack_accepted (hl : s.w.lifecycle = .live) (hax : s.slots[slot]? = some (.float ax))
    (hv : ValueAccepted ax value v) :
    exec (.fpack slot value) s = run (do
      reserve ax.bitCount
      axisEmit ax v
      pure []) s :=
  calc exec (.fpack slot value) s
    _ = _ := run_bind_of_ok (requireWriter_live hl)
    _ = _ := run_bind_of_ok (requireSlot_float hax)
    _ = _ := run_bind_of_ok (axisCheck_ok hv s)

theorem fpack_poisons_full (hl : s.w.lifecycle = .live) (hax : s.slots[slot]? = some (.float ax))
    (hv : ValueAccepted ax value v) (hfull : s.w.cap < s.w.wbit + ax.bitCount) :
    PoisonsWriter (.fpack slot value) s .overflow 0xFF
      [BitVec.ofNat 32 ax.bitCount, BitVec.ofNat 32 (s.w.cap - s.w.wbit)] :=
  poisonsWriter_of_exec ((exec_fpack_accepted hl hax hv).trans (run_bind_of_raised (reserve_full hfull)))

theorem fpack_completes (hs : s.Inv) (hl : s.w.lifecycle = .live) (hax : s.slots[slot]? = some (.float ax))
    (hv : ValueAccepted ax value v) (hfit : s.w.wbit + ax.bitCount ≤ s.w.cap) :
    Completes (.fpack slot value) s (s.appended (axisField ax v) ax.bitCount) [] :=
  calc exec (.fpack slot value) s
    _ = _ := exec_fpack_accepted hl hax hv
    _ = _ := run_bind_of_ok (reserve_ok hfit)
    _ = _ := run_bind_of_ok (axisEmit_ok hs.writer.ready (hs.axis_ok hax) hfit)
    _ = _ := run_of_ok (pure_run _ _)

theorem fpack_appends (hs : s.Inv) (hl : s.w.lifecycle = .live) (hax : s.slots[slot]? = some (.float ax))
    (hv : ValueAccepted ax value v) : Appends (.fpack slot value) s ax.bitCount (axisField ax v) :=
  ⟨fpack_poisons_full hl hax hv,
    fun hfit => ⟨_, stored_appended hs.writer.ready hfit, fpack_completes hs hl hax hv hfit⟩⟩

end

/-! ### `FUNPACK` -/

theorem funpack_rejects_slot (hl : s.r.lifecycle = .live) (hno : ∀ ax, s.slots[slot]? ≠ some (.float ax)) :
    Rejects (.funpack slot) s .invalidArgument 0x84 :=
  (run_bind_of_ok (requireReader_live hl)).trans (run_bind_of_raised (requireSlot_none (slotAs_asFloat_eq_none hno)))

theorem funpack_poisons_short (hl : s.r.lifecycle = .live) (hax : s.slots[slot]? = some (.float ax))
    (hshort : s.r.limit < s.r.rbit + ax.bitCount) :
    PoisonsReader (.funpack slot) s .underflow 0xFF
      [BitVec.ofNat 32 ax.bitCount, BitVec.ofNat 32 (s.r.limit - s.r.rbit)] :=
  poisonsReader_of_exec <|
    calc exec (.funpack slot) s
      _ = _ := run_bind_of_ok (requireReader_live hl)
      _ = _ := run_bind_of_ok (requireSlot_float hax)
      _ = _ := run_bind_of_raised (require_short hshort)

theorem funpack_completes (hs : s.Inv) (hl : s.r.lifecycle = .live) (hax : s.slots[slot]? = some (.float ax))
    (hfit : s.r.rbit + ax.bitCount ≤ s.r.limit) :
    Completes (.funpack slot) s (s.consumed ax.bitCount)
      [f32enc (axisValue ax (s.r.mem.read s.r.rbit ax.bitCount))] :=
  calc exec (.funpack slot) s
    _ = _ := run_bind_of_ok (requireReader_live hl)
    _ = _ := run_bind_of_ok (requireSlot_float hax)
    _ = _ := run_bind_of_ok (require_ok hfit)
    _ = _ := run_bind_of_ok (axisTake_ok (hs.axis_ok hax).widthRange hs.reader.limitFits hfit)
    _ = _ := run_of_ok (pure_run _ _)

theorem funpack_consumes (hs : s.Inv) (hl : s.r.lifecycle = .live) (hax : s.slots[slot]? = some (.float ax)) :
    Consumes (.funpack slot) s ax.bitCount [f32enc (axisValue ax (s.r.mem.read s.r.rbit ax.bitCount))] :=
  ⟨funpack_poisons_short hl hax, funpack_completes hs hl hax⟩

end Sys2Proof.Machine
end

section
/-! SUPPORT. The laws of an axis (43_floatpacker.md R184): its step, the exact value that the field of a value stands
for, and that value encoded once. -/

namespace Sys2Proof.Machine

variable {ax : Axis} {v : ℚ}

/-! ### The step -/

/-- The largest code is at least the number of steps of the precision, and there is one (10_state.md R42). -/
theorem Axis.Ok.steps_range (h : ax.Ok) : 1 ≤ ⌈ax.max / ax.prec⌉ ∧ (⌈ax.max / ax.prec⌉ : ℚ) ≤ 2 ^ ax.mag - 1 := by
  have hone := one_le_ceil_div h.maxPos h.precPos
  obtain ⟨-, -, -, hlt⟩ := bitCountFromRange_spec hone h.stepsFit
  have hle : ⌈ax.max / ax.prec⌉ ≤ 2 ^ ax.mag - 1 := Int.le_sub_one_of_lt (h.width ▸ hlt)
  exact ⟨hone, by exact_mod_cast hle⟩

/-- R184 (a). -/
theorem Axis.Ok.step_le (h : ax.Ok) : ax.max / (2 ^ ax.mag - 1) ≤ ax.max / (⌈ax.max / ax.prec⌉ : ℚ) ∧
    ax.max / (⌈ax.max / ax.prec⌉ : ℚ) ≤ ax.prec := by
  obtain ⟨hone, hle⟩ := h.steps_range
  have hpos : (0 : ℚ) < ⌈ax.max / ax.prec⌉ := by exact_mod_cast hone
  exact ⟨div_le_div_of_nonneg_left h.maxPos.le hpos hle,
    (div_le_comm₀ hpos h.precPos).mpr (Int.le_ceil _)⟩

theorem Axis.Ok.maxCode_pos (h : ax.Ok) : 0 < maxCode ax.mag := Machine.maxCode_pos h.widthRange.1

/-! ### The exact value of a field -/

theorem axisField_sign (ax : Axis) (v : ℚ) : axisField ax v % 2 = 1 ↔ v < 0 := by
  rw [axisField_eq, Nat.add_mul_mod_self_left, signBit]
  split <;> simp [*]

/-- The field of a value stands for the value of its code, with its sign (43_floatpacker.md R186, R187). -/
theorem axisValue_axisField (ax : Axis) (v : ℚ) : axisValue ax (axisField ax v) =
    f32sign (decide (v < 0)) * scaleFromUInt (axisCode ax v) 0 (maxCode ax.mag) 0 ax.max := by
  have hcode : axisField ax v / 2 = axisCode ax v := by
    have := signBit_lt v
    rw [axisField_eq]
    omega
  simp only [axisValue, axisField_sign, hcode, f32sign, scaleFromUInt, maxCode_cast, decide_eq_true_eq]
  simp

theorem axisField_zero (ax : Axis) : axisField ax 0 = 0 := by
  have hcode : axisCode ax 0 = 0 := by simpa [axisCode, scaleToUInt] using rnd_natCast 0
  simp [axisField_eq, signBit, hcode]

theorem axisValue_zero (ax : Axis) : axisValue ax 0 = 0 := by simp [axisValue]

/-- R184 (b): the exact reconstruction errs by at most half a step. -/
theorem Axis.Ok.abs_axisValue_sub_le (h : ax.Ok) (hv : |v| ≤ ax.max) :
    |axisValue ax (axisField ax v) - v| ≤ ax.max / (2 ^ ax.mag - 1) / 2 := by
  have hround := scale_roundTrip_value h.maxPos h.maxCode_pos (abs_nonneg v) hv
  rw [axisValue_axisField, abs_f32sign_mul_sub]
  simpa [axisCode, maxCode_cast] using hround

/-- No field of a value stands for more than the bound. -/
theorem Axis.Ok.abs_axisValue_le (h : ax.Ok) (hv : |v| ≤ ax.max) : |axisValue ax (axisField ax v)| ≤ ax.max := by
  obtain ⟨hlo, hhi⟩ := scaleFromUInt_range h.maxPos h.maxCode_pos (Nat.zero_le _)
    (axisCode_le h.maxPos h.widthRange.1 hv)
  rwa [axisValue_axisField, abs_mul, abs_f32sign, one_mul, abs_of_nonneg hlo]

/-- The fields of the two bounds stand for the bounds. -/
theorem Axis.Ok.axisValue_bound (h : ax.Ok) (hv : |v| = ax.max) : axisValue ax (axisField ax v) = v := by
  have hcode : axisCode ax v = maxCode ax.mag := by
    have hlast := scale_roundTrip_code (maxCode ax.mag) h.maxPos h.maxCode_pos
    rw [scaleFromUInt_last h.maxCode_pos] at hlast
    rwa [axisCode, hv]
  rw [axisValue_axisField, hcode, scaleFromUInt_last h.maxCode_pos, ← hv, f32sign_mul_abs]

/-! ### The encoded value of a field -/

theorem f32dec_f32enc_of_isFloat32 (hv : IsFloat32 v) : f32dec (f32enc v) = some v := by
  obtain ⟨q, hq, hqv⟩ := f32enc_error_le hv le_rfl hv (e := 0) (by simp)
  rwa [sub_eq_zero.mp (abs_nonpos_iff.mp hqv)] at hq

/-- R184 (c) to (e): the encoded reconstruction of a binary32 value is within the precision, and exact for zero and for
the two bounds. -/
theorem Axis.Ok.f32enc_axisValue (h : ax.Ok) (hfloat : IsFloat32 v) (hv : |v| ≤ ax.max) :
    ∃ q, f32dec (f32enc (axisValue ax (axisField ax v))) = some q ∧ |q - v| ≤ ax.prec ∧
      (v = 0 → f32enc (axisValue ax (axisField ax v)) = 0#32) ∧ (|v| = ax.max → q = v) := by
  have hrange : |axisValue ax (axisField ax v)| ≤ |ax.max| := (h.abs_axisValue_le hv).trans (le_abs_self _)
  have herror : |axisValue ax (axisField ax v) - v| ≤ ax.prec / 2 := by
    obtain ⟨hle, hprec⟩ := h.step_le
    linarith [h.abs_axisValue_sub_le hv]
  obtain ⟨q, hq, hqv⟩ := f32enc_error_le h.maxFloat hrange hfloat herror
  refine ⟨q, hq, hqv, ?_, fun hbound => ?_⟩
  · rintro rfl
    rw [axisField_zero, axisValue_zero, f32enc_zero]
  · rw [h.axisValue_bound hbound, f32dec_f32enc_of_isFloat32 hfloat] at hq
    exact (Option.some.inj hq).symm

/-! ### The stored field read back -/

/-- A range that holds the same bits as a stored value reads as that value. -/
theorem Stored.read_eq {m m' k : Memory} {a b n x : Nat} (h : Stored m m' a n x) (hx : x < 2 ^ n)
    (hbits : ∀ j < n, k.bit (b + j) = m'.bit (a + j)) : k.read b n = x := by
  obtain ⟨-, hstored⟩ := h
  refine Nat.eq_of_testBit_eq fun j => ?_
  rw [Memory.read_testBit]
  by_cases hj : j < n
  · rw [hbits j hj, hstored, if_pos (by omega), Nat.add_sub_cancel_left, decide_eq_true hj, Bool.true_and]
  · rw [decide_eq_false hj, Bool.false_and,
      Nat.testBit_lt_two_pow (hx.trans_le (Nat.pow_le_pow_right (by norm_num) (not_lt.mp hj)))]

end Sys2Proof.Machine
end

section
/-! The statements about the FloatPacker (43_floatpacker.md). -/

namespace Sys2Proof.Machine

/-- Settles O38: one lemma about `FCFG` per way it ends. -/
theorem fcfgConstructsAnAxis : Obligations.FcfgConstructsAnAxis :=
  fun _ _ _ _ => ⟨rfl, fcfg_rejects_slot,
    fun hslot => ⟨fun _ => fcfg_rejects_operand hslot, fun _ => fcfg_completes hslot⟩,
    axis_refused_or_accepted 0 1 _ _⟩

/-- Settles O39: one lemma about `FPACK` per way it ends. -/
theorem fpackAppendsSignAndMagnitude : Obligations.FpackAppendsSignAndMagnitude :=
  fun _ _ _ hs => ⟨rfl, usesWriter_of_isWriterCommand rfl fun hl => ⟨fpack_rejects_slot hl, fun _ hax =>
    ⟨fun _ _ => fpack_rejects_value hl hax, fun _ => fpack_appends hs hl hax⟩⟩⟩

/-- Settles O40: one lemma about `FUNPACK` per way it ends. -/
theorem funpackGivesTheValueBack : Obligations.FunpackGivesTheValueBack :=
  fun _ _ hs => ⟨rfl, usesReader_of_isReaderCommand rfl fun hl => ⟨funpack_rejects_slot hl, fun _ =>
    funpack_consumes hs hl⟩⟩

/-- Settles O54: the laws of the axis, and `FUNPACK` reads the field that `FPACK` appended. -/
theorem floatPackerRoundTrip : Obligations.FloatPackerRoundTrip := by
  refine fun ax h => ⟨h.step_le, fun v => h.abs_axisValue_sub_le, axisField_zero ax, ?_⟩
  intro s slot value v hs hlive hpoison hax hv hfit
  have hl := Writer.lifecycle_live.mpr ⟨hlive, hpoison⟩
  refine ⟨_, fpack_completes hs hl hax hv hfit, rfl, ?_⟩
  intro t ht hlive' hpoison' hax' hfit' hbits
  have hdone := funpack_completes ht (Reader.lifecycle_live.mpr ⟨hlive', hpoison'⟩) hax' hfit'
  rw [(stored_appended hs.writer.ready hfit).read_eq (axisField_lt h hv.2) hbits] at hdone
  obtain ⟨q, hq⟩ := h.f32enc_axisValue ⟨value, hv.1⟩ hv.2
  exact ⟨_, q, hdone, hq⟩

end Sys2Proof.Machine
end

section
/-! SUPPORT. One rule per shared line of the packers' commands: it says of the command that has reached the line how it
ends there, or that it goes on with the lines after it. Then the lines that write the fields, and those that read them,
joined once for commands of any number of fields (44_vectorpackers.md R206). -/

namespace Sys2Proof.Machine

variable {α β : Type} {s : State} {i : Instr}

/-! ### Up to the fields -/

section
variable {c : Cmd (List Word)} {slot : Nat}

/-- The slot check of a configuration command (43_floatpacker.md R180, 44_vectorpackers.md R200, R203). -/
theorem rejects_or_reaches_slotIndex {own : Prop} (h : exec i s = run (do requireSlotIndex slot; c) s)
    (hown : exec i s = run c s → own) :
    (s.slots.length ≤ slot → Rejects i s .invalidArgument 0x84) ∧ (slot < s.slots.length → own) :=
  ⟨fun hslot => h.trans (run_bind_of_raised (requireSlotIndex_none hslot)),
    fun hslot => hown (h.trans (run_bind_of_ok (requireSlotIndex_ok hslot)))⟩

/-- The construction of one axis (43_floatpacker.md R181). -/
theorem rejects_or_reaches_axisDerive {iMax iPrec : Nat} {maxWord precWord : Word} {k : Axis → Cmd (List Word)}
    {own : Axis → Prop} (h : exec i s = run (axisDerive iMax maxWord iPrec precWord >>= k) s)
    (hown : ∀ ax, exec i s = run (k ax) s → own ax) :
    (∀ info, AxisRefused (BitVec.ofNat 8 iMax) (BitVec.ofNat 8 iPrec) maxWord precWord info →
      Rejects i s .invalidArgument info) ∧ ∀ ax, AxisAccepted maxWord precWord ax → own ax :=
  ⟨fun _ hinfo => h.trans (run_bind_of_raised (axisDerive_raised hinfo s)),
    fun ax hax => hown ax (h.trans (run_bind_of_ok (axisDerive_ok hax s)))⟩

/-- The check of one value (43_floatpacker.md R185). -/
theorem rejects_or_reaches_axisCheck {ax : Axis} {index : Nat} {value : Word} {k : ℚ → Cmd (List Word)}
    {own : ℚ → Prop} (h : exec i s = run (axisCheck ax index value >>= k) s)
    (hown : ∀ v, |v| ≤ ax.max → exec i s = run (k v) s → own v) :
    (∀ kind info, ValueRefused ax (BitVec.ofNat 8 index) value kind info → Rejects i s kind info) ∧
      ∀ v, ValueAccepted ax value v → own v :=
  ⟨fun _ _ hinfo => h.trans (run_bind_of_raised (axisCheck_raised hinfo s)),
    fun v hv => hown v hv.2 (h.trans (run_bind_of_ok (axisCheck_ok hv s)))⟩

theorem completes_of_setSlot {d : Descriptor} (h : exec i s = run (do setSlot slot d; pure []) s) :
    Completes i s { s with slots := s.slots.set slot d } [] :=
  (h.trans (run_bind_of_ok (setSlot_run slot d))).trans (run_of_ok (pure_run _ _))

end

/-! ### Writing fields -/

/-- The lines append `n` bits of `x`, wherever the writer is ready and they fit, and give `a`. -/
def Emits (c : Cmd α) (a : α) (n x : Nat) : Prop :=
  ∀ s : State, s.w.Ready → s.w.wbit + n ≤ s.w.cap → c s = .ok a (s.appended x n)

theorem Emits.pure (a : α) : Emits (Pure.pure a) a 0 0 := fun _ _ _ => rfl

theorem Emits.bind {c : Cmd α} {k : α → Cmd β} {a : α} {b : β} {m n x y : Nat} (hc : Emits c a m x) (hx : x < 2 ^ m)
    (hk : Emits (k a) b n y) : Emits (c >>= k) b (m + n) (x + 2 ^ m * y) := fun s hw hfit => by
  have hfirst : s.w.wbit + m ≤ s.w.cap := by omega
  rw [bind_of_ok (hc s hw hfirst), hk _ (hw.appended hfirst) (by simpa [Nat.add_assoc] using hfit),
    State.appended_appended hw hfit, Nat.mod_eq_of_lt hx]

theorem Axis.Ok.emits {ax : Axis} (h : ax.Ok) (v : ℚ) : Emits (axisEmit ax v) () ax.bitCount (axisField ax v) :=
  fun _ hw hfit => axisEmit_ok hw h hfit

/-- The capacity check of all the fields, then the fields, all of them or none (40_writer.md R128). -/
theorem appends_of_emits {c : Cmd (List Word)} {n x : Nat} (hw : s.w.Ready)
    (h : exec i s = run (do reserve n; c) s) (hc : Emits c [] n x) : Appends i s n x :=
  ⟨fun hfull => poisonsWriter_of_exec (h.trans (run_bind_of_raised (reserve_full hfull))),
    fun hfit => ⟨_, stored_appended hw hfit,
      (h.trans (run_bind_of_ok (reserve_ok hfit))).trans (run_of_ok (hc s hw hfit))⟩⟩

/-! ### Reading fields -/

theorem State.consumed_consumed (s : State) (j k : Nat) : (s.consumed j).consumed k = s.consumed (j + k) := by
  simp only [State.consumed, Nat.add_assoc]

/-- The lines consume `n` bits, wherever they are left, and give what `res` says of the storage and the cursor. -/
def Takes (c : Cmd α) (n : Nat) (res : Memory → Nat → α) : Prop :=
  ∀ s : State, s.r.limit ≤ s.r.mem.bitSize → s.r.rbit + n ≤ s.r.limit →
    c s = .ok (res s.r.mem s.r.rbit) (s.consumed n)

theorem Takes.pure (a : α) : Takes (Pure.pure a) 0 fun _ _ => a := fun _ _ _ => rfl

theorem Takes.bind {c : Cmd α} {k : α → Cmd β} {m n : Nat} {res : Memory → Nat → α} {res' : α → Memory → Nat → β}
    (hc : Takes c m res) (hk : ∀ a, Takes (k a) n (res' a)) :
    Takes (c >>= k) (m + n) fun mem a => res' (res mem a) mem (a + m) := fun s hlimit hfit => by
  have hrest := hk (res s.r.mem s.r.rbit) (s.consumed m) hlimit (by simpa [Nat.add_assoc] using hfit)
  rw [State.consumed_consumed] at hrest
  exact (bind_of_ok (hc s hlimit (by omega))).trans hrest

theorem Axis.Ok.takes {ax : Axis} (h : ax.Ok) :
    Takes (axisTake ax) ax.bitCount fun mem a => f32enc (axisValue ax (mem.read a ax.bitCount)) :=
  fun _ hlimit hfit => axisTake_ok h.widthRange hlimit hfit

/-- The check that all the fields are left, then the fields (41_reader.md R148). -/
theorem consumes_of_takes {c : Cmd (List Word)} {n : Nat} {res : Memory → Nat → List Word} (hr : s.r.Ok)
    (h : exec i s = run (do require n; c) s) (hc : Takes c n res) : Consumes i s n (res s.r.mem s.r.rbit) :=
  ⟨fun hshort => poisonsReader_of_exec (h.trans (run_bind_of_raised (require_short hshort))),
    fun hfit => (h.trans (run_bind_of_ok (require_ok hfit))).trans (run_of_ok (hc s hr.limitFits hfit))⟩

end Sys2Proof.Machine
end

section
/-! SUPPORT. The vector commands up to their first own line (44_vectorpackers.md R201, R202, R204, R205), the fields of
two axes and of three, and what a sequence of `FPACK`s leaves of the writer (R207 (a)). -/

namespace Sys2Proof.Machine

variable {s : State} {slot : Nat} {x y z : Axis}

/-! ### The slots of the vector packers -/

theorem Descriptor.asVec2_eq_some_iff {e : Descriptor} : e.asVec2 = some (x, y) ↔ e = .vec2 x y := by
  cases e <;> simp [Descriptor.asVec2]

theorem Descriptor.asVec3_eq_some_iff {e : Descriptor} : e.asVec3 = some (x, y, z) ↔ e = .vec3 x y z := by
  cases e <;> simp [Descriptor.asVec3]

theorem slotAs_asVec2_eq_some_iff :
    s.slotAs slot Descriptor.asVec2 = some (x, y) ↔ s.slots[slot]? = some (.vec2 x y) := by
  simp only [State.slotAs_eq_bind, Option.bind_eq_some_iff, Descriptor.asVec2_eq_some_iff, exists_eq_right]

theorem slotAs_asVec3_eq_some_iff :
    s.slotAs slot Descriptor.asVec3 = some (x, y, z) ↔ s.slots[slot]? = some (.vec3 x y z) := by
  simp only [State.slotAs_eq_bind, Option.bind_eq_some_iff, Descriptor.asVec3_eq_some_iff, exists_eq_right]

theorem requireSlot_vec2 (h : s.slots[slot]? = some (.vec2 x y)) :
    requireSlot slot Descriptor.asVec2 s = .ok (x, y) s :=
  requireSlot_some (slotAs_asVec2_eq_some_iff.mpr h)

theorem requireSlot_vec3 (h : s.slots[slot]? = some (.vec3 x y z)) :
    requireSlot slot Descriptor.asVec3 s = .ok (x, y, z) s :=
  requireSlot_some (slotAs_asVec3_eq_some_iff.mpr h)

theorem requireSlot_not_vec2 (h : ∀ x y, s.slots[slot]? ≠ some (.vec2 x y)) :
    requireSlot slot Descriptor.asVec2 s = .error (.raised ⟨.invalidArgument, 0x84, none⟩) s :=
  requireSlot_none <| Option.eq_none_iff_forall_ne_some.mpr fun (x, y) hd => h x y (slotAs_asVec2_eq_some_iff.mp hd)

theorem requireSlot_not_vec3 (h : ∀ x y z, s.slots[slot]? ≠ some (.vec3 x y z)) :
    requireSlot slot Descriptor.asVec3 s = .error (.raised ⟨.invalidArgument, 0x84, none⟩) s :=
  requireSlot_none <| Option.eq_none_iff_forall_ne_some.mpr fun (x, y, z) hd =>
    h x y z (slotAs_asVec3_eq_some_iff.mp hd)

theorem State.Inv.vec2_ok (hs : s.Inv) (h : s.slots[slot]? = some (.vec2 x y)) : x.Ok ∧ y.Ok :=
  hs.slots _ (List.mem_of_getElem? h)

theorem State.Inv.vec3_ok (hs : s.Inv) (h : s.slots[slot]? = some (.vec3 x y z)) : x.Ok ∧ y.Ok ∧ z.Ok :=
  hs.slots _ (List.mem_of_getElem? h)

/-! ### The fields of a vector -/

section
variable {vx vy vz : ℚ}

theorem emits_vec2 (hx : x.Ok) (hy : y.Ok) (hvx : |vx| ≤ x.max) (hvy : |vy| ≤ y.max) :
    Emits (do axisEmit x vx; axisEmit y vy; pure ([] : List Word)) [] (x.bitCount + y.bitCount)
      (axisField x vx + 2 ^ x.bitCount * axisField y vy) :=
  (hx.emits vx).bind (axisField_lt hx hvx) ((hy.emits vy).bind (n := 0) (y := 0) (axisField_lt hy hvy) (.pure []))

theorem emits_vec3 (hx : x.Ok) (hy : y.Ok) (hz : z.Ok) (hvx : |vx| ≤ x.max) (hvy : |vy| ≤ y.max) (hvz : |vz| ≤ z.max) :
    Emits (do axisEmit x vx; axisEmit y vy; axisEmit z vz; pure ([] : List Word)) []
      (x.bitCount + y.bitCount + z.bitCount)
      (axisField x vx + 2 ^ x.bitCount * (axisField y vy + 2 ^ y.bitCount * axisField z vz)) := by
  rw [Nat.add_assoc]
  exact (hx.emits vx).bind (axisField_lt hx hvx) (emits_vec2 hy hz hvy hvz)

end

theorem takes_vec2 (hx : x.Ok) (hy : y.Ok) :
    Takes (do let wx ← axisTake x; let wy ← axisTake y; pure [wx, wy]) (x.bitCount + y.bitCount) fun mem a =>
      [f32enc (axisValue x (mem.read a x.bitCount)), f32enc (axisValue y (mem.read (a + x.bitCount) y.bitCount))] :=
  hx.takes.bind fun _ => hy.takes.bind fun _ => .pure _

theorem takes_vec3 (hx : x.Ok) (hy : y.Ok) (hz : z.Ok) :
    Takes (do let wx ← axisTake x; let wy ← axisTake y; let wz ← axisTake z; pure [wx, wy, wz])
      (x.bitCount + y.bitCount + z.bitCount) fun mem a =>
        [f32enc (axisValue x (mem.read a x.bitCount)), f32enc (axisValue y (mem.read (a + x.bitCount) y.bitCount)),
          f32enc (axisValue z (mem.read (a + x.bitCount + y.bitCount) z.bitCount))] := by
  rw [Nat.add_assoc]
  exact hx.takes.bind fun _ => hy.takes.bind fun _ => hz.takes.bind fun _ => .pure _

/-! ### `V2PACK` and `V3PACK` -/

section
variable {wx wy wz : Word}

theorem v2pack_rejects_slot (hl : s.w.lifecycle = .live) (hno : ∀ x y, s.slots[slot]? ≠ some (.vec2 x y)) :
    Rejects (.v2pack slot wx wy) s .invalidArgument 0x84 :=
  (run_bind_of_ok (requireWriter_live hl)).trans (run_bind_of_raised (requireSlot_not_vec2 hno))

theorem v3pack_rejects_slot (hl : s.w.lifecycle = .live) (hno : ∀ x y z, s.slots[slot]? ≠ some (.vec3 x y z)) :
    Rejects (.v3pack slot wx wy wz) s .invalidArgument 0x84 :=
  (run_bind_of_ok (requireWriter_live hl)).trans (run_bind_of_raised (requireSlot_not_vec3 hno))

/-- `V2PACK` on a slot with two axes: the checks of both before the first bit. -/
theorem exec_v2pack_vec2 (hl : s.w.lifecycle = .live) (hd : s.slots[slot]? = some (.vec2 x y)) :
    exec (.v2pack slot wx wy) s = run (do
      let vx ← axisCheck x 0 wx
      let vy ← axisCheck y 1 wy
      reserve (x.bitCount + y.bitCount)
      axisEmit x vx
      axisEmit y vy
      pure []) s :=
  calc exec (.v2pack slot wx wy) s
    _ = _ := run_bind_of_ok (requireWriter_live hl)
    _ = _ := run_bind_of_ok (requireSlot_vec2 hd)

/-- `V3PACK` on a slot with three axes: the checks of all of them before the first bit. -/
theorem exec_v3pack_vec3 (hl : s.w.lifecycle = .live) (hd : s.slots[slot]? = some (.vec3 x y z)) :
    exec (.v3pack slot wx wy wz) s = run (do
      let vx ← axisCheck x 0 wx
      let vy ← axisCheck y 1 wy
      let vz ← axisCheck z 2 wz
      reserve (x.bitCount + y.bitCount + z.bitCount)
      axisEmit x vx
      axisEmit y vy
      axisEmit z vz
      pure []) s :=
  calc exec (.v3pack slot wx wy wz) s
    _ = _ := run_bind_of_ok (requireWriter_live hl)
    _ = _ := run_bind_of_ok (requireSlot_vec3 hd)

theorem v2pack_checks_then_appends (hs : s.Inv) (hl : s.w.lifecycle = .live)
    (hd : s.slots[slot]? = some (.vec2 x y)) :
    (∀ kind info, ValueRefused x 0 wx kind info → Rejects (.v2pack slot wx wy) s kind info) ∧
    ∀ qx, ValueAccepted x wx qx →
      (∀ kind info, ValueRefused y 1 wy kind info → Rejects (.v2pack slot wx wy) s kind info) ∧
      ∀ qy, ValueAccepted y wy qy → Appends (.v2pack slot wx wy) s (x.bitCount + y.bitCount)
        (axisField x qx + 2 ^ x.bitCount * axisField y qy) :=
  have ⟨hx, hy⟩ := hs.vec2_ok hd
  rejects_or_reaches_axisCheck (exec_v2pack_vec2 hl hd) fun _ hqx h =>
    rejects_or_reaches_axisCheck h fun _ hqy h => appends_of_emits hs.writer.ready h (emits_vec2 hx hy hqx hqy)

theorem v3pack_checks_then_appends (hs : s.Inv) (hl : s.w.lifecycle = .live)
    (hd : s.slots[slot]? = some (.vec3 x y z)) :
    (∀ kind info, ValueRefused x 0 wx kind info → Rejects (.v3pack slot wx wy wz) s kind info) ∧
    ∀ qx, ValueAccepted x wx qx →
      (∀ kind info, ValueRefused y 1 wy kind info → Rejects (.v3pack slot wx wy wz) s kind info) ∧
      ∀ qy, ValueAccepted y wy qy →
        (∀ kind info, ValueRefused z 2 wz kind info → Rejects (.v3pack slot wx wy wz) s kind info) ∧
        ∀ qz, ValueAccepted z wz qz → Appends (.v3pack slot wx wy wz) s (x.bitCount + y.bitCount + z.bitCount)
          (axisField x qx + 2 ^ x.bitCount * (axisField y qy + 2 ^ y.bitCount * axisField z qz)) :=
  have ⟨hx, hy, hz⟩ := hs.vec3_ok hd
  rejects_or_reaches_axisCheck (exec_v3pack_vec3 hl hd) fun _ hqx h =>
    rejects_or_reaches_axisCheck h fun _ hqy h =>
      rejects_or_reaches_axisCheck h fun _ hqz h =>
        appends_of_emits hs.writer.ready h (emits_vec3 hx hy hz hqx hqy hqz)

end

/-! ### `V2UNPACK` and `V3UNPACK` -/

theorem v2unpack_rejects_slot (hl : s.r.lifecycle = .live) (hno : ∀ x y, s.slots[slot]? ≠ some (.vec2 x y)) :
    Rejects (.v2unpack slot) s .invalidArgument 0x84 :=
  (run_bind_of_ok (requireReader_live hl)).trans (run_bind_of_raised (requireSlot_not_vec2 hno))

theorem v3unpack_rejects_slot (hl : s.r.lifecycle = .live) (hno : ∀ x y z, s.slots[slot]? ≠ some (.vec3 x y z)) :
    Rejects (.v3unpack slot) s .invalidArgument 0x84 :=
  (run_bind_of_ok (requireReader_live hl)).trans (run_bind_of_raised (requireSlot_not_vec3 hno))

theorem v2unpack_consumes (hs : s.Inv) (hl : s.r.lifecycle = .live) (hd : s.slots[slot]? = some (.vec2 x y)) :
    Consumes (.v2unpack slot) s (x.bitCount + y.bitCount)
      [f32enc (axisValue x (s.r.mem.read s.r.rbit x.bitCount)),
        f32enc (axisValue y (s.r.mem.read (s.r.rbit + x.bitCount) y.bitCount))] :=
  have ⟨hx, hy⟩ := hs.vec2_ok hd
  have hexec :=
    calc exec (.v2unpack slot) s
      _ = _ := run_bind_of_ok (requireReader_live hl)
      _ = _ := run_bind_of_ok (requireSlot_vec2 hd)
  consumes_of_takes hs.reader hexec (takes_vec2 hx hy)

theorem v3unpack_consumes (hs : s.Inv) (hl : s.r.lifecycle = .live) (hd : s.slots[slot]? = some (.vec3 x y z)) :
    Consumes (.v3unpack slot) s (x.bitCount + y.bitCount + z.bitCount)
      [f32enc (axisValue x (s.r.mem.read s.r.rbit x.bitCount)),
        f32enc (axisValue y (s.r.mem.read (s.r.rbit + x.bitCount) y.bitCount)),
        f32enc (axisValue z (s.r.mem.read (s.r.rbit + x.bitCount + y.bitCount) z.bitCount))] :=
  have ⟨hx, hy, hz⟩ := hs.vec3_ok hd
  have hexec :=
    calc exec (.v3unpack slot) s
      _ = _ := run_bind_of_ok (requireReader_live hl)
      _ = _ := run_bind_of_ok (requireSlot_vec3 hd)
  consumes_of_takes hs.reader hexec (takes_vec3 hx hy hz)

/-! ### A sequence of `FPACK`s -/

/-- With this slot table the commands, run on a live writer, leave it as one append of `n` bits of `v` does. -/
def LeavesAppended (slots : List Descriptor) (l : List Instr) (n v : Nat) : Prop :=
  ∀ s : State, s.Inv → s.slots = slots → s.w.lifecycle = .live → s.w.wbit + n ≤ s.w.cap →
    ∃ u, execAll l s = .next u ∧ u.w = (s.appended v n).w

variable {slots : List Descriptor}

theorem leavesAppended_nil : LeavesAppended slots [] 0 0 := fun s _ _ _ _ => ⟨s, rfl, rfl⟩

/-- One `FPACK` before others appends its field before theirs (43_floatpacker.md R182). -/
theorem LeavesAppended.fpack {l : List Instr} {k n v : Nat} {value : Word} {q : ℚ} (h : LeavesAppended slots l n v)
    (hslot : slots[k]? = some (.float x)) (hq : ValueAccepted x value q) :
    LeavesAppended slots (.fpack k value :: l) (x.bitCount + n) (axisField x q + 2 ^ x.bitCount * v) := by
  rintro s hs rfl hl hfit
  have hfirst : s.w.wbit + x.bitCount ≤ s.w.cap := by omega
  have hone := fpack_completes hs hl hslot hq hfirst
  obtain ⟨u, hu, hw⟩ := h ((s.appended (axisField x q) x.bitCount).respond (okResponse []))
    ((hs.setWriter (hs.writer.appended hfirst) (by simp)).respond _) rfl hl (by simpa [Nat.add_assoc] using hfit)
  refine ⟨u, (execAll_cons_of_next hone).trans hu, hw.trans ?_⟩
  have hjoin := congrArg State.w (State.appended_appended (u := axisField x q) (v := v) hs.writer.ready hfit)
  rw [Nat.mod_eq_of_lt (axisField_lt (hs.axis_ok hslot) hq.2)] at hjoin
  exact hjoin

/-- Two storages in canonical form that a store may have left are the same. -/
theorem Stored.unique {m m₁ m₂ : Memory} {a n v : Nat} (h₁ : Stored m m₁ a n v) (h₂ : Stored m m₂ a n v)
    (hwf₁ : m₁.wf = true) (hwf₂ : m₂.wf = true) : m₁ = m₂ := by
  obtain ⟨hsize₁, hbits₁⟩ := h₁
  obtain ⟨hsize₂, hbits₂⟩ := h₂
  exact Memory.ext_of_bit hwf₁ hwf₂ (hsize₁.trans hsize₂.symm) fun b => (hbits₁ b).trans (hbits₂ b).symm

/-- A command whose bits fit leaves the writer, canonical as every command keeps it, with those bits appended. -/
theorem Appends.leaves_appended {i : Instr} {n v : Nat} (h : Appends i s n v) (hs : s.Inv)
    (hfit : s.w.wbit + n ≤ s.w.cap) : ∃ t, exec i s = .next t ∧ t.w = (s.appended v n).w := by
  obtain ⟨-, happends⟩ := h
  obtain ⟨m, hm, hdone⟩ := happends hfit
  obtain ⟨u, r, heffect, hu⟩ := exec_effect hdone
  have hwf : m.wf = true := (hu ▸ (heffect.inv hs).respond r).writer.canonical
  refine ⟨_, hdone, ?_⟩
  rw [respond_w, hm.unique (stored_appended hs.writer.ready hfit) hwf
    (hs.writer.ready.appended hfit).canonical]

/-- A command and a sequence of `FPACK`s that append the same bits leave the same writer. -/
theorem Appends.same_writer {i : Instr} {l : List Instr} {n v : Nat} (h : Appends i s n v)
    (hseq : LeavesAppended s.slots l n v) (hs : s.Inv) (hl : s.w.lifecycle = .live)
    (hfit : s.w.wbit + n ≤ s.w.cap) :
    ∃ t u, exec i s = .next t ∧ execAll l s = .next u ∧ t.w = u.w ∧ t.w.wbit = s.w.wbit + n := by
  obtain ⟨t, ht, htw⟩ := h.leaves_appended hs hfit
  obtain ⟨u, hu, huw⟩ := hseq s hs rfl hl hfit
  exact ⟨t, u, ht, hu, htw.trans huw.symm, by rw [htw]⟩

end Sys2Proof.Machine
end

section
/-! The statements about the Vector2Packer and the Vector3Packer (44_vectorpackers.md). -/

namespace Sys2Proof.Machine

/-- Settles O41: both commands are the slot check, one construction per axis, and the write of the slot. -/
theorem vectorConfigurationsConstructTheirAxes : Obligations.VectorConfigurationsConstructTheirAxes :=
  fun _ _ _ _ _ _ _ _ => ⟨
    ⟨rfl, rejects_or_reaches_slotIndex rfl fun h => rejects_or_reaches_axisDerive h fun _ h =>
      rejects_or_reaches_axisDerive h fun _ => completes_of_setSlot⟩,
    ⟨rfl, rejects_or_reaches_slotIndex rfl fun h => rejects_or_reaches_axisDerive h fun _ h =>
      rejects_or_reaches_axisDerive h fun _ h => rejects_or_reaches_axisDerive h fun _ => completes_of_setSlot⟩⟩

/-- Settles O42: one check per axis, then one append of the concatenation of the fields. -/
theorem vectorPacksAppendTheirAxes : Obligations.VectorPacksAppendTheirAxes :=
  fun _ _ _ _ _ hs => ⟨
    ⟨rfl, usesWriter_of_isWriterCommand rfl fun hl =>
      ⟨v2pack_rejects_slot hl, fun _ _ => v2pack_checks_then_appends hs hl⟩⟩,
    ⟨rfl, usesWriter_of_isWriterCommand rfl fun hl =>
      ⟨v3pack_rejects_slot hl, fun _ _ _ => v3pack_checks_then_appends hs hl⟩⟩⟩

/-- Settles O43: one check for the whole vector, then one field per axis. -/
theorem vectorUnpacksGiveTheirAxesBack : Obligations.VectorUnpacksGiveTheirAxesBack :=
  fun _ _ hs => ⟨
    ⟨rfl, usesReader_of_isReaderCommand rfl fun hl => ⟨v2unpack_rejects_slot hl, fun _ _ => v2unpack_consumes hs hl⟩⟩,
    ⟨rfl, usesReader_of_isReaderCommand rfl fun hl => ⟨v3unpack_rejects_slot hl, fun _ _ _ => v3unpack_consumes hs hl⟩⟩⟩

/-- Settles O58: the vector pack appends the concatenation of the fields that the `FPACK`s append one by one. -/
theorem vectorPackIsAxisByAxis : Obligations.VectorPackIsAxisByAxis := by
  intro s slot kx ky kz vx vy vz x y z hs hlive hpoison hkx hky ⟨qx, hqx⟩ ⟨qy, hqy⟩
  have hl := Writer.lifecycle_live.mpr ⟨hlive, hpoison⟩
  refine ⟨fun hd hfit => ?_, fun hkz ⟨qz, hqz⟩ hd hfit => ?_⟩
  · obtain ⟨-, hchecked⟩ := v2pack_checks_then_appends (wx := vx) (wy := vy) hs hl hd
    obtain ⟨-, happends⟩ := hchecked qx hqx
    exact (happends qy hqy).same_writer ((leavesAppended_nil.fpack hky hqy).fpack hkx hqx) hs hl hfit
  · obtain ⟨-, hcheckedX⟩ := v3pack_checks_then_appends (wx := vx) (wy := vy) (wz := vz) hs hl hd
    obtain ⟨-, hcheckedY⟩ := hcheckedX qx hqx
    obtain ⟨-, happends⟩ := hcheckedY qy hqy
    refine (happends qz hqz).same_writer ?_ hs hl hfit
    rw [Nat.add_assoc]
    exact ((leavesAppended_nil.fpack hkz hqz).fpack hky hqy).fpack hkx hqx

end Sys2Proof.Machine
end

section
/-! SUPPORT. The lines of the PositionPacker's commands (45_positionpacker.md): the operands and their first non-finite
one, the construction of an axis, the three codes written and read; then each command up to its first own line. -/

namespace Sys2Proof.Machine

variable {s : State} {i : Instr} {slot : Nat} {x y z : PosAxis} {pr : ℚ}

/-! ### Up to the codes -/

section
variable {index : Nat} {word : Word} {k : ℚ → Cmd (List Word)}

/-- The check of one operand word (42_scale.md R168). -/
theorem rejects_or_reaches_finite {own : ℚ → Prop} (h : exec i s = run (finite index word >>= k) s)
    (hown : ∀ q, exec i s = run (k q) s → own q) :
    (f32dec word = none → Rejects i s .invalidArgument (BitVec.ofNat 8 index)) ∧ ∀ q, f32dec word = some q → own q :=
  ⟨fun hnone => h.trans (run_bind_of_raised (finite_none hnone s)),
    fun q hq => hown q (h.trans (run_bind_of_ok (finite_some hq s)))⟩

/-- The operand words from `index` on are checked in their order: the first that is not finite is named. -/
def RejectsFirstNonFinite (i : Instr) (s : State) (index : Nat) (words : List Word) : Prop :=
  ∀ (k : Nat) (w : Word), words[k]? = some w → f32dec w = none →
    (∀ (j : Nat) (u : Word), j < k → words[j]? = some u → f32dec u ≠ none) →
    Rejects i s .invalidArgument (BitVec.ofNat 8 (index + k))

theorem rejectsFirstNonFinite_nil : RejectsFirstNonFinite i s index [] := fun _ _ hk => nomatch hk

theorem RejectsFirstNonFinite.cons {words : List Word}
    (hnone : f32dec word = none → Rejects i s .invalidArgument (BitVec.ofNat 8 index))
    (hsome : ∀ q, f32dec word = some q → RejectsFirstNonFinite i s (index + 1) words) :
    RejectsFirstNonFinite i s index (word :: words)
  | 0, _, hk, hw, _ => hnone (Option.some.inj hk ▸ hw)
  | k + 1, w, hk, hw, hearlier => by
    obtain ⟨q, hq⟩ := Option.ne_none_iff_exists'.mp (hearlier 0 word k.succ_pos rfl)
    rw [← Nat.succ_add_eq_add_succ]
    exact hsome q hq k w hk hw fun j u hj => hearlier (j + 1) u (Nat.succ_lt_succ hj)

/-- The check of one operand word before those of others. -/
theorem rejectsFirst_and_reaches_finite {words : List Word} {own : ℚ → Prop}
    (h : exec i s = run (finite index word >>= k) s)
    (hown : ∀ q, exec i s = run (k q) s → RejectsFirstNonFinite i s (index + 1) words ∧ own q) :
    RejectsFirstNonFinite i s index (word :: words) ∧ ∀ q, f32dec word = some q → own q :=
  have ⟨hnone, hsome⟩ := rejects_or_reaches_finite h hown
  ⟨.cons hnone fun q hq => (hsome q hq).1, fun q hq => (hsome q hq).2⟩

end

/-- The check of the precision (45_positionpacker.md R220). -/
theorem rejects_or_reaches_precision {c : Unit → Cmd (List Word)} {own : Prop}
    (h : exec i s = run (raiseIf (pr ≤ 0) .invalidArgument 6 >>= c) s) (hown : 0 < pr → exec i s = run (c ()) s → own) :
    (pr ≤ 0 → Rejects i s .invalidArgument 6) ∧ (0 < pr → own) :=
  ⟨fun hle => h.trans (run_bind_of_raised (raiseIf_pos hle _ _ s)),
    fun hpos => hown hpos (h.trans (run_bind_of_ok (raiseIf_neg (not_le.mpr hpos) _ _ s)))⟩

/-- The construction of one axis of a PositionPacker (45_positionpacker.md R220, R221). -/
theorem rejects_or_reaches_posAxisDerive {a : Nat} {mn mx : ℚ} {k : PosAxis → Cmd (List Word)} {own : PosAxis → Prop}
    (ha : a < 3) (hp : 0 < pr) (h : exec i s = run (posAxisDerive a mn mx pr >>= k) s)
    (hown : ∀ ax, exec i s = run (k ax) s → own ax) :
    (∀ info, PosAxisRefused (BitVec.ofNat 8 a) mn mx pr info → Rejects i s .invalidArgument info) ∧
      ∀ ax : PosAxis, ax.min = mn → ax.max = mx → PosAxisAccepted pr ax → own ax := by
  refine ⟨fun info hinfo => h.trans (run_bind_of_raised (posAxisDerive_raised ha hp hinfo s)), ?_⟩
  rintro ax rfl rfl hax
  exact hown ax (h.trans (run_bind_of_ok (posAxisDerive_ok hp hax s)))

/-! ### The slot of a PositionPacker -/

theorem Descriptor.asPos_eq_some_iff {e : Descriptor} : e.asPos = some (x, y, z) ↔ ∃ pr, e = .pos x y z pr := by
  cases e <;> simp [Descriptor.asPos]

theorem slotAs_asPos_eq_some_iff :
    s.slotAs slot Descriptor.asPos = some (x, y, z) ↔ ∃ pr, s.slots[slot]? = some (.pos x y z pr) := by
  simp only [State.slotAs_eq_bind, Option.bind_eq_some_iff, Descriptor.asPos_eq_some_iff]
  exact ⟨fun ⟨_, he, pr, hpos⟩ => ⟨pr, hpos ▸ he⟩, fun ⟨pr, he⟩ => ⟨_, he, pr, rfl⟩⟩

theorem requireSlot_pos (h : s.slots[slot]? = some (.pos x y z pr)) :
    requireSlot slot Descriptor.asPos s = .ok (x, y, z) s :=
  requireSlot_some (slotAs_asPos_eq_some_iff.mpr ⟨pr, h⟩)

theorem requireSlot_not_pos (h : ∀ x y z pr, s.slots[slot]? ≠ some (.pos x y z pr)) :
    requireSlot slot Descriptor.asPos s = .error (.raised ⟨.invalidArgument, 0x84, none⟩) s :=
  requireSlot_none <| Option.eq_none_iff_forall_ne_some.mpr fun (x, y, z) hd =>
    have ⟨pr, hpos⟩ := slotAs_asPos_eq_some_iff.mp hd
    h x y z pr hpos

theorem State.Inv.pos_ok (hs : s.Inv) (h : s.slots[slot]? = some (.pos x y z pr)) : x.Ok pr ∧ y.Ok pr ∧ z.Ok pr :=
  have ⟨_, _, haxes⟩ := hs.slots _ (List.mem_of_getElem? h)
  haxes

/-! ### The codes of a position -/

theorem PosAxis.Ok.emits {ax : PosAxis} (h : ax.Ok pr) (v : ℚ) : Emits (posEmit ax v) () ax.bits (posField ax v) :=
  fun _ hw hfit => posEmit_ok hw h hfit

theorem PosAxis.Ok.posField_lt {ax : PosAxis} (h : ax.Ok pr) (v : ℚ) : posField ax v < 2 ^ ax.bits :=
  Machine.posField_lt h.ordered h.widthRange.1 v

theorem PosAxis.Ok.takes {ax : PosAxis} (h : ax.Ok pr) :
    Takes (posTake ax) ax.bits fun mem a => f32enc (posValue ax (mem.read a ax.bits)) :=
  fun _ hlimit hfit => posTake_ok h.widthRange hlimit hfit

theorem emits_pos (hx : x.Ok pr) (hy : y.Ok pr) (hz : z.Ok pr) (vx vy vz : ℚ) :
    Emits (do posEmit x vx; posEmit y vy; posEmit z vz; pure ([] : List Word)) [] (x.bits + y.bits + z.bits)
      (posField x vx + 2 ^ x.bits * (posField y vy + 2 ^ y.bits * posField z vz)) := by
  rw [Nat.add_assoc]
  exact (hx.emits vx).bind (hx.posField_lt vx) <| (hy.emits vy).bind (hy.posField_lt vy) <|
    (hz.emits vz).bind (n := 0) (y := 0) (hz.posField_lt vz) (.pure [])

theorem takes_pos (hx : x.Ok pr) (hy : y.Ok pr) (hz : z.Ok pr) :
    Takes (do let wx ← posTake x; let wy ← posTake y; let wz ← posTake z; pure [wx, wy, wz])
      (x.bits + y.bits + z.bits) fun mem a =>
        [f32enc (posValue x (mem.read a x.bits)), f32enc (posValue y (mem.read (a + x.bits) y.bits)),
          f32enc (posValue z (mem.read (a + x.bits + y.bits) z.bits))] := by
  rw [Nat.add_assoc]
  exact hx.takes.bind fun _ => hy.takes.bind fun _ => hz.takes.bind fun _ => .pure _

/-! ### `PPACK` -/

section
variable {wx wy wz : Word}

theorem ppack_rejects_slot (hl : s.w.lifecycle = .live) (hno : ∀ x y z pr, s.slots[slot]? ≠ some (.pos x y z pr)) :
    Rejects (.ppack slot wx wy wz) s .invalidArgument 0x84 :=
  (run_bind_of_ok (requireWriter_live hl)).trans (run_bind_of_raised (requireSlot_not_pos hno))

/-- `PPACK` on a slot with a position: the operands before the first bit. -/
theorem exec_ppack_pos (hl : s.w.lifecycle = .live) (hd : s.slots[slot]? = some (.pos x y z pr)) :
    exec (.ppack slot wx wy wz) s = run (do
      let vx ← finite 0 wx
      let vy ← finite 1 wy
      let vz ← finite 2 wz
      reserve (x.bits + y.bits + z.bits)
      posEmit x vx
      posEmit y vy
      posEmit z vz
      pure []) s :=
  calc exec (.ppack slot wx wy wz) s
    _ = _ := run_bind_of_ok (requireWriter_live hl)
    _ = _ := run_bind_of_ok (requireSlot_pos hd)

theorem ppack_checks_then_appends (hs : s.Inv) (hl : s.w.lifecycle = .live)
    (hd : s.slots[slot]? = some (.pos x y z pr)) :
    (f32dec wx = none → Rejects (.ppack slot wx wy wz) s .invalidArgument 0) ∧
    ∀ qx, f32dec wx = some qx →
      (f32dec wy = none → Rejects (.ppack slot wx wy wz) s .invalidArgument 1) ∧
      ∀ qy, f32dec wy = some qy →
        (f32dec wz = none → Rejects (.ppack slot wx wy wz) s .invalidArgument 2) ∧
        ∀ qz, f32dec wz = some qz → Appends (.ppack slot wx wy wz) s (x.bits + y.bits + z.bits)
          (posField x qx + 2 ^ x.bits * (posField y qy + 2 ^ y.bits * posField z qz)) :=
  have ⟨hx, hy, hz⟩ := hs.pos_ok hd
  rejects_or_reaches_finite (exec_ppack_pos hl hd) fun qx h =>
    rejects_or_reaches_finite h fun qy h =>
      rejects_or_reaches_finite h fun qz h => appends_of_emits hs.writer.ready h (emits_pos hx hy hz qx qy qz)

end

/-! ### `PUNPACK` -/

theorem punpack_rejects_slot (hl : s.r.lifecycle = .live) (hno : ∀ x y z pr, s.slots[slot]? ≠ some (.pos x y z pr)) :
    Rejects (.punpack slot) s .invalidArgument 0x84 :=
  (run_bind_of_ok (requireReader_live hl)).trans (run_bind_of_raised (requireSlot_not_pos hno))

theorem punpack_consumes (hs : s.Inv) (hl : s.r.lifecycle = .live) (hd : s.slots[slot]? = some (.pos x y z pr)) :
    Consumes (.punpack slot) s (x.bits + y.bits + z.bits)
      [f32enc (posValue x (s.r.mem.read s.r.rbit x.bits)),
        f32enc (posValue y (s.r.mem.read (s.r.rbit + x.bits) y.bits)),
        f32enc (posValue z (s.r.mem.read (s.r.rbit + x.bits + y.bits) z.bits))] :=
  have ⟨hx, hy, hz⟩ := hs.pos_ok hd
  have hexec :=
    calc exec (.punpack slot) s
      _ = _ := run_bind_of_ok (requireReader_live hl)
      _ = _ := run_bind_of_ok (requireSlot_pos hd)
  consumes_of_takes hs.reader hexec (takes_pos hx hy hz)

end Sys2Proof.Machine
end

section
/-! The statements about the PositionPacker (45_positionpacker.md). -/

namespace Sys2Proof.Machine

/-- Settles O44: the slot check, the seven operands, the precision, one construction per axis, and the write of the
slot. -/
theorem pcfgConstructsThreeAxes : Obligations.PcfgConstructsThreeAxes := by
  intro s slot minX minY minZ maxX maxY maxZ precision
  refine ⟨rfl, rejects_or_reaches_slotIndex rfl fun h => ?_⟩
  have ⟨hfirst, hfinite⟩ :=
    rejectsFirst_and_reaches_finite h fun _ h => rejectsFirst_and_reaches_finite h fun _ h =>
    rejectsFirst_and_reaches_finite h fun _ h => rejectsFirst_and_reaches_finite h fun _ h =>
    rejectsFirst_and_reaches_finite h fun _ h => rejectsFirst_and_reaches_finite h fun _ h =>
    rejectsFirst_and_reaches_finite h fun _ h => ⟨rejectsFirstNonFinite_nil,
      rejects_or_reaches_precision h fun hpos h =>
        rejects_or_reaches_posAxisDerive (by decide) hpos h fun _ h =>
          rejects_or_reaches_posAxisDerive (by decide) hpos h fun _ h =>
            rejects_or_reaches_posAxisDerive (by decide) hpos h fun _ => completes_of_setSlot⟩
  refine ⟨fun k w => by simpa only [Nat.zero_add] using hfirst k w, ?_⟩
  intro x₀ y₀ z₀ x₁ y₁ z₁ pr hx₀ hy₀ hz₀ hx₁ hy₁ hz₁
  exact hfinite x₀ hx₀ y₀ hy₀ z₀ hz₀ x₁ hx₁ y₁ hy₁ z₁ hz₁ pr

/-- Settles O45: one check per operand, then one append of the concatenation of the codes. -/
theorem ppackAppendsThreeCodes : Obligations.PpackAppendsThreeCodes :=
  fun _ _ _ _ _ hs => ⟨rfl, usesWriter_of_isWriterCommand rfl fun hl =>
    ⟨ppack_rejects_slot hl, fun _ _ _ _ => ppack_checks_then_appends hs hl⟩⟩

/-- Settles O46: one check for the whole position, then one code per axis. -/
theorem punpackGivesThreeValuesBack : Obligations.PunpackGivesThreeValuesBack :=
  fun _ _ hs => ⟨rfl, usesReader_of_isReaderCommand rfl fun hl =>
    ⟨punpack_rejects_slot hl, fun _ _ _ _ => punpack_consumes hs hl⟩⟩

end Sys2Proof.Machine
end

section
/-! SUPPORT. The width of a range as its two powers of two (46_bitcount.md R240), and what `BITCNT` answers, one lemma per
way it ends (R241). -/

namespace Sys2Proof.Machine

/-! ### The width of a range -/

section
variable {a b : Int}

/-- The length of a range that is not empty, as the natural number whose bits are counted. -/
theorem bitCountFromRange_eq_bitlen (hab : a < b) : ∃ d : Nat, 1 ≤ d ∧ b - a = d ∧ bitCountFromRange a b = bitlen d :=
  ⟨(b - a).toNat, by omega, by omega, rfl⟩

theorem bitCountFromRange_pos (a b : Int) : 1 ≤ bitCountFromRange a b := bitlen_pos _

theorem bitCountFromRange_bounds (hab : a < b) :
    2 ^ (bitCountFromRange a b - 1) ≤ b - a ∧ b - a < 2 ^ bitCountFromRange a b := by
  obtain ⟨d, hone, hd, hbits⟩ := bitCountFromRange_eq_bitlen hab
  rw [hbits, hd]
  exact_mod_cast bitlen_spec hone

theorem bitCountFromRange_le {n : Nat} (hab : a < b) (hn : b - a < 2 ^ n) : bitCountFromRange a b ≤ n := by
  obtain ⟨d, hone, hd, hbits⟩ := bitCountFromRange_eq_bitlen hab
  rw [hbits]
  exact bitlen_le hone (by exact_mod_cast hd ▸ hn)

end

/-! ### `BITCNT` -/

section
variable {s : State} {min max : Word}

/-- The difference of two `i32` operands, not wrapped, has at most 32 bits. -/
theorem toInt_sub_toInt_lt (x y : Word) : y.toInt - x.toInt < 2 ^ 32 := by
  have hx := x.le_toInt
  have hy := y.toInt_lt
  omega

theorem bitcnt_rejects_empty (hempty : max.toInt ≤ min.toInt) : Rejects (.bitcnt min max) s .invalidArgument 1 :=
  run_bind_of_raised (raiseIf_pos hempty ..)

theorem bitcnt_completes (hlt : min.toInt < max.toInt) :
    Completes (.bitcnt min max) s s [BitVec.ofNat 32 (bitCountFromRange min.toInt max.toInt)] :=
  calc exec (.bitcnt min max) s
    _ = _ := run_bind_of_ok (raiseIf_neg (not_le.mpr hlt) ..)
    _ = _ := run_of_ok (pure_run _ _)

end

end Sys2Proof.Machine
end

section
/-! The statement about `BITCNT` (46_bitcount.md). -/

namespace Sys2Proof.Machine

/-- Settles O35: `k` is the width of the range of the two operands, which `BITCNT` answers once the range is not empty. -/
theorem bitcntCountsBits : Obligations.BitcntCountsBits := by
  intro s min max
  refine ⟨rfl, bitcnt_rejects_empty, fun hlt => ?_⟩
  have ⟨hlow, hhigh⟩ := bitCountFromRange_bounds hlt
  exact ⟨bitCountFromRange min.toInt max.toInt, bitCountFromRange_pos _ _,
    bitCountFromRange_le hlt (toInt_sub_toInt_lt min max), hlow, hhigh, bitcnt_completes hlt⟩

end Sys2Proof.Machine
end

section
/-! SUPPORT. One rule per shared line of the UIntVariablePacker's commands (47_uintvariable.md), as for the other
packers: a check, the slot, a selector bit, a payload. Then `UEmit` and `UTake` by these rules, and the encoding read
back. -/

namespace Sys2Proof.Machine

variable {s : State} {i : Instr} {slot small medium large : Nat}

/-! ### Up to the encoding -/

/-- One check line; `q` is the rule's own way to say that the check passes. -/
theorem rejects_or_reaches_raiseIf {p q own : Prop} [Decidable p] {kind : FaultKind} {info : Nat}
    {c : Unit → Cmd (List Word)} (h : exec i s = run (raiseIf p kind info >>= c) s) (hq : q → ¬p)
    (hown : q → exec i s = run (c ()) s → own) : (p → Rejects i s kind (BitVec.ofNat 8 info)) ∧ (q → own) :=
  ⟨fun hp => h.trans (run_bind_of_raised (raiseIf_pos hp kind info s)),
    fun hpass => hown hpass (h.trans (run_bind_of_ok (raiseIf_neg (hq hpass) kind info s)))⟩

theorem Descriptor.asUvar_eq_some_iff {e : Descriptor} :
    e.asUvar = some (small, medium, large) ↔ e = .uvar small medium large := by
  cases e <;> simp [Descriptor.asUvar]

theorem slotAs_asUvar_eq_some_iff :
    s.slotAs slot Descriptor.asUvar = some (small, medium, large) ↔
      s.slots[slot]? = some (.uvar small medium large) := by
  simp only [State.slotAs_eq_bind, Option.bind_eq_some_iff, Descriptor.asUvar_eq_some_iff, exists_eq_right]

theorem requireSlot_uvar (h : s.slots[slot]? = some (.uvar small medium large)) :
    requireSlot slot Descriptor.asUvar s = .ok (small, medium, large) s :=
  requireSlot_some (slotAs_asUvar_eq_some_iff.mpr h)

theorem requireSlot_not_uvar (h : ∀ small medium large, s.slots[slot]? ≠ some (.uvar small medium large)) :
    requireSlot slot Descriptor.asUvar s = .error (.raised ⟨.invalidArgument, 0x84, none⟩) s :=
  requireSlot_none <| Option.eq_none_iff_forall_ne_some.mpr fun (small, medium, large) hd =>
    h small medium large (slotAs_asUvar_eq_some_iff.mp hd)

theorem State.Inv.uvar_ok (hs : s.Inv) (h : s.slots[slot]? = some (.uvar small medium large)) :
    Descriptor.Ok (.uvar small medium large) :=
  hs.slots _ (List.mem_of_getElem? h)

/-- The check of the slot (10_state.md R49), of which the packer's four stream commands use the widths. -/
theorem rejects_or_reaches_uvar {k : Nat × Nat × Nat → Cmd (List Word)} {own : Nat → Nat → Nat → Prop}
    (h : exec i s = run (requireSlot slot Descriptor.asUvar >>= k) s)
    (hown : ∀ small medium large, s.slots[slot]? = some (.uvar small medium large) →
      exec i s = run (k (small, medium, large)) s → own small medium large) :
    ((∀ small medium large, s.slots[slot]? ≠ some (.uvar small medium large)) → Rejects i s .invalidArgument 0x84) ∧
      ∀ small medium large, s.slots[slot]? = some (.uvar small medium large) → own small medium large :=
  ⟨fun hno => h.trans (run_bind_of_raised (requireSlot_not_uvar hno)),
    fun small medium large hd => hown small medium large hd (h.trans (run_bind_of_ok (requireSlot_uvar hd)))⟩

/-! ### `UEmit` -/

theorem emits_writeBits {n : Nat} (hn : n ≤ 32) (v : Nat) : Emits (writeBits v n) () n v :=
  fun _ hw hfit => writeBits_ready hw hn hfit

theorem emits_uEmit (hd : Descriptor.Ok (.uvar small medium large)) (v : Nat) :
    Emits (uEmit (small, medium, large) v) () (uvarWidth small medium large v) (uvarField small medium v) := by
  obtain ⟨-, hsm, hml, hlarge⟩ := hd
  exact fun _ hw hfit => uEmit_ok hw hlarge (by omega) (by omega) hfit

/-- Lines that append and then answer without results. -/
theorem emits_then_answer {c : Cmd Unit} {n x : Nat} (hc : Emits c () n x) (hx : x < 2 ^ n) :
    Emits (do c; pure ([] : List Word)) [] n x :=
  hc.bind (n := 0) (y := 0) hx (.pure [])

/-! ### `UTake` -/

/-- The state with the reader's cursor at bit address `a`. -/
abbrev State.readerAt (s : State) (a : Nat) : State := { s with r := { s.r with rbit := a } }

theorem Memory.read_one (m : Memory) (a : Nat) : m.read a 1 = (m.bit a).toNat := rfl

/-- What is read is a first bit and the rest. -/
theorem Memory.read_one_add_eq_iff {m : Memory} {a n x : Nat} {b : Bool} :
    m.read a (1 + n) = b.toNat + 2 * x ↔ m.bit a = b ∧ m.read (a + 1) n = x := by
  rw [Nat.add_comm 1 n, Memory.read]
  cases m.bit a <;> cases b <;> simp <;> omega

/-- What is read is two first bits and the rest. -/
theorem Memory.read_two_add_eq_iff {m : Memory} {a n x : Nat} {b c : Bool} :
    m.read a (2 + n) = b.toNat + 2 * c.toNat + 4 * x ↔
      m.bit a = b ∧ m.bit (a + 1) = c ∧ m.read (a + 2) n = x := by
  have hsplit : 2 + n = 1 + (1 + n) := by omega
  have hjoin : b.toNat + 2 * c.toNat + 4 * x = b.toNat + 2 * (c.toNat + 2 * x) := by ring
  rw [hsplit, hjoin, Memory.read_one_add_eq_iff, Memory.read_one_add_eq_iff]

section
variable {n a : Nat}

/-- One `Read` step at the cursor (41_reader.md R142), then the lines after it. -/
theorem readsAt_of_readBits {k : Nat → Cmd (List Word)} {own : Prop} (hlimit : s.r.limit ≤ s.r.mem.bitSize)
    (hone : 1 ≤ n) (hn : n ≤ 32) (h : exec i s = run (readBits n >>= k) (s.readerAt a))
    (hown : exec i s = run (k (s.r.mem.read a n)) (s.readerAt (a + n)) → own) : ReadsAt i s a n own :=
  ⟨fun hshort => poisonsReader_of_exec (h.trans (run_bind_of_raised (readBits_short hone hn hshort))),
    fun hfit => hown (h.trans (run_bind_of_ok (readBits_ok hone hn hfit hlimit)))⟩

/-- A selector or presence bit, and the lines it selects. -/
theorem readsAt_of_selector {c d : Cmd (List Word)} {own own' : Prop} (hlimit : s.r.limit ≤ s.r.mem.bitSize)
    (h : exec i s = run (do let b ← readBits 1; if b = 0 then c else d) (s.readerAt a))
    (hown : exec i s = run c (s.readerAt (a + 1)) → own) (hown' : exec i s = run d (s.readerAt (a + 1)) → own') :
    ReadsAt i s a 1 ((s.r.mem.bit a = false → own) ∧ (s.r.mem.bit a = true → own')) := by
  refine readsAt_of_readBits hlimit le_rfl (by decide) h fun hrun => ?_
  rw [Memory.read_one] at hrun
  exact ⟨fun hbit => hown (by simpa [hbit] using hrun), fun hbit => hown' (by simpa [hbit] using hrun)⟩

/-- A payload, which is the end of the command. -/
theorem readsAt_of_payload {results : Nat → List Word} (hlimit : s.r.limit ≤ s.r.mem.bitSize) (hone : 1 ≤ n)
    (hn : n ≤ 32) (h : exec i s = run (do let v ← readBits n; pure (results v)) (s.readerAt a)) :
    ReadsAt i s a n (Completes i s (s.readerAt (a + n)) (results (s.r.mem.read a n))) :=
  readsAt_of_readBits hlimit hone hn h fun hrun => hrun.trans (run_of_ok (pure_run _ _))

end

/-- The lines after `UTake` follow the payload of each bin. -/
theorem uTake_bind {α : Type} (small medium large : Nat) (k : Nat → Cmd α) :
    uTake (small, medium, large) >>= k = (do
      let b ← readBits 1
      if b = 0 then readBits small >>= k
      else do
        let c ← readBits 1
        if c = 0 then readBits medium >>= k else readBits large >>= k) := by
  simp only [uTake, bind_assoc, apply_ite (· >>= k)]

theorem takesUvar_of_uTake {a : Nat} {results : Nat → List Word} (hlimit : s.r.limit ≤ s.r.mem.bitSize)
    (hd : Descriptor.Ok (.uvar small medium large))
    (h : exec i s = run (do let v ← uTake (small, medium, large); pure (results v)) (s.readerAt a)) :
    TakesUvar i s small medium large a results := by
  obtain ⟨hsmall, hsm, hml, hlarge⟩ := hd
  rw [uTake_bind] at h
  exact readsAt_of_selector hlimit h (readsAt_of_payload hlimit hsmall (by omega)) fun h =>
    readsAt_of_selector hlimit h (readsAt_of_payload hlimit (by omega) (by omega))
      (readsAt_of_payload hlimit (by omega) hlarge)

/-! ### The encoding read back -/

/-- An encoding in the stream gives its value back and is consumed whole (47_uintvariable.md R259). -/
theorem TakesUvar.completes {a v : Nat} {results : Nat → List Word} (h : TakesUvar i s small medium large a results)
    (hread : s.r.mem.read a (uvarWidth small medium large v) = uvarField small medium v)
    (hfit : a + uvarWidth small medium large v ≤ s.r.limit) :
    Completes i s (s.readerAt (a + uvarWidth small medium large v)) (results v) := by
  obtain ⟨-, hfirst⟩ := h
  unfold uvarWidth uvarField at *
  split_ifs at * with hsmall hmedium
  · obtain ⟨hbit, hv⟩ := (Memory.read_one_add_eq_iff (b := false)).mp (hread.trans (Nat.zero_add _).symm)
    obtain ⟨hpayload, -⟩ := hfirst (by omega)
    obtain ⟨-, hdone⟩ := hpayload hbit
    rw [hv, Nat.add_assoc] at hdone
    exact hdone (by omega)
  · obtain ⟨hbit, hbit', hv⟩ := (Memory.read_two_add_eq_iff (b := true) (c := false)).mp hread
    obtain ⟨-, hpayload⟩ := hfirst (by omega)
    obtain ⟨-, hselected⟩ := hpayload hbit
    obtain ⟨hpayload, -⟩ := hselected (by omega)
    obtain ⟨-, hdone⟩ := hpayload hbit'
    rw [hv, Nat.add_assoc] at hdone
    exact hdone (by omega)
  · obtain ⟨hbit, hbit', hv⟩ := (Memory.read_two_add_eq_iff (b := true) (c := true)).mp hread
    obtain ⟨-, hpayload⟩ := hfirst (by omega)
    obtain ⟨-, hselected⟩ := hpayload hbit
    obtain ⟨-, hpayload⟩ := hselected (by omega)
    obtain ⟨-, hdone⟩ := hpayload hbit'
    rw [hv, Nat.add_assoc] at hdone
    exact hdone (by omega)

/-- What one command appends, as the bits another one reads. -/
theorem Appends.read_back {t : State} {n x : Nat} {own : Prop} (h : Appends i s n x) (hx : x < 2 ^ n)
    (hfit : s.w.wbit + n ≤ s.w.cap)
    (hown : t.r.rbit + n ≤ t.r.limit → t.r.mem.read t.r.rbit n = x → own) :
    ∃ s₁, exec i s = .next s₁ ∧ s₁.w.wbit = s.w.wbit + n ∧ (t.r.rbit + n ≤ t.r.limit →
      (∀ j, j < n → t.r.mem.bit (t.r.rbit + j) = s₁.w.mem.bit (s.w.wbit + j)) → own) := by
  obtain ⟨-, happends⟩ := h
  obtain ⟨m, hm, hdone⟩ := happends hfit
  exact ⟨_, hdone, rfl, fun hleft hbits => hown hleft (hm.read_eq hx hbits)⟩

end Sys2Proof.Machine
end

section
/-! SUPPORT. Each command of the UIntVariablePacker up to its end (47_uintvariable.md R253 to R257). -/

namespace Sys2Proof.Machine

variable {s : State} {slot small medium large : Nat} {value present : Word}

/-! ### `UPACK` and `UPACKN` -/

theorem exec_upack_live (hl : s.w.lifecycle = .live) : exec (.upack slot value) s = run (do
    let d ← requireSlot slot Descriptor.asUvar
    raiseIf (u32 value ≥ 2 ^ d.2.2) .outOfRange 0
    reserve (uSize d (u32 value))
    uEmit d (u32 value)
    pure []) s :=
  run_bind_of_ok (requireWriter_live hl)

theorem exec_upackn_live (hl : s.w.lifecycle = .live) : exec (.upackn slot present value) s = run (do
    let d ← requireSlot slot Descriptor.asUvar
    if u32 present % 2 = 0 then
      reserve 1
      writeBits 0 1
      pure []
    else
      raiseIf (u32 value ≥ 2 ^ d.2.2) .outOfRange 1
      reserve (1 + uSize d (u32 value))
      writeBits 1 1
      uEmit d (u32 value)
      pure []) s :=
  run_bind_of_ok (requireWriter_live hl)

theorem upack_checks_then_appends (hs : s.Inv) (hl : s.w.lifecycle = .live) :
    ((∀ small medium large, s.slots[slot]? ≠ some (.uvar small medium large)) →
      Rejects (.upack slot value) s .invalidArgument 0x84) ∧
    ∀ small medium large, s.slots[slot]? = some (.uvar small medium large) →
      (2 ^ large ≤ value.toNat → Rejects (.upack slot value) s .outOfRange 0) ∧
      (value.toNat < 2 ^ large → Appends (.upack slot value) s
        (uvarWidth small medium large value.toNat) (uvarField small medium value.toNat)) :=
  rejects_or_reaches_uvar (exec_upack_live hl) fun _ _ _ hd h =>
    rejects_or_reaches_raiseIf h not_le.mpr fun hv h =>
      appends_of_emits hs.writer.ready h (emits_then_answer (emits_uEmit (hs.uvar_ok hd) _) (uvarField_lt hv))

/-- The presence operand by its bit 0 alone (47_uintvariable.md R256). -/
theorem u32_mod_two_eq_zero_iff (w : Word) : u32 w % 2 = 0 ↔ w.getLsbD 0 = false := by
  rw [u32, BitVec.getLsbD, Nat.testBit_zero]
  simp

/-- A presence bit 1, then the encoding. -/
theorem emits_present {v : Nat} (hd : Descriptor.Ok (.uvar small medium large)) (hv : v < 2 ^ large) :
    Emits (do writeBits 1 1; uEmit (small, medium, large) v; pure ([] : List Word)) []
      (1 + uvarWidth small medium large v) (1 + 2 * uvarField small medium v) :=
  (emits_writeBits (by decide) 1).bind (by decide) (emits_then_answer (emits_uEmit hd v) (uvarField_lt hv))

theorem presentField_lt {v : Nat} (hv : v < 2 ^ large) :
    1 + 2 * uvarField small medium v < 2 ^ (1 + uvarWidth small medium large v) := by
  have := uvarField_lt (small := small) (medium := medium) hv
  rw [Nat.pow_add]
  omega

theorem upackn_checks_then_appends (hs : s.Inv) (hl : s.w.lifecycle = .live) :
    ((∀ small medium large, s.slots[slot]? ≠ some (.uvar small medium large)) →
      Rejects (.upackn slot present value) s .invalidArgument 0x84) ∧
    ∀ small medium large, s.slots[slot]? = some (.uvar small medium large) →
      (present.getLsbD 0 = false → Appends (.upackn slot present value) s 1 0) ∧
      (present.getLsbD 0 = true → 2 ^ large ≤ value.toNat →
        Rejects (.upackn slot present value) s .outOfRange 1) ∧
      (present.getLsbD 0 = true → value.toNat < 2 ^ large →
        Appends (.upackn slot present value) s (1 + uvarWidth small medium large value.toNat)
          (1 + 2 * uvarField small medium value.toNat)) := by
  refine rejects_or_reaches_uvar (exec_upackn_live hl) fun small medium large hd h => ?_
  simp only [u32_mod_two_eq_zero_iff] at h
  cases hbit : present.getLsbD 0 with
  | false =>
    rw [if_pos hbit] at h
    have habsent := emits_then_answer (emits_writeBits (n := 1) (by decide) 0) (by decide)
    exact ⟨fun _ => appends_of_emits hs.writer.ready h habsent, nofun, nofun⟩
  | true =>
    rw [if_neg (by simp [hbit])] at h
    have ⟨hrejects, happends⟩ := rejects_or_reaches_raiseIf h not_le.mpr fun hv h =>
      appends_of_emits hs.writer.ready h (emits_present (hs.uvar_ok hd) hv)
    exact ⟨nofun, fun _ => hrejects, fun _ => happends⟩

/-! ### `UUNPACK` and `UUNPACKN` -/

theorem uunpack_checks_then_takes (hs : s.Inv) (hl : s.r.lifecycle = .live) :
    ((∀ small medium large, s.slots[slot]? ≠ some (.uvar small medium large)) →
      Rejects (.uunpack slot) s .invalidArgument 0x84) ∧
    ∀ small medium large, s.slots[slot]? = some (.uvar small medium large) →
      TakesUvar (.uunpack slot) s small medium large s.r.rbit fun v => [BitVec.ofNat 32 v] :=
  rejects_or_reaches_uvar (run_bind_of_ok (requireReader_live hl)) fun _ _ _ hd =>
    takesUvar_of_uTake hs.reader.limitFits (hs.uvar_ok hd)

theorem uunpackn_checks_then_takes (hs : s.Inv) (hl : s.r.lifecycle = .live) :
    ((∀ small medium large, s.slots[slot]? ≠ some (.uvar small medium large)) →
      Rejects (.uunpackn slot) s .invalidArgument 0x84) ∧
    ∀ small medium large, s.slots[slot]? = some (.uvar small medium large) →
      ReadsAt (.uunpackn slot) s s.r.rbit 1
        ((s.r.mem.bit s.r.rbit = false →
          Completes (.uunpackn slot) s { s with r := { s.r with rbit := s.r.rbit + 1 } } [0#32, 0#32]) ∧
        (s.r.mem.bit s.r.rbit = true →
          TakesUvar (.uunpackn slot) s small medium large (s.r.rbit + 1) fun v => [1#32, BitVec.ofNat 32 v])) :=
  rejects_or_reaches_uvar (run_bind_of_ok (requireReader_live hl)) fun _ _ _ hd h =>
    readsAt_of_selector hs.reader.limitFits h (fun h => h.trans (run_of_ok (pure_run _ _)))
      (takesUvar_of_uTake hs.reader.limitFits (hs.uvar_ok hd))

/-! ### The encoding read back by the commands -/

section
variable (hs : s.Inv) (hl : s.r.lifecycle = .live) (hd : s.slots[slot]? = some (.uvar small medium large))
include hs hl hd

theorem uunpack_completes (hfit : s.r.rbit + uvarWidth small medium large value.toNat ≤ s.r.limit)
    (hread : s.r.mem.read s.r.rbit (uvarWidth small medium large value.toNat) =
      uvarField small medium value.toNat) :
    Completes (.uunpack slot) s (s.consumed (uvarWidth small medium large value.toNat)) [value] := by
  obtain ⟨-, htakes⟩ := uunpack_checks_then_takes (slot := slot) hs hl
  have hdone := (htakes small medium large hd).completes hread hfit
  rwa [BitVec.ofNat_toNat, BitVec.setWidth_eq] at hdone

theorem uunpackn_completes_absent (hfit : s.r.rbit + 1 ≤ s.r.limit) (hread : s.r.mem.read s.r.rbit 1 = 0) :
    Completes (.uunpackn slot) s (s.consumed 1) [0#32, 0#32] := by
  obtain ⟨-, htakes⟩ := uunpackn_checks_then_takes (slot := slot) hs hl
  obtain ⟨-, hpresence⟩ := htakes small medium large hd
  obtain ⟨habsent, -⟩ := hpresence hfit
  rw [Memory.read_one, Bool.toNat_eq_zero] at hread
  exact habsent hread

theorem uunpackn_completes_present (hfit : s.r.rbit + (1 + uvarWidth small medium large value.toNat) ≤ s.r.limit)
    (hread : s.r.mem.read s.r.rbit (1 + uvarWidth small medium large value.toNat) =
      1 + 2 * uvarField small medium value.toNat) :
    Completes (.uunpackn slot) s (s.consumed (1 + uvarWidth small medium large value.toNat)) [1#32, value] := by
  obtain ⟨-, htakes⟩ := uunpackn_checks_then_takes (slot := slot) hs hl
  obtain ⟨-, hpresence⟩ := htakes small medium large hd
  obtain ⟨-, hpresent⟩ := hpresence (by omega)
  obtain ⟨hbit, hvalue⟩ := (Memory.read_one_add_eq_iff (b := true)).mp hread
  have hdone := (hpresent hbit).completes hvalue (by omega)
  rwa [BitVec.ofNat_toNat, BitVec.setWidth_eq, Nat.add_assoc] at hdone

end

end Sys2Proof.Machine
end

section
/-! The statements about the UIntVariablePacker (47_uintvariable.md). -/

namespace Sys2Proof.Machine

/-- Settles O47: the slot check, one check per width in the order of the pseudocode, and the write of the slot. -/
theorem ucfgConstructsThreeWidths : Obligations.UcfgConstructsThreeWidths := by
  intro s slot small medium large
  refine ⟨rfl, rejects_or_reaches_slotIndex rfl fun h => ?_⟩
  have ⟨hsmall, hchecked⟩ := rejects_or_reaches_raiseIf h not_lt.mpr fun _ h =>
    rejects_or_reaches_raiseIf h not_le.mpr fun _ h => rejects_or_reaches_raiseIf h not_le.mpr fun _ h =>
      rejects_or_reaches_raiseIf h not_lt.mpr fun _ => completes_of_setSlot
  refine ⟨hsmall, fun h1 => (hchecked h1).left, fun h1 h2 hbad => ?_, fun h1 h2 h3 h4 => ?_⟩
  · obtain ⟨-, hordered⟩ := hchecked h1
    obtain ⟨hlarge, hlast⟩ := hordered h2
    rcases le_or_gt large.toNat medium.toNat with hle | hlt
    · exact hlarge hle
    · exact (hlast hlt).left (hbad.resolve_left (not_le.mpr hlt))
  · obtain ⟨-, hordered⟩ := hchecked h1
    obtain ⟨-, hlast⟩ := hordered h2
    exact (hlast h3).right h4

/-- Settles O48: one check of the value, then one append of its encoding. -/
theorem upackAppendsTheSmallestBin : Obligations.UpackAppendsTheSmallestBin :=
  fun _ _ _ hs => ⟨rfl, usesWriter_of_isWriterCommand rfl fun hl => upack_checks_then_appends hs hl⟩

/-- Settles O49: the selector bits, each with its own check, then the payload of the bin they select. -/
theorem uunpackReadsTheSelectedBin : Obligations.UunpackReadsTheSelectedBin :=
  fun _ _ hs => ⟨rfl, usesReader_of_isReaderCommand rfl fun hl => uunpack_checks_then_takes hs hl⟩

/-- Settles O50: bit 0 of the first operand alone decides whether the value is examined. -/
theorem upacknPrefixesAPresenceBit : Obligations.UpacknPrefixesAPresenceBit :=
  fun _ _ _ _ hs => ⟨rfl, usesWriter_of_isWriterCommand rfl fun hl => upackn_checks_then_appends hs hl⟩

/-- Settles O51: the presence bit, then the value as `UUNPACK` reads it. -/
theorem uunpacknReadsAPresenceBit : Obligations.UunpacknReadsAPresenceBit :=
  fun _ _ hs => ⟨rfl, usesReader_of_isReaderCommand rfl fun hl => uunpackn_checks_then_takes hs hl⟩

/-- Settles O55: the bits that a pack command appends read as the encoding, from which the selector and presence bits
lead to the value. -/
theorem uIntVariableRoundTrip : Obligations.UIntVariableRoundTrip := by
  intro s t slot value present small medium large hs ht hwlive hwpoison hrlive hrpoison hds hdt
  have hw := Writer.lifecycle_live.mpr ⟨hwlive, hwpoison⟩
  have hr := Reader.lifecycle_live.mpr ⟨hrlive, hrpoison⟩
  refine ⟨fun hv hfit => ?_, fun hv hfit => ?_⟩
  · obtain ⟨-, hpack⟩ := upack_checks_then_appends (slot := slot) (value := value) hs hw
    obtain ⟨-, happends⟩ := hpack small medium large hds
    exact (happends hv).read_back (uvarField_lt hv) hfit (uunpack_completes ht hr hdt)
  · obtain ⟨-, hpack⟩ := upackn_checks_then_appends (slot := slot) (present := present) (value := value) hs hw
    obtain ⟨habsent, -, hpresent⟩ := hpack small medium large hds
    cases hbit : present.getLsbD 0 with
    | false =>
      simp only [hbit, Bool.false_eq_true, if_false] at hfit ⊢
      exact (habsent hbit).read_back (by decide) hfit (uunpackn_completes_absent ht hr hdt)
    | true =>
      simp only [hbit, if_true] at hfit ⊢
      exact (hpresent hbit (hv hbit)).read_back (presentField_lt (hv hbit)) hfit
        (uunpackn_completes_present ht hr hdt)

end Sys2Proof.Machine
end

section
/-! SUPPORT. What the diagnostic commands answer, one lemma per way each of them ends (48_diagnostics.md R270 to R272),
and the status word bit by bit (10_state.md R37). -/

namespace Sys2Proof.Machine

variable {s : State} {slot : Nat}

/-! ### `STAT` -/

theorem stat_completes : Completes .stat s s [statusWord s] := rfl

/-- The number of four bits, the first as bit 0. -/
theorem fourBits_testBit (a b c d : Bool) :
    let n := a.toNat + 2 * b.toNat + 4 * c.toNat + 8 * d.toNat
    n < 2 ^ 4 ∧ n.testBit 0 = a ∧ n.testBit 1 = b ∧ n.testBit 2 = c ∧ n.testBit 3 = d := by
  revert a b c d
  decide

/-- The four lifecycle bits, and zeros above them. -/
theorem statusWord_bits (s : State) :
    (statusWord s).getLsbD 0 = s.w.live ∧ (statusWord s).getLsbD 1 = s.w.poison ∧
      (statusWord s).getLsbD 2 = s.r.live ∧ (statusWord s).getLsbD 3 = s.r.poison ∧
      ∀ k, 4 ≤ k → (statusWord s).getLsbD k = false := by
  obtain ⟨hlt, h0, h1, h2, h3⟩ := fourBits_testBit s.w.live s.w.poison s.r.live s.r.poison
  simp only [statusWord, BitVec.getLsbD_ofNat, h0, h1, h2, h3]
  refine ⟨rfl, rfl, rfl, rfl, fun k hk => ?_⟩
  rw [Nat.testBit_lt_two_pow (hlt.trans_le (Nat.pow_le_pow_right (by decide) hk)), Bool.and_false]

/-- A poisoned writer is live (10_state.md R30). -/
theorem Writer.Ok.live_of_poison {w : Writer} (h : w.Ok) (hp : w.poison = true) : w.live = true := by
  by_contra hl
  obtain ⟨hp', -⟩ := h.closed (eq_false_of_ne_true hl)
  simp [hp] at hp'

/-- A poisoned reader is live (10_state.md R30). -/
theorem Reader.Ok.live_of_poison {r : Reader} (h : r.Ok) (hp : r.poison = true) : r.live = true := by
  by_contra hl
  obtain ⟨hp', -⟩ := h.closed (eq_false_of_ne_true hl)
  simp [hp] at hp'

/-! ### `SLOTBITS` -/

theorem slotbits_completes {b : Nat} (h : s.slots[slot]?.bind Descriptor.bitCount = some b) :
    Completes (.slotbits slot) s s [BitVec.ofNat 32 b, BitVec.ofNat 32 ((b + 7) / 8), BitVec.ofNat 32 (b / 8)] :=
  (run_bind_of_ok (requireSlot_some ((s.slotAs_eq_bind ..).trans h))).trans (run_of_ok (pure_run _ _))

theorem slotbits_rejects (h : s.slots[slot]?.bind Descriptor.bitCount = none) :
    Rejects (.slotbits slot) s .invalidArgument 0x84 :=
  run_bind_of_raised (requireSlot_none ((s.slotAs_eq_bind ..).trans h))

/-! ### `UMAX` -/

theorem umax_completes {small medium large : Nat} (h : s.slots[slot]? = some (.uvar small medium large)) :
    Completes (.umax slot) s s [BitVec.ofNat 32 (2 ^ large - 1)] :=
  (run_bind_of_ok (requireSlot_uvar h)).trans (run_of_ok (pure_run _ _))

theorem umax_rejects (h : ∀ small medium large, s.slots[slot]? ≠ some (.uvar small medium large)) :
    Rejects (.umax slot) s .invalidArgument 0x84 := run_bind_of_raised (requireSlot_not_uvar h)

end Sys2Proof.Machine
end

section
/-! The statements about the diagnostic commands (48_diagnostics.md). -/

namespace Sys2Proof.Machine

/-- Settles O23: the bits of the status word; that a poisoned context is live is in the invariant. -/
theorem statReadsTheLifecycleBits : Obligations.StatReadsTheLifecycleBits := by
  refine ⟨rfl, fun s => ?_⟩
  obtain ⟨h0, h1, h2, h3, hzero⟩ := statusWord_bits s
  refine ⟨statusWord s, stat_completes, h0, h1, h2, h3, hzero, fun hs => ?_⟩
  rw [h0, h1, h2, h3]
  exact ⟨hs.writer.live_of_poison, hs.reader.live_of_poison⟩

/-- Settles O24: one kind of slot after the other, with the bit count that it has or lacks. -/
theorem slotbitsReportsBitCounts : Obligations.SlotbitsReportsBitCounts := by
  refine fun s slot => ⟨rfl, fun b hb => slotbits_completes ?_, fun hno => slotbits_rejects ?_⟩
  · rcases hb with ⟨_, h, rfl⟩ | ⟨_, _, h, rfl⟩ | ⟨_, _, _, h, rfl⟩ | ⟨_, _, _, _, h, rfl⟩ <;> rw [h] <;> rfl
  · rcases hno with h | h | ⟨_, _, _, h⟩
    · rw [List.getElem?_eq_none h]
      rfl
    · rw [h]
      rfl
    · rw [h]
      rfl

/-- Settles O25: the slot holds a variable packer or it does not. -/
theorem umaxReportsMaxValue : Obligations.UmaxReportsMaxValue :=
  fun _ _ => ⟨rfl, fun _ _ _ => umax_completes, umax_rejects⟩

end Sys2Proof.Machine
end

section
/-! SUPPORT. That the UNSPECIFIED fields cannot be observed, line by line (60_exceptions.md R289, 10_state.md R25, R33,
R50): run from two states that differ only there, the lines of a command end alike, with the same value or the same
fault, and again in two states that differ only there. The same list of lines says which commands can answer that the
count is at fault (60_exceptions.md R283). -/

namespace Sys2Proof.Machine

/-! ### Writers that look the same -/

section
variable {v w : Writer}

theorem Writer.SameSeen.refl (w : Writer) : w.SameSeen w := ⟨rfl, rfl, rfl, rfl, fun _ => rfl, fun _ _ _ => rfl⟩

theorem Writer.SameSeen.lifecycle (h : v.SameSeen w) : v.lifecycle = w.lifecycle := by
  unfold Writer.lifecycle
  rw [h.live, h.poison]

/-- Nothing of a poisoned writer is seen but that it is poisoned, and its capacity (10_state.md R25). -/
theorem Writer.SameSeen.poisonedFrom {v' w' : Writer} (h : v.SameSeen w) (hv : v'.PoisonedFrom v)
    (hw : w'.PoisonedFrom w) : v'.SameSeen w' := by
  obtain ⟨hvl, hvp, hvc, hvs⟩ := hv
  obtain ⟨hwl, hwp, hwc, hws⟩ := hw
  have unseen : v'.lifecycle ≠ .live := fun hl => by simp [Writer.lifecycle_live, hvp] at hl
  exact ⟨by rw [hvl, hwl, h.live], by rw [hvp, hwp], by rw [hvc, hwc, h.cap], by rw [hvs, hws, h.size],
    fun hl => absurd hl unseen, fun hl => absurd hl unseen⟩

theorem Writer.SameSeen.appended (h : v.SameSeen w) (hv : v.Ok) (hw : w.Ok) (hl : v.lifecycle = .live) (n x : Nat) :
    Writer.SameSeen { v with mem := v.mem.write v.wbit n x, wbit := v.wbit + n }
      { w with mem := w.mem.write w.wbit n x, wbit := w.wbit + n } where
  live := h.live
  poison := h.poison
  cap := h.cap
  size := by simpa using h.size
  cursor _ := by simp [h.cursor hl]
  bits _ a (ha : a < v.cap) := by
    rw [Memory.bit_write (Memory.wf_rising hv.canonical), Memory.bit_write (Memory.wf_rising hw.canonical),
      h.cursor hl, h.bits hl a ha]

/-- The bits below the capacity are all that is seen of a storage, and these have just been zeroed. -/
theorem Writer.SameSeen.cleared {m k : Memory} (hm : m.wf = true) (hk : k.wf = true) (hsize : m.size = k.size)
    (live : Bool) (cap : Nat) :
    Writer.SameSeen ⟨live, false, cap, 0, m.clear cap⟩ ⟨live, false, cap, 0, k.clear cap⟩ where
  live := rfl
  poison := rfl
  cap := rfl
  size := by simpa using hsize
  cursor _ := rfl
  bits _ a ha := by
    rw [Memory.bit_clear (Memory.wf_rising hm), Memory.bit_clear (Memory.wf_rising hk), if_pos ha, if_pos ha]

theorem Writer.SameSeen.closed {m k : Memory} (hsize : m.size = k.size) :
    Writer.SameSeen ⟨false, false, 0, 0, m⟩ ⟨false, false, 0, 0, k⟩ :=
  ⟨rfl, rfl, rfl, hsize, fun _ => rfl, nofun⟩

/-- A field that lies below the capacity reads alike. -/
theorem Writer.SameSeen.read (h : v.SameSeen w) (hl : v.lifecycle = .live) {a n : Nat} (hn : a + n ≤ v.cap) :
    v.mem.read a n = w.mem.read a n :=
  Memory.read_congr fun j hj => h.bits hl (a + j) (by omega)

end

/-! ### Readers that look the same -/

section
variable {q r : Reader}

theorem Reader.SameSeen.refl (r : Reader) : r.SameSeen r :=
  ⟨rfl, rfl, rfl, fun _ => rfl, fun _ => rfl, fun _ _ _ => rfl⟩

theorem Reader.SameSeen.lifecycle (h : q.SameSeen r) : q.lifecycle = r.lifecycle := by
  unfold Reader.lifecycle
  rw [h.live, h.poison]

/-- Nothing of a poisoned reader is seen but that it is poisoned (10_state.md R33). -/
theorem Reader.SameSeen.poisonedFrom {q' r' : Reader} (h : q.SameSeen r) (hq : q'.PoisonedFrom q)
    (hr : r'.PoisonedFrom r) : q'.SameSeen r' := by
  obtain ⟨hql, hqp, hqs⟩ := hq
  obtain ⟨hrl, hrp, hrs⟩ := hr
  have unseen : q'.lifecycle ≠ .live := fun hl => by simp [Reader.lifecycle_live, hqp] at hl
  exact ⟨by rw [hql, hrl, h.live], by rw [hqp, hrp], by rw [hqs, hrs, h.size], fun hl => absurd hl unseen,
    fun hl => absurd hl unseen, fun hl => absurd hl unseen⟩

theorem Reader.SameSeen.consumed (h : q.SameSeen r) (hl : q.lifecycle = .live) (n : Nat) :
    Reader.SameSeen { q with rbit := q.rbit + n } { r with rbit := r.rbit + n } :=
  ⟨h.live, h.poison, h.size, h.limit, fun _ => by simp [h.cursor hl], h.bits⟩

/-- The bits below the limit are all that is seen of a storage, and the 8 new ones are the byte that was fed. -/
theorem Reader.SameSeen.fed (h : q.SameSeen r) (hq : q.Ok) (hr : r.Ok) (hl : q.lifecycle = .live) (x : Nat) :
    Reader.SameSeen { q with limit := q.limit + 8, mem := q.mem.write q.limit 8 x }
      { r with limit := r.limit + 8, mem := r.mem.write r.limit 8 x } where
  live := h.live
  poison := h.poison
  size := by simpa using h.size
  limit _ := by simp [h.limit hl]
  cursor _ := h.cursor hl
  bits _ a (ha : a < q.limit + 8) := by
    rw [Memory.bit_write (Memory.wf_rising hq.canonical), Memory.bit_write (Memory.wf_rising hr.canonical),
      ← h.limit hl]
    by_cases hnew : q.limit ≤ a ∧ a < q.limit + 8
    · rw [if_pos hnew, if_pos hnew]
    · rw [if_neg hnew, if_neg hnew, h.bits hl a (by omega)]

/-- A reader with an empty stream shows nothing of its storage (10_state.md R36). -/
theorem Reader.SameSeen.emptied {m k : Memory} (hsize : m.size = k.size) (live : Bool) :
    Reader.SameSeen ⟨live, false, 0, 0, m⟩ ⟨live, false, 0, 0, k⟩ :=
  ⟨rfl, rfl, hsize, fun _ => rfl, fun _ => rfl, fun _ _ ha => absurd ha (Nat.not_lt_zero _)⟩

/-- A field that lies below the limit reads alike. -/
theorem Reader.SameSeen.read (h : q.SameSeen r) (hl : q.lifecycle = .live) {a n : Nat} (hn : a + n ≤ q.limit) :
    q.mem.read a n = r.mem.read a n :=
  Memory.read_congr fun j hj => h.bits hl (a + j) (by omega)

end

/-! ### States that look the same -/

section
variable {s t : State}

theorem State.SameSeen.refl (s : State) : s.SameSeen s := ⟨.refl _, .refl _, rfl, rfl, rfl⟩

theorem State.SameSeen.setWriter {v w : Writer} {n m : Nat} (h : s.SameSeen t) (hw : v.SameSeen w) :
    State.SameSeen { s with w := v, freeIdx := n } { t with w := w, freeIdx := m } :=
  ⟨hw, h.reader, h.slots, h.port, h.responses⟩

theorem State.SameSeen.setReader {q r : Reader} {n m : Nat} (h : s.SameSeen t) (hr : q.SameSeen r) :
    State.SameSeen { s with r := q, freeIdx := n } { t with r := r, freeIdx := m } :=
  ⟨h.writer, hr, h.slots, h.port, h.responses⟩

theorem State.SameSeen.setPort (h : s.SameSeen t) (events : List PortEvent) :
    State.SameSeen { s with port := events } { t with port := events } :=
  ⟨h.writer, h.reader, h.slots, rfl, h.responses⟩

theorem State.SameSeen.respond (h : s.SameSeen t) (r : Response) : (s.respond r).SameSeen (t.respond r) :=
  ⟨h.writer, h.reader, h.slots, h.port, congrArg (· ++ [r]) h.responses⟩

/-- The reset input leaves unlike storages at most (10_state.md R50). -/
theorem State.SameSeen.applyReset (h : s.SameSeen t) : (applyReset s).SameSeen (applyReset t) where
  writer := .closed h.writer.size
  reader := .emptied (m := (Machine.applyReset s).r.mem) (k := (Machine.applyReset t).r.mem) h.reader.size false
  slots := by simp [State.nslot, h.slots]
  port := h.port
  responses := h.responses

theorem State.SameSeen.slotAs {α : Type} (h : s.SameSeen t) (slot : Nat) (view : Descriptor → Option α) :
    s.slotAs slot view = t.slotAs slot view := by
  rw [State.slotAs_eq_bind, State.slotAs_eq_bind, h.slots]

theorem State.SameSeen.statusWord (h : s.SameSeen t) : statusWord s = statusWord t := by
  unfold Machine.statusWord
  rw [h.writer.live, h.writer.poison, h.reader.live, h.reader.poison]

/-- Two states that look the same and meet the invariant. -/
structure State.Twins (s t : State) : Prop where
  left : s.Inv
  right : t.Inv
  seen : s.SameSeen t

theorem State.Inv.twin (h : s.Inv) : s.Twins s := ⟨h, h, .refl s⟩

theorem State.Twins.setPort (h : s.Twins t) (events : List PortEvent) :
    State.Twins { s with port := events } { t with port := events } :=
  ⟨h.left.setPort _, h.right.setPort _, h.seen.setPort events⟩

theorem State.Twins.setSlot (h : s.Twins t) {d : Descriptor} (hd : d.Ok) (k : Nat) :
    State.Twins { s with slots := s.slots.set k d } { t with slots := t.slots.set k d } :=
  ⟨h.left.setSlots hd, h.right.setSlots hd, h.seen.writer, h.seen.reader, congrArg (·.set k d) h.seen.slots,
    h.seen.port, h.seen.responses⟩

end

/-- The writer is live. -/
abbrev State.WriterLive (s : State) : Prop := s.w.lifecycle = .live

/-- The reader is live. -/
abbrev State.ReaderLive (s : State) : Prop := s.r.lifecycle = .live

section
variable {s t : State} {n : Nat}

theorem State.Twins.appended (h : s.Twins t) (hl : s.WriterLive) (hfit : s.w.wbit + n ≤ s.w.cap)
    (hfit' : t.w.wbit + n ≤ t.w.cap) (v : Nat) : (s.appended v n).Twins (t.appended v n) :=
  ⟨h.left.setWriter (h.left.writer.appended hfit) (by simp),
    h.right.setWriter (h.right.writer.appended hfit') (by simp),
    h.seen.setWriter (h.seen.writer.appended h.left.writer h.right.writer hl n _)⟩

theorem State.Twins.consumed (h : s.Twins t) (hl : s.ReaderLive) (hfit : s.r.rbit + n ≤ s.r.limit)
    (hfit' : t.r.rbit + n ≤ t.r.limit) : (s.consumed n).Twins (t.consumed n) :=
  ⟨h.left.setReader (h.left.reader.consumed hfit) rfl, h.right.setReader (h.right.reader.consumed hfit') rfl,
    h.seen.setReader (h.seen.reader.consumed hl n)⟩

theorem State.SameSeen.writerPoisoned (h : s.SameSeen t) : s.writerPoisoned.SameSeen t.writerPoisoned :=
  h.setWriter (h.writer.poisonedFrom ⟨rfl, rfl, rfl, rfl⟩ ⟨rfl, rfl, rfl, rfl⟩)

theorem State.SameSeen.readerPoisoned (h : s.SameSeen t) : s.readerPoisoned.SameSeen t.readerPoisoned :=
  h.setReader (h.reader.poisonedFrom ⟨rfl, rfl, rfl⟩ ⟨rfl, rfl, rfl⟩)

end

/-! ### Lines that end alike -/

/-- The response says that the count is at fault (60_exceptions.md R283). -/
def Response.NamesCount (r : Response) : Prop := r.fault = some .invalidArgument ∧ r.info = 0x83

theorem Raise.Plain.not_namesCount {f : Raise} (h : f.Plain) : ¬f.response.NamesCount := by
  obtain ⟨-, -, hcount⟩ := h
  exact fun ⟨hk, hinfo⟩ => hcount (Option.some.inj hk) hinfo

section
variable {α β : Type} {s t : State} {live : State → Prop} {counted : Prop}

/-- Two runs of the same lines end alike: with the same value, in states of which `Q` holds, or with the same fault, in
states that look the same. The fault names the count only where `counted` says that it can. -/
inductive Ends (counted : Prop) (Q : α → State → State → Prop) :
    EStateM.Result Stop State α → EStateM.Result Stop State α → Prop
  | ok {a s t} (h : Q a s t) : Ends counted Q (.ok a s) (.ok a t)
  | raised {f s t} (hf : f.response.NamesCount → counted) (h : s.SameSeen t) :
      Ends counted Q (.error (.raised f) s) (.error (.raised f) t)

/-- From two states that look the same, meet the invariant and satisfy `live`, the lines end alike; if with a value,
then `P` holds of it and the two states are again such. -/
def Alike (live : State → Prop) (counted : Prop) (c : Cmd α) (P : α → Prop) : Prop :=
  ∀ s t, s.Twins t → live s → Ends counted (fun a s' t' => P a ∧ s'.Twins t' ∧ live s') (c s) (c t)

theorem Alike.pure {P : α → Prop} {a : α} (h : P a) : Alike live counted (Pure.pure a) P :=
  fun _ _ ht hl => .ok ⟨h, ht, hl⟩

theorem Alike.bind {c : Cmd α} {k : α → Cmd β} {P : α → Prop} {Q : β → Prop} (hc : Alike live counted c P)
    (hk : ∀ a, P a → Alike live counted (k a) Q) : Alike live counted (c >>= k) Q := by
  intro s t ht hl
  have hend := hc s t ht hl
  generalize hs' : c s = x at hend
  generalize ht' : c t = y at hend
  cases hend with
  | ok h =>
    obtain ⟨ha, htwins, hlive⟩ := h
    rw [bind_of_ok hs', bind_of_ok ht']
    exact hk _ ha _ _ htwins hlive
  | raised hf h =>
    rw [bind_of_error hs', bind_of_error ht']
    exact .raised hf h

theorem Alike.ite {p : Prop} [Decidable p] {c d : Cmd α} {P : α → Prop} (hc : Alike live counted c P)
    (hd : Alike live counted d P) : Alike live counted (if p then c else d) P := by
  split
  · exact hc
  · exact hd

/-- Lines that never look at the state. -/
theorem Alike.computes {c : Cmd α} {P : α → Prop} (hc : Computes c P) : Alike live counted c P := by
  intro s t ht hl
  rcases hc with ⟨a, ha, hok⟩ | ⟨f, hf, herr⟩
  · rw [hok s, hok t]
    exact .ok ⟨ha, ht, hl⟩
  · rw [herr s, herr t]
    exact .raised (fun h => absurd h hf.not_namesCount) ht.seen

theorem Computes.axisCheck {ax : Axis} {i : Nat} {value : Word} (hi : i < 0x83) :
    Computes (axisCheck ax i value) fun _ => True := by
  rcases value_refused_or_accepted ax (BitVec.ofNat 8 i) value with ⟨kind, info, hr⟩ | ⟨v, hv⟩
  · refine .inr ⟨_, ?_, axisCheck_raised hr⟩
    rcases hr with ⟨-, rfl, rfl⟩ | ⟨_, -, -, rfl, rfl⟩
    · exact ⟨by simp, by simp, fun _ => operand_ne_infoCount hi⟩
    · exact ⟨by simp, by simp, by simp⟩
  · exact .inl ⟨v, trivial, axisCheck_ok hv⟩

/-! #### The slot table -/

theorem Alike.requireSlot {slot : Nat} {view : Descriptor → Option α} {P : α → Prop}
    (hP : ∀ e d, Descriptor.Ok e → view e = some d → P d) : Alike live counted (requireSlot slot view) P := by
  intro s t ht hl
  have hsame := ht.seen.slotAs slot view
  rcases hd : s.slotAs slot view with _ | d
  · rw [requireSlot_none hd, requireSlot_none (hsame ▸ hd)]
    exact .raised (fun h => absurd h (Raise.Plain.not_namesCount (by decide))) ht.seen
  · rw [requireSlot_some hd, requireSlot_some (hsame ▸ hd)]
    obtain ⟨e, he, -, hv⟩ := slotAs_some hd
    exact .ok ⟨hP e d (ht.left.slots e he) hv, ht, hl⟩

theorem Alike.requireSlotIndex {slot : Nat} :
    Alike (fun _ => True) counted (requireSlotIndex slot) fun _ => True := by
  intro s t ht hl
  rcases lt_or_ge slot s.slots.length with h | h
  · rw [requireSlotIndex_ok h, requireSlotIndex_ok (ht.seen.slots ▸ h)]
    exact .ok ⟨trivial, ht, hl⟩
  · rw [requireSlotIndex_none h, requireSlotIndex_none (ht.seen.slots ▸ h)]
    exact .raised (fun h => absurd h (Raise.Plain.not_namesCount (by decide))) ht.seen

theorem Alike.setSlot {slot : Nat} {d : Descriptor} (hd : d.Ok) :
    Alike (fun _ => True) counted (setSlot slot d) fun _ => True :=
  fun _ _ ht _ => .ok ⟨trivial, ht.setSlot hd slot, trivial⟩

/-! #### Appending -/

theorem Alike.reserve {n : Nat} : Alike State.WriterLive counted (reserve n) fun _ => True := by
  intro s t ht hl
  have hcap := ht.seen.writer.cap
  have hcursor := ht.seen.writer.cursor hl
  rcases le_or_gt (s.w.wbit + n) s.w.cap with hfit | hfull
  · rw [reserve_ok hfit, reserve_ok (hcursor ▸ hcap ▸ hfit)]
    exact .ok ⟨trivial, ht, hl⟩
  · rw [reserve_full hfull, reserve_full (hcursor ▸ hcap ▸ hfull), hcap, hcursor]
    exact .raised (fun h => nomatch h.1) ht.seen.writerPoisoned

theorem Alike.writeBits {v n : Nat} (hn : n ≤ 32 ∨ counted) :
    Alike State.WriterLive counted (writeBits v n) fun _ => True := by
  intro s t ht hl
  have hcap := ht.seen.writer.cap
  have hcursor := ht.seen.writer.cursor hl
  rcases lt_or_ge 32 n with h32 | h32
  · rw [writeBits_count h32, writeBits_count h32]
    exact .raised (fun _ => hn.resolve_left (not_le.mpr h32)) ht.seen.writerPoisoned
  rcases le_or_gt (s.w.wbit + n) s.w.cap with hfit | hfull
  · have hfit' : t.w.wbit + n ≤ t.w.cap := hcursor ▸ hcap ▸ hfit
    rw [writeBits_ok h32 hfit ht.left.writer.capFits, writeBits_ok h32 hfit' ht.right.writer.capFits]
    exact .ok ⟨trivial, ht.appended hl hfit hfit' v, hl⟩
  · have h0 : n ≠ 0 := by
      have := ht.left.writer.cursor
      omega
    rw [writeBits_full h32 h0 hfull, writeBits_full h32 h0 (hcursor ▸ hcap ▸ hfull), hcap, hcursor]
    exact .raised (fun h => nomatch h.1) ht.seen.writerPoisoned

theorem Alike.axisEmit {ax : Axis} (hax : ax.Ok) {v : Rat} :
    Alike State.WriterLive counted (axisEmit ax v) fun _ => True :=
  .bind (.writeBits (.inl (by decide))) fun _ _ => .writeBits (.inl (hax.widthRange.2.trans (by decide)))

theorem Alike.posEmit {ax : PosAxis} {pr : Rat} (hax : ax.Ok pr) {v : Rat} :
    Alike State.WriterLive counted (posEmit ax v) fun _ => True :=
  .writeBits (.inl (hax.widthRange.2.trans (by decide)))

theorem Alike.uEmit {d : Nat × Nat × Nat} (hd : Descriptor.Ok (.uvar d.1 d.2.1 d.2.2)) {v : Nat} :
    Alike State.WriterLive counted (uEmit d v) fun _ => True := by
  obtain ⟨-, hsm, hml, hl⟩ := hd
  have bit {b : Nat} : Alike State.WriterLive counted (Machine.writeBits b 1) fun _ => True :=
    .writeBits (.inl (by decide))
  exact .ite (.bind bit fun _ _ => .writeBits (.inl (by omega)))
    (.ite (.bind bit fun _ _ => .bind bit fun _ _ => .writeBits (.inl (by omega)))
      (.bind bit fun _ _ => .bind bit fun _ _ => .writeBits (.inl hl)))

/-! #### Consuming -/

theorem Alike.require {n : Nat} : Alike State.ReaderLive counted (require n) fun _ => True := by
  intro s t ht hl
  have hlimit := ht.seen.reader.limit hl
  have hcursor := ht.seen.reader.cursor hl
  rcases le_or_gt (s.r.rbit + n) s.r.limit with hfit | hshort
  · rw [require_ok hfit, require_ok (hcursor ▸ hlimit ▸ hfit)]
    exact .ok ⟨trivial, ht, hl⟩
  · rw [require_short hshort, require_short (hcursor ▸ hlimit ▸ hshort), hlimit, hcursor]
    exact .raised (fun h => nomatch h.1) ht.seen.readerPoisoned

theorem Alike.readBits {n : Nat} (hn : (1 ≤ n ∧ n ≤ 32) ∨ counted) :
    Alike State.ReaderLive counted (readBits n) fun _ => True := by
  intro s t ht hl
  have hlimit := ht.seen.reader.limit hl
  have hcursor := ht.seen.reader.cursor hl
  by_cases hcount : n = 0 ∨ 32 < n
  · rw [readBits_count hcount, readBits_count hcount]
    exact .raised (fun _ => hn.resolve_left (by omega)) ht.seen.readerPoisoned
  have h1 : 1 ≤ n := by omega
  have h32 : n ≤ 32 := by omega
  rcases le_or_gt (s.r.rbit + n) s.r.limit with hfit | hshort
  · have hfit' : t.r.rbit + n ≤ t.r.limit := hcursor ▸ hlimit ▸ hfit
    rw [readBits_ok h1 h32 hfit ht.left.reader.limitFits, readBits_ok h1 h32 hfit' ht.right.reader.limitFits,
      ht.seen.reader.read hl hfit, hcursor]
    exact .ok ⟨trivial, ht.consumed hl hfit hfit', hl⟩
  · rw [readBits_short h1 h32 hshort, readBits_short h1 h32 (hcursor ▸ hlimit ▸ hshort), hlimit, hcursor]
    exact .raised (fun h => nomatch h.1) ht.seen.readerPoisoned

theorem Alike.axisTake {ax : Axis} (hax : ax.Ok) : Alike State.ReaderLive counted (axisTake ax) fun _ => True :=
  .bind (.readBits (.inl (by decide))) fun _ _ =>
    .bind (.readBits (.inl ⟨hax.widthRange.1, hax.widthRange.2.trans (by decide)⟩)) fun _ _ => .pure trivial

theorem Alike.posTake {ax : PosAxis} {pr : Rat} (hax : ax.Ok pr) :
    Alike State.ReaderLive counted (posTake ax) fun _ => True :=
  .bind (.readBits (.inl ⟨hax.widthRange.1, hax.widthRange.2.trans (by decide)⟩)) fun _ _ => .pure trivial

theorem Alike.uTake {d : Nat × Nat × Nat} (hd : Descriptor.Ok (.uvar d.1 d.2.1 d.2.2)) :
    Alike State.ReaderLive counted (uTake d) fun _ => True := by
  obtain ⟨h1, hsm, hml, hl⟩ := hd
  have bit : Alike State.ReaderLive counted (Machine.readBits 1) fun _ => True := .readBits (.inl (by decide))
  exact .bind bit fun _ _ => .ite (.readBits (.inl (by omega)))
    (.bind bit fun _ _ => .ite (.readBits (.inl (by omega))) (.readBits (.inl (by omega))))

end

/-! ### What a slot holds is well-formed -/

section
variable {e : Descriptor}

theorem Descriptor.Ok.of_asFloat {ax : Axis} (h : e.Ok) (he : e.asFloat = some ax) : ax.Ok := by
  obtain rfl := Descriptor.asFloat_eq_some_iff.mp he
  exact h

theorem Descriptor.Ok.of_asVec2 {d : Axis × Axis} (h : e.Ok) (he : e.asVec2 = some d) : d.1.Ok ∧ d.2.Ok := by
  obtain rfl := Descriptor.asVec2_eq_some_iff.mp he
  exact h

theorem Descriptor.Ok.of_asVec3 {d : Axis × Axis × Axis} (h : e.Ok) (he : e.asVec3 = some d) :
    d.1.Ok ∧ d.2.1.Ok ∧ d.2.2.Ok := by
  obtain rfl := Descriptor.asVec3_eq_some_iff.mp he
  exact h

theorem Descriptor.Ok.of_asPos {d : PosAxis × PosAxis × PosAxis} (h : e.Ok) (he : e.asPos = some d) :
    ∃ pr, d.1.Ok pr ∧ d.2.1.Ok pr ∧ d.2.2.Ok pr := by
  obtain ⟨pr, rfl⟩ := Descriptor.asPos_eq_some_iff.mp he
  obtain ⟨-, -, haxes⟩ := h
  exact ⟨pr, haxes⟩

theorem Descriptor.Ok.of_asUvar {d : Nat × Nat × Nat} (h : e.Ok) (he : e.asUvar = some d) :
    Descriptor.Ok (.uvar d.1 d.2.1 d.2.2) := by
  obtain rfl := Descriptor.asUvar_eq_some_iff.mp he
  exact h

end

end Sys2Proof.Machine
end

section
/-! SUPPORT. That every command answers alike in two states that look the same (60_exceptions.md R289), by the classes
of `exec_yields`; and the faults that poison, as 60_exceptions.md R288 lists them. -/

namespace Sys2Proof

/-- The commands with a count of their own, of which alone 60_exceptions.md R283 can say that it is at fault. -/
def Instr.takesCount : Instr → Bool
  | .write _ _ | .read _ => true
  | _ => false

theorem Instr.eq_write {i : Instr} (hi : i.appendsBits = true) (hc : i.takesCount = true) :
    ∃ cnt value, i = .write cnt value := by
  cases i <;> cases hi <;> cases hc
  exact ⟨_, _, rfl⟩

theorem Instr.eq_read {i : Instr} (hi : i.consumesBits = true) (hc : i.takesCount = true) : ∃ cnt, i = .read cnt := by
  cases i <;> cases hi <;> cases hc
  exact ⟨_, rfl⟩

end Sys2Proof

namespace Sys2Proof.Machine

/-! ### Commands that answer alike -/

/-- The command gives the same answer from both states and leaves two that look the same. Only a command with a count
answers that the count is at fault. -/
def AnswersAlike (i : Instr) (s t : State) : Prop :=
  ∃ (r : Response) (s' t' : State), exec i s = .next (s'.respond r) ∧ exec i t = .next (t'.respond r) ∧ s'.SameSeen t' ∧
    (r.NamesCount → i.takesCount = true)

section
variable {i : Instr} {s t : State} {kind : FaultKind} {info : Byte} {results : List Word}

theorem not_namesCount_of_info (h : info ≠ 0x83) : ¬Response.NamesCount ⟨some kind, info, results⟩ :=
  fun ⟨_, hinfo⟩ => h hinfo

theorem AnswersAlike.rejects (hs : Rejects i s kind info) (ht : Rejects i t kind info) (h : s.SameSeen t)
    (hinfo : info ≠ 0x83) : AnswersAlike i s t :=
  ⟨_, _, _, hs, ht, h, fun hc => absurd hc (not_namesCount_of_info hinfo)⟩

theorem AnswersAlike.completes {s' t' : State} (hs : Completes i s s' results) (ht : Completes i t t' results)
    (h : s'.SameSeen t') : AnswersAlike i s t :=
  ⟨_, _, _, hs, ht, h, fun hc => nomatch hc.1⟩

theorem AnswersAlike.poisonsReader (hs : PoisonsReader i s kind info results)
    (ht : PoisonsReader i t kind info results) (h : s.SameSeen t) (hinfo : info ≠ 0x83) : AnswersAlike i s t := by
  obtain ⟨q, n, hq, hs⟩ := hs
  obtain ⟨r, m, hr, ht⟩ := ht
  exact ⟨_, _, _, hs, ht, h.setReader (h.reader.poisonedFrom hq hr),
    fun hc => absurd hc (not_namesCount_of_info hinfo)⟩

/-- Lines that end alike, of a command that has reached them in both states. -/
theorem Alike.answers {live : State → Prop} {c : Cmd (List Word)}
    (hc : Alike live (i.takesCount = true) c fun _ => True) (h : s.Twins t) (hl : live s) (hs : exec i s = run c s)
    (ht : exec i t = run c t) : AnswersAlike i s t := by
  have hend := hc s t h hl
  generalize hs' : c s = x at hend
  generalize ht' : c t = y at hend
  cases hend with
  | ok h =>
    obtain ⟨-, htwins, -⟩ := h
    exact .completes (hs.trans (run_of_ok hs')) (ht.trans (run_of_ok ht')) htwins.seen
  | raised hf h => exact ⟨_, _, _, hs.trans (run_of_raised hs'), ht.trans (run_of_raised ht'), h, hf⟩

/-- The prelude of a writer command, then its own lines (40_writer.md R120). -/
theorem answersAlike_of_isWriterCommand (hi : i.isWriterCommand = true) (h : s.Twins t)
    (hown : s.WriterLive → t.WriterLive → AnswersAlike i s t) : AnswersAlike i s t := by
  obtain ⟨hsc, hsp, -⟩ := usesWriter_of_isWriterCommand (s := s) hi fun _ => trivial
  obtain ⟨htc, htp, -⟩ := usesWriter_of_isWriterCommand (s := t) hi fun _ => trivial
  have hlive := h.seen.writer.live
  have hpoison := h.seen.writer.poison
  rcases hl : s.w.lifecycle with _ | _ | _
  · have hl := Writer.lifecycle_closed.mp hl
    exact .rejects (hsc hl) (htc (hlive ▸ hl)) h.seen (by decide)
  · exact hown hl (h.seen.writer.lifecycle.symm.trans hl)
  · obtain ⟨hl, hp⟩ := Writer.lifecycle_poisoned.mp hl
    exact .rejects (hsp hl hp) (htp (hlive ▸ hl) (hpoison ▸ hp)) h.seen (by decide)

/-- The prelude of a reader command, then its own lines (41_reader.md R140). -/
theorem answersAlike_of_isReaderCommand (hi : i.isReaderCommand = true) (h : s.Twins t)
    (hown : s.ReaderLive → t.ReaderLive → AnswersAlike i s t) : AnswersAlike i s t := by
  obtain ⟨hsc, hsp, -⟩ := usesReader_of_isReaderCommand (s := s) hi fun _ => trivial
  obtain ⟨htc, htp, -⟩ := usesReader_of_isReaderCommand (s := t) hi fun _ => trivial
  have hlive := h.seen.reader.live
  have hpoison := h.seen.reader.poison
  rcases hl : s.r.lifecycle with _ | _ | _
  · have hl := Reader.lifecycle_closed.mp hl
    exact .rejects (hsc hl) (htc (hlive ▸ hl)) h.seen (by decide)
  · exact hown hl (h.seen.reader.lifecycle.symm.trans hl)
  · obtain ⟨hl, hp⟩ := Reader.lifecycle_poisoned.mp hl
    exact .rejects (hsp hl hp) (htp (hlive ▸ hl) (hpoison ▸ hp)) h.seen (by decide)

theorem Alike.answers_always {c : Cmd (List Word)} (hexec : ∀ u, exec i u = run c u)
    (hc : Alike (fun _ => True) (i.takesCount = true) c fun _ => True) (h : s.Twins t) : AnswersAlike i s t :=
  hc.answers h trivial (hexec s) (hexec t)

theorem Alike.answers_writer {c : Cmd (List Word)} (hi : i.isWriterCommand = true)
    (hexec : ∀ u, exec i u = run (do requireWriter; c) u)
    (hc : Alike State.WriterLive (i.takesCount = true) c fun _ => True) (h : s.Twins t) : AnswersAlike i s t :=
  answersAlike_of_isWriterCommand hi h fun hs ht => hc.answers h hs
    ((hexec s).trans (run_bind_of_ok (requireWriter_live hs)))
    ((hexec t).trans (run_bind_of_ok (requireWriter_live ht)))

theorem Alike.answers_reader {c : Cmd (List Word)} (hi : i.isReaderCommand = true)
    (hexec : ∀ u, exec i u = run (do requireReader; c) u)
    (hc : Alike State.ReaderLive (i.takesCount = true) c fun _ => True) (h : s.Twins t) : AnswersAlike i s t :=
  answersAlike_of_isReaderCommand hi h fun hs ht => hc.answers h hs
    ((hexec s).trans (run_bind_of_ok (requireReader_live hs)))
    ((hexec t).trans (run_bind_of_ok (requireReader_live ht)))

/-! ### The classes of commands -/

/-- A byte below the byte length lies below the capacity, where the two storages read alike. -/
theorem answersAlike_wbyte (h : s.Twins t) (index : Word) : AnswersAlike (.wbyte index) s t := by
  refine answersAlike_of_isWriterCommand rfl h fun hs ht => ?_
  have hcursor := h.seen.writer.cursor hs
  rcases lt_or_ge index.toNat ((s.w.wbit + 7) / 8) with hi | hi
  · have hread := h.seen.writer.read hs (h.left.writer.byte_le_cap hi)
    exact .completes (wbyte_completes h.left.writer hs hi)
      (hread ▸ wbyte_completes h.right.writer ht (hcursor ▸ hi)) h.seen
  · exact .rejects (wbyte_rejects hs hi) (wbyte_rejects ht (hcursor ▸ hi)) h.seen (by decide)

theorem answersAlike_of_onlyAnswers (h : s.Twins t) (hi : i.onlyAnswers = true) : AnswersAlike i s t := by
  cases i <;> cases hi
  case stat => exact .completes stat_completes (h.seen.statusWord ▸ stat_completes) h.seen
  case slotbits =>
    exact Alike.answers_always (fun _ => rfl) (.bind (.requireSlot fun _ _ _ _ => trivial) fun _ _ => .pure trivial) h
  case umax =>
    exact Alike.answers_always (fun _ => rfl) (.bind (.requireSlot fun _ _ _ _ => trivial) fun _ _ => .pure trivial) h
  case wbytelen =>
    exact answersAlike_of_isWriterCommand rfl h fun hs ht =>
      .completes (wbytelen_completes hs) (h.seen.writer.cursor hs ▸ wbytelen_completes ht) h.seen
  case wbyte index => exact answersAlike_wbyte h index
  case rbytepos =>
    exact answersAlike_of_isReaderCommand rfl h fun hs ht =>
      .completes (rbytepos_completes hs) (h.seen.reader.cursor hs ▸ rbytepos_completes ht) h.seen
  case bitcnt =>
    exact Alike.answers_always (fun _ => rfl) (.computes (.bind (.raiseIf (by decide)) fun _ _ => .pure trivial)) h
  case scaletou =>
    exact Alike.answers_always (fun _ => rfl) (.computes (.bind (.finite (by decide)) fun _ _ =>
      .bind (.finite (by decide)) fun _ _ => .bind (.finite (by decide)) fun _ _ =>
      .bind (.raiseIf (by decide)) fun _ _ => .bind (.raiseIf (by decide)) fun _ _ =>
      .bind (.raiseIf (by decide)) fun _ _ => .pure trivial)) h
  case scalefromu =>
    exact Alike.answers_always (fun _ => rfl) (.computes (.bind (.raiseIf (by decide)) fun _ _ =>
      .bind (.finite (by decide)) fun _ _ => .bind (.finite (by decide)) fun _ _ =>
      .bind (.raiseIf (by decide)) fun _ _ => .bind (.raiseIf (by decide)) fun _ _ => .pure trivial)) h

theorem answersAlike_of_appendsBits (h : s.Twins t) (hi : i.appendsBits = true) : AnswersAlike i s t := by
  cases i <;> cases hi
  case write =>
    exact Alike.answers_writer rfl (fun _ => rfl) (.bind (.writeBits (.inr rfl)) fun _ _ => .pure trivial) h
  case fpack =>
    exact Alike.answers_writer rfl (fun _ => rfl) (.bind (.requireSlot fun _ _ he => he.of_asFloat) fun _ hax =>
      .bind (.computes (.axisCheck (by decide))) fun _ _ => .bind .reserve fun _ _ =>
      .bind (.axisEmit hax) fun _ _ => .pure trivial) h
  case v2pack =>
    exact Alike.answers_writer rfl (fun _ => rfl) (.bind (.requireSlot fun _ _ he => he.of_asVec2) fun _ ⟨hx, hy⟩ =>
      .bind (.computes (.axisCheck (by decide))) fun _ _ => .bind (.computes (.axisCheck (by decide))) fun _ _ =>
      .bind .reserve fun _ _ => .bind (.axisEmit hx) fun _ _ => .bind (.axisEmit hy) fun _ _ => .pure trivial) h
  case v3pack =>
    exact Alike.answers_writer rfl (fun _ => rfl) (.bind (.requireSlot fun _ _ he => he.of_asVec3) fun _ ⟨hx, hy, hz⟩ =>
      .bind (.computes (.axisCheck (by decide))) fun _ _ => .bind (.computes (.axisCheck (by decide))) fun _ _ =>
      .bind (.computes (.axisCheck (by decide))) fun _ _ => .bind .reserve fun _ _ => .bind (.axisEmit hx) fun _ _ =>
      .bind (.axisEmit hy) fun _ _ => .bind (.axisEmit hz) fun _ _ => .pure trivial) h
  case ppack =>
    exact Alike.answers_writer rfl (fun _ => rfl) (.bind (.requireSlot fun _ _ he => he.of_asPos)
      fun _ ⟨_, hx, hy, hz⟩ => .bind (.computes (.finite (by decide))) fun _ _ =>
      .bind (.computes (.finite (by decide))) fun _ _ => .bind (.computes (.finite (by decide))) fun _ _ =>
      .bind .reserve fun _ _ => .bind (.posEmit hx) fun _ _ => .bind (.posEmit hy) fun _ _ =>
      .bind (.posEmit hz) fun _ _ => .pure trivial) h
  case upack =>
    exact Alike.answers_writer rfl (fun _ => rfl) (.bind (.requireSlot fun _ _ he => he.of_asUvar) fun _ hd =>
      .bind (.computes (.raiseIf (by decide))) fun _ _ => .bind .reserve fun _ _ => .bind (.uEmit hd) fun _ _ =>
      .pure trivial) h
  case upackn =>
    exact Alike.answers_writer rfl (fun _ => rfl) (.bind (.requireSlot fun _ _ he => he.of_asUvar) fun _ hd => .ite
      (.bind .reserve fun _ _ => .bind (.writeBits (.inl (by decide))) fun _ _ => .pure trivial)
      (.bind (.computes (.raiseIf (by decide))) fun _ _ => .bind .reserve fun _ _ =>
        .bind (.writeBits (.inl (by decide))) fun _ _ => .bind (.uEmit hd) fun _ _ => .pure trivial)) h

theorem answersAlike_of_consumesBits (h : s.Twins t) (hi : i.consumesBits = true) : AnswersAlike i s t := by
  cases i <;> cases hi
  case read =>
    exact Alike.answers_reader rfl (fun _ => rfl) (.bind (.readBits (.inr rfl)) fun _ _ => .pure trivial) h
  case funpack =>
    exact Alike.answers_reader rfl (fun _ => rfl) (.bind (.requireSlot fun _ _ he => he.of_asFloat) fun _ hax =>
      .bind .require fun _ _ => .bind (.axisTake hax) fun _ _ => .pure trivial) h
  case v2unpack =>
    exact Alike.answers_reader rfl (fun _ => rfl) (.bind (.requireSlot fun _ _ he => he.of_asVec2) fun _ ⟨hx, hy⟩ =>
      .bind .require fun _ _ => .bind (.axisTake hx) fun _ _ => .bind (.axisTake hy) fun _ _ => .pure trivial) h
  case v3unpack =>
    exact Alike.answers_reader rfl (fun _ => rfl) (.bind (.requireSlot fun _ _ he => he.of_asVec3)
      fun _ ⟨hx, hy, hz⟩ => .bind .require fun _ _ => .bind (.axisTake hx) fun _ _ => .bind (.axisTake hy) fun _ _ =>
      .bind (.axisTake hz) fun _ _ => .pure trivial) h
  case punpack =>
    exact Alike.answers_reader rfl (fun _ => rfl) (.bind (.requireSlot fun _ _ he => he.of_asPos)
      fun _ ⟨_, hx, hy, hz⟩ => .bind .require fun _ _ => .bind (.posTake hx) fun _ _ =>
      .bind (.posTake hy) fun _ _ => .bind (.posTake hz) fun _ _ => .pure trivial) h
  case uunpack =>
    exact Alike.answers_reader rfl (fun _ => rfl) (.bind (.requireSlot fun _ _ he => he.of_asUvar) fun _ hd =>
      .bind (.uTake hd) fun _ _ => .pure trivial) h
  case uunpackn =>
    exact Alike.answers_reader rfl (fun _ => rfl) (.bind (.requireSlot fun _ _ he => he.of_asUvar) fun _ hd =>
      .bind (.readBits (.inl (by decide))) fun _ _ => .ite (.pure trivial)
        (.bind (.uTake hd) fun _ _ => .pure trivial)) h

/-- What a configuration command puts into its slot rests on its operands alone (10_state.md R46). -/
theorem answersAlike_of_configuredSlot {k : Nat} (h : s.Twins t) (hi : i.configuredSlot = some k) :
    AnswersAlike i s t := by
  obtain ⟨c, hexec, hc⟩ := exec_of_configuredSlot hi
  exact Alike.answers_always hexec (.bind .requireSlotIndex fun _ _ => .bind (.computes hc) fun _ hd =>
    .bind (.setSlot hd.1) fun _ _ => .pure trivial) h

/-! ### The commands that open, reset, feed or close a context -/

theorem answersAlike_wopen (h : s.Twins t) (capBytes : Word) : AnswersAlike (.wopen capBytes) s t := by
  have hlive := h.seen.writer.live
  have hsize := h.seen.writer.size
  cases hl : s.w.live with
  | true => exact .rejects (wopen_rejects_open hl) (wopen_rejects_open (hlive ▸ hl)) h.seen (by decide)
  | false =>
    rcases le_or_gt capBytes.toNat s.w.mem.size with hcap | hcap
    · have hcap' : capBytes.toNat ≤ t.w.mem.size := hsize ▸ hcap
      exact .completes (wopen_completes hl hcap (capBits_le_bitSize h.left hcap))
        (wopen_completes (hlive ▸ hl) hcap' (capBits_le_bitSize h.right hcap'))
        (h.seen.setWriter (.cleared h.left.writer.canonical h.right.writer.canonical hsize _ _))
    · exact .rejects (wopen_rejects_capacity hl hcap) (wopen_rejects_capacity (hlive ▸ hl) (hsize ▸ hcap)) h.seen
        (by decide)

theorem answersAlike_wreset (h : s.Twins t) : AnswersAlike .wreset s t := by
  have hlive := h.seen.writer.live
  cases hl : s.w.live with
  | true =>
    refine .completes (wreset_completes hl h.left.writer.capFits)
      (wreset_completes (hlive ▸ hl) h.right.writer.capFits) (h.seen.setWriter ?_)
    change Writer.SameSeen ⟨s.w.live, false, s.w.cap, 0, _⟩ ⟨t.w.live, false, t.w.cap, 0, _⟩
    rw [← hlive, ← h.seen.writer.cap]
    exact .cleared h.left.writer.canonical h.right.writer.canonical h.seen.writer.size _ _
  | false => exact .rejects (wreset_rejects_closed hl) (wreset_rejects_closed (hlive ▸ hl)) h.seen (by decide)

theorem answersAlike_wclose (h : s.Twins t) : AnswersAlike .wclose s t := by
  have hlive := h.seen.writer.live
  cases hl : s.w.live with
  | true =>
    exact .completes (wclose_completes hl) (wclose_completes (hlive ▸ hl))
      (h.seen.setWriter (.closed h.seen.writer.size))
  | false => exact .rejects (wclose_rejects_closed hl) (wclose_rejects_closed (hlive ▸ hl)) h.seen (by decide)

theorem answersAlike_ropen (h : s.Twins t) : AnswersAlike .ropen s t := by
  have hlive := h.seen.reader.live
  cases hl : s.r.live with
  | true => exact .rejects (ropen_rejects_open hl) (ropen_rejects_open (hlive ▸ hl)) h.seen (by decide)
  | false =>
    exact .completes (ropen_completes hl) (ropen_completes (hlive ▸ hl))
      (h.seen.setReader (.emptied (by simpa using h.seen.reader.size) true))

theorem answersAlike_rput (h : s.Twins t) (byte : Word) : AnswersAlike (.rput byte) s t := by
  refine answersAlike_of_isReaderCommand rfl h fun hs ht => ?_
  have hlimit := h.seen.reader.limit hs
  have hbits : s.r.mem.bitSize = t.r.mem.bitSize := congrArg (8 * ·) h.seen.reader.size
  rcases le_or_gt (s.r.limit + 8) s.r.mem.bitSize with hfit | hfull
  · exact .completes (rput_completes hs hfit) (rput_completes ht (hlimit ▸ hbits ▸ hfit))
      (h.seen.setReader (h.seen.reader.fed h.left.reader h.right.reader hs _))
  · have hpoisons := rput_poisons_full (byte := byte) hs hfull
    rw [hlimit, hbits] at hpoisons
    exact .poisonsReader hpoisons (rput_poisons_full ht (hlimit ▸ hbits ▸ hfull)) h.seen (by decide)

theorem answersAlike_rclose (h : s.Twins t) : AnswersAlike .rclose s t := by
  have hlive := h.seen.reader.live
  cases hl : s.r.live with
  | true =>
    exact .completes (rclose_completes hl) (rclose_completes (hlive ▸ hl))
      (h.seen.setReader (.emptied h.seen.reader.size false))
  | false => exact .rejects (rclose_rejects_closed hl) (rclose_rejects_closed (hlive ▸ hl)) h.seen (by decide)

/-- No command tells two states apart that look the same (60_exceptions.md R289). -/
theorem exec_answersAlike (i : Instr) (h : s.Twins t) : AnswersAlike i s t := by
  cases i with
  | wopen capBytes => exact answersAlike_wopen h capBytes
  | wreset => exact answersAlike_wreset h
  | wclose => exact answersAlike_wclose h
  | ropen => exact answersAlike_ropen h
  | rput byte => exact answersAlike_rput h byte
  | rclose => exact answersAlike_rclose h
  | stat | slotbits | umax | wbytelen | wbyte | rbytepos | bitcnt | scaletou | scalefromu =>
    exact answersAlike_of_onlyAnswers h rfl
  | write | fpack | v2pack | v3pack | ppack | upack | upackn => exact answersAlike_of_appendsBits h rfl
  | read | funpack | v2unpack | v3unpack | punpack | uunpack | uunpackn => exact answersAlike_of_consumesBits h rfl
  | fcfg | v2cfg | v3cfg | pcfg | ucfg => exact answersAlike_of_configuredSlot h rfl

end

/-! ### The faults that poison, as they are listed -/

/-- The fault is one with which 60_exceptions.md R288 has the command poison the writer. -/
abbrev ListedForWriter (i : Instr) (k : FaultKind) (info : Byte) : Prop :=
  (k = .invalidArgument ∧ info = 0x83 ∧ ∃ c v, i = .write c v) ∨ (k = .overflow ∧ i.appendsBits = true)

/-- The fault is one with which 60_exceptions.md R288 has the command poison the reader. -/
abbrev ListedForReader (i : Instr) (k : FaultKind) (info : Byte) : Prop :=
  (k = .invalidArgument ∧ info = 0x83 ∧ ∃ c, i = .read c) ∨ (k = .underflow ∧ i.consumesBits = true) ∨
    (k = .overflow ∧ ∃ b, i = .rput b)

section
variable {i : Instr} {s t : State} {r : Response} {f : Raise}

/-- From the invariant only `WRITE` and `READ` answer that the count is at fault: all widths that the packers use are
widths that one primitive step can move. -/
theorem takesCount_of_namesCount (hs : s.Inv) (h : exec i s = .next t) (hr : t.responses = s.responses ++ [r])
    (hc : r.NamesCount) : i.takesCount = true := by
  obtain ⟨r', u, -, hexec, -, -, hcount⟩ := exec_answersAlike i hs.twin
  obtain ⟨-, hresp⟩ := exec_frame hexec
  obtain rfl := Host.Outcome.next.inj (hexec.symm.trans h)
  rw [respond_responses, hresp, List.append_cancel_left_eq, List.singleton_inj] at hr
  exact hcount (hr ▸ hc)

theorem listedForWriter_of_poisons (hi : i.appendsBits = true) (hf : f.PoisonsWriter)
    (hcount : f.response.NamesCount → i.takesCount = true) : ListedForWriter i f.kind f.info := by
  rcases hf with hk | ⟨hk, hinfo⟩
  · exact .inr ⟨hk, hi⟩
  · exact .inl ⟨hk, hinfo, i.eq_write hi (hcount ⟨congrArg some hk, hinfo⟩)⟩

theorem listedForReader_of_poisons (hi : i.consumesBits = true) (hf : f.PoisonsReader)
    (hcount : f.response.NamesCount → i.takesCount = true) : ListedForReader i f.kind f.info := by
  rcases hf with hk | ⟨hk, hinfo⟩
  · exact .inr (.inl ⟨hk, hi⟩)
  · exact .inl ⟨hk, hinfo, i.eq_read hi (hcount ⟨congrArg some hk, hinfo⟩)⟩

theorem ListedForWriter.appendsBits {k : FaultKind} {info : Byte} (h : ListedForWriter i k info) :
    i.appendsBits = true := by
  rcases h with ⟨-, -, _, _, rfl⟩ | ⟨-, hi⟩
  · rfl
  · exact hi

theorem ListedForReader.isReaderCommand {k : FaultKind} {info : Byte} (h : ListedForReader i k info) :
    i.isReaderCommand = true := by
  rcases h with ⟨-, -, _, rfl⟩ | ⟨-, hi⟩ | ⟨-, _, rfl⟩
  · rfl
  · cases i <;> cases hi <;> rfl
  · rfl

/-- No fault of a command is listed for both contexts. -/
theorem ListedForWriter.not_reader {k : FaultKind} {info : Byte} (h : ListedForWriter i k info) :
    ¬ListedForReader i k info := fun hr => by
  obtain ⟨-, -, -, hnot⟩ := i.appendsBits_others h.appendsBits
  rw [hr.isReaderCommand] at hnot
  cases hnot

theorem Raise.Plain.not_listed (hf : f.Plain) :
    ¬ListedForWriter i f.kind f.info ∧ ¬ListedForReader i f.kind f.info := by
  obtain ⟨hover, hunder, hcount⟩ := hf
  refine ⟨?_, ?_⟩
  · rintro (⟨hk, hinfo, -⟩ | ⟨hk, -⟩)
    · exact hcount hk hinfo
    · exact hover hk
  · rintro (⟨hk, hinfo, -⟩ | ⟨hk, -⟩ | ⟨hk, -⟩)
    · exact hcount hk hinfo
    · exact hunder hk
    · exact hover hk

end

end Sys2Proof.Machine
end

section
/-! The statements about the whole machine and its faults (60_exceptions.md). -/

namespace Sys2Proof.Machine

/-- Settles O10: by the event that the step takes; a packet is always answered. -/
theorem noStepFromTheInvariantStops : Obligations.NoStepFromTheInvariantStops := by
  intro s hs
  rcases hp : s.port with _ | ⟨p | _, rest⟩
  · exact ⟨s, step_of_port_nil hp⟩
  · obtain ⟨t, _, _, hstep, -⟩ := step_answers hs hp
    exact ⟨t, hstep⟩
  · exact ⟨_, step_of_reset hp⟩

/-- Settles O14: by the effects of the command that answer with a fault. -/
theorem faultsPoisonAsListedOrChangeNothing : Obligations.FaultsPoisonAsListedOrChangeNothing := by
  intro i s t r k hs h hr hk
  have hcount := takesCount_of_namesCount hs h hr
  obtain ⟨u, hu, rfl⟩ := exec_effect_of_response h hr
  change (ListedForWriter i k r.info → _) ∧ (ListedForReader i k r.info → _) ∧
    (¬ListedForWriter i k r.info → ¬ListedForReader i k r.info → _)
  cases hu with
  | answered | appended | consumed | wopen | wreset | wclose | ropen | rput | rclose | configured => cases hk
  | refused hf =>
    cases hk
    obtain ⟨hnotw, hnotr⟩ := hf.not_listed (i := i)
    exact ⟨fun hw => absurd hw hnotw, fun hr => absurd hr hnotr, fun _ _ => rfl⟩
  | writerPoisoned hi hl ht hf =>
    cases hk
    have hlisted := listedForWriter_of_poisons hi hf hcount
    obtain ⟨_, _, hsize, rfl⟩ := appending_frame ht
    exact ⟨fun _ => ⟨(Writer.lifecycle_live.mp hl).2, ⟨rfl, rfl, rfl, hsize⟩, rfl, rfl, rfl⟩,
      fun hr => absurd hr hlisted.not_reader, fun hnot => absurd hlisted hnot⟩
  | readerPoisoned hi hl ht hf =>
    cases hk
    have hlisted := listedForReader_of_poisons hi hf hcount
    obtain ⟨_, rfl⟩ := consuming_frame ht
    exact ⟨fun hw => absurd hlisted hw.not_reader,
      fun _ => ⟨(Reader.lifecycle_live.mp hl).2, ⟨rfl, rfl, rfl⟩, rfl, rfl, rfl⟩, fun _ hnot => absurd hlisted hnot⟩
  | @rputFull byte _ f hl hf =>
    cases hk
    have hlisted : ListedForReader (.rput byte) f.kind f.info := .inr (.inr ⟨hf, byte, rfl⟩)
    exact ⟨fun hw => absurd hlisted hw.not_reader,
      fun _ => ⟨(Reader.lifecycle_live.mp hl).2, ⟨rfl, rfl, rfl⟩, rfl, rfl, rfl⟩, fun _ hnot => absurd hlisted hnot⟩

/-- Settles O19: the two states take the same event, and no event tells them apart. -/
theorem unspecifiedFieldsAreNeverObserved : Obligations.UnspecifiedFieldsAreNeverObserved := by
  intro s t s' hs ht hseen hstep
  have htwins : s.Twins t := ⟨hs, ht, hseen⟩
  rcases hp : s.port with _ | ⟨p | _, rest⟩ <;> have hp' := hseen.port ▸ hp
  · obtain rfl := Host.Outcome.next.inj ((step_of_port_nil hp).symm.trans hstep)
    exact ⟨t, step_of_port_nil hp', hseen⟩
  · rcases hd : decode p with e | i
    · obtain rfl := Host.Outcome.next.inj ((step_of_decode_error hp hd).symm.trans hstep)
      exact ⟨_, step_of_decode_error hp' hd, (hseen.setPort rest).respond _⟩
    · obtain ⟨r, u, v, hexec, hexec', huv, -⟩ := exec_answersAlike i (htwins.setPort rest)
      obtain rfl := Host.Outcome.next.inj (hexec.symm.trans ((step_of_decode_ok hp hd).symm.trans hstep))
      exact ⟨_, (step_of_decode_ok hp' hd).trans hexec', huv.respond r⟩
  · obtain rfl := Host.Outcome.next.inj ((step_of_reset hp).symm.trans hstep)
    exact ⟨_, step_of_reset hp', (hseen.setPort rest).applyReset⟩

end Sys2Proof.Machine
end
